-- ==== Sys2Proof/Word.lean ====
section
/-! DEFINITION. The word types of the block: bytes (spec/00_scope.md R9, R10) and channel numbers. -/

namespace Sys2Proof

/-- A register, a command byte, a parameter byte: eight bits, bit 0 the least significant (R10). -/
abbrev Byte := BitVec 8

/-- A channel of the multiplexer: one of eight 1-Wire bus segments, 0 to 7 (R14). -/
abbrev Channel := Fin 8

end Sys2Proof
end

