-- ==== Sys2Proof/Syntax.lean ====
section
/-! DEFINITION. The block's instructions: one constructor per row of spec/opcode_table.json (30_encoding.md R80, R82),
the I2C transactions that carry them, and the names of the registers behind the read pointer. -/

namespace Sys2Proof

/-- The register a read transaction returns (10_state.md R20, R34). -/
inductive ReadReg where
  | status
  | readData
  | channel
  | config
  deriving DecidableEq, Repr

/-- One I2C transaction from the host to ADDR (30_encoding.md R80): a write of N bytes, or a read of one byte. -/
inductive Txn where
  | write (bytes : List Byte)
  | read
  deriving DecidableEq, Repr

/-- The nine commands and the register read. A parameter is the whole parameter byte as it is sent: what it
means, and which of its values are legal, depends on its position (30_encoding.md R98). -/
inductive Instr where
  /-- DRST 0xF0, device reset (R120). -/
  | drst
  /-- SRP 0xE1, set read pointer (R121). -/
  | srp (ptr : Byte)
  /-- WCFG 0xD2, write configuration (R124). -/
  | wcfg (cfg : Byte)
  /-- CHSL 0xC3, channel select (R171). -/
  | chsl (code : Byte)
  /-- 1WRS 0xB4, 1-Wire reset with presence detect (R140). -/
  | w1rs
  /-- 1WWB 0xA5, 1-Wire write byte (R146). -/
  | w1wb (data : Byte)
  /-- 1WRB 0x96, 1-Wire read byte (R149). -/
  | w1rb
  /-- 1WSB 0x87, one 1-Wire time slot (R143). -/
  | w1sb (bit : Byte)
  /-- 1WT 0x78, 1-Wire triplet (R153). -/
  | w1t (dir : Byte)
  /-- RD, the register read (R126): the host sends nothing. -/
  | rd
  deriving DecidableEq, Repr

end Sys2Proof
end

