-- ==== Sys2Proof/Config.lean ====
section
/-! DEFINITION. What is fixed for a machine, and the free values: the history of the buses as the oracle sees it, the
one free value every draw comes from, and the device's address. -/

namespace Sys2Proof

/-- A delay step of the host (30_encoding.md R95). -/
inductive Delay where
  | poll
  | settle
  deriving DecidableEq, Repr

/-- One entry of the history (10_state.md R38: the bus's answers "may depend on the whole history"). -/
inductive Event where
  /-- the host sent the address byte, then the transaction's bytes (R81). -/
  | i2c (address : Byte) (txn : Txn)
  /-- a reset and presence cycle on a channel, with its answer. -/
  | busReset (ch : Channel) (presence short : Bool)
  /-- a time slot in which the master sends v, with the sample. -/
  | busSlot (ch : Channel) (v sample : Bool)
  /-- the line level of a channel was sampled. -/
  | busLevel (ch : Channel) (level : Bool)
  /-- a delay step of the host. -/
  | delay (d : Delay)
  /-- the host read its clock. -/
  | clock (ms : Nat)
  /-- the device lost and regained power. -/
  | power
  deriving DecidableEq, Repr

namespace Config

/-- THE FREE VALUE (00_scope.md R11, log 2): what the n-th draw is, after a given history. It has no body, so nothing
can be proved about what it is; a draw over a range takes it modulo the size of the range. -/
opaque freeValue : Nat → List Event → Nat

/-- `ADDR`, the device's 7-bit I2C address: "default 0x18" (00_scope.md R9, 10_state.md R42). -/
def addr : BitVec 7 := 0x18

end Config
end Sys2Proof
end

