-- ==== Sys2Proof/Decode.lean ====
section
/-! DEFINITION. The decoder and the encoder of transactions (30_encoding.md), the parameter fields, the channel tables, and
the reading of spec/opcode_table.json's words. -/

namespace Sys2Proof

/-- Why a write transaction is no instruction (30_encoding.md R86, R91). -/
inductive Reject where
  /-- N = 0: an address-only write. -/
  | emptyWrite
  /-- the first byte is none of the nine command codes. -/
  | badCommand (cmd : Byte)
  /-- the command's format has another length. -/
  | badLength (cmd : Byte) (n : Nat)
  deriving DecidableEq, Repr

/-- The formats of a command (R80): CMD1 carries no parameter, CMD2 one. -/
inductive Format where
  | cmd1 (i : Instr)
  | cmd2 (i : Byte → Instr)

/-- The complete command map (R82). -/
def commandFormat (cmd : Byte) : Option Format :=
  if cmd = 0xF0#8 then some (.cmd1 .drst)
  else if cmd = 0xE1#8 then some (.cmd2 .srp)
  else if cmd = 0xD2#8 then some (.cmd2 .wcfg)
  else if cmd = 0xC3#8 then some (.cmd2 .chsl)
  else if cmd = 0xB4#8 then some (.cmd1 .w1rs)
  else if cmd = 0xA5#8 then some (.cmd2 .w1wb)
  else if cmd = 0x96#8 then some (.cmd1 .w1rb)
  else if cmd = 0x87#8 then some (.cmd2 .w1sb)
  else if cmd = 0x78#8 then some (.cmd2 .w1t)
  else none

/-- A write transaction's bytes: the code is checked first, then the length (40_i2c_transport.md R101). -/
def decodeWrite (bytes : List Byte) : Except Reject Instr :=
  match bytes with
  | [] => .error .emptyWrite
  | cmd :: params =>
    match commandFormat cmd, params with
    | none, _ => .error (.badCommand cmd)
    | some (.cmd1 i), [] => .ok i
    | some (.cmd2 i), [p] => .ok (i p)
    | some _, _ => .error (.badLength cmd bytes.length)

/-- The decoder, total on every transaction. -/
def decode (t : Txn) : Except Reject Instr :=
  match t with
  | .write bytes => decodeWrite bytes
  | .read => .ok .rd

/-- The transaction of an instruction, from the same map (R82, R95). -/
def encode (i : Instr) : Txn :=
  match i with
  | .drst => .write [0xF0#8]
  | .srp p => .write [0xE1#8, p]
  | .wcfg p => .write [0xD2#8, p]
  | .chsl c => .write [0xC3#8, c]
  | .w1rs => .write [0xB4#8]
  | .w1wb b => .write [0xA5#8, b]
  | .w1rb => .write [0x96#8]
  | .w1sb p => .write [0x87#8, p]
  | .w1t p => .write [0x78#8, p]
  | .rd => .read

/-- The first byte on the wire (R81): the 7-bit address and the direction bit, 1 for a read. -/
def addressByte (addr : BitVec 7) (t : Txn) : Byte :=
  match t with
  | .write _ => addr ++ 0#1
  | .read => addr ++ 1#1

/-! Parameter fields (30_encoding.md §3). -/

/-- `PTR_STATUS`, `PTR_READDATA`, `PTR_CHANNEL`, `PTR_CONFIG` (R84); every other pointer code is reserved (R90). -/
def pointerOf (p : Byte) : Option ReadReg :=
  if p = 0xF0#8 then some .status
  else if p = 0xE1#8 then some .readData
  else if p = 0xD2#8 then some .channel
  else if p = 0xC3#8 then some .config
  else none

/-- The WCFG parameter (R87): the low nibble, where the high nibble is its complement. -/
def configOf (p : Byte) : Option (BitVec 4) :=
  if p.extractLsb' 4 4 = ~~~ p.extractLsb' 0 4 then some (p.extractLsb' 0 4) else none

/-- Bit 7 of a 1WSB or 1WT parameter; bits 6..0 are ignored (R85, R89). -/
def slotBit (p : Byte) : Bool := p.getLsbD 7

/-- `CHSEL_CODE` (43_channel_select.md R170). -/
def chselCode (n : Channel) : Byte :=
  match n with
  | 0 => 0xF0#8
  | 1 => 0xE1#8
  | 2 => 0xD2#8
  | 3 => 0xC3#8
  | 4 => 0xB4#8
  | 5 => 0xA5#8
  | 6 => 0x96#8
  | 7 => 0x87#8

/-- `CHSEL_READBACK` (43_channel_select.md R170). -/
def chselReadback (n : Channel) : Byte :=
  match n with
  | 0 => 0xB8#8
  | 1 => 0xB1#8
  | 2 => 0xAA#8
  | 3 => 0xA3#8
  | 4 => 0x9C#8
  | 5 => 0x95#8
  | 6 => 0x8E#8
  | 7 => 0x87#8

/-- The channel a CHSL parameter selects (R88, R171); none for an invalid code (R92). -/
def channelOf (c : Byte) : Option Channel :=
  [(0 : Channel), 1, 2, 3, 4, 5, 6, 7].find? (fun n => chselCode n == c)

/-! The words of spec/opcode_table.json. -/

/-- The transaction a table row's word stands for (log 9). A row of 16 bits is the command byte, sent first, in bits
15..8 and its parameter in bits 7..0. A row of at most 8 bits is one of the three CMD1 commands, or the READ row, whose
bits are the byte the DEVICE returns, so that no bit of it is sent. -/
def tableTxn (nbits w : Nat) : Txn :=
  if nbits ≤ 8 then
    match decodeWrite [BitVec.ofNat 8 w] with
    | .ok _ => .write [BitVec.ofNat 8 w]
    | .error _ => .read
  else .write [BitVec.ofNat 8 (w / 256), BitVec.ofNat 8 w]

/-- The instruction the decoder reads from a word of the table. -/
def decodeTableWord (nbits w : Nat) : Option Instr :=
  match decode (tableTxn nbits w) with
  | .ok i => some i
  | .error _ => none

end Sys2Proof
end

