-- ==== Sys2Proof/Machine/State.lean ====
section
/-! DEFINITION. The state of the whole machine as plain data: the device (10_state.md §1, §2), the host driver (§5) with its
position in a host program (44_driver_procedures.md R200), and the environment; the closed lists of faults and
refusals; and the state after reset (R41, R49). -/

namespace Sys2Proof.Machine

/-- A 1-Wire operation in flight (R35). `ch` is the channel selected when the command was accepted. -/
inductive Op where
  | reset1W (ch : Channel)
  | bit (v : Bool) (ch : Channel)
  | writeByte (b : Byte) (ch : Channel)
  | readByte (ch : Channel)
  | triplet (d : Bool) (ch : Channel)
  deriving DecidableEq, Repr

/-- The channel an operation acts on (42_onewire_commands.md R158). -/
def Op.channel (op : Op) : Channel :=
  match op with
  | .reset1W ch => ch
  | .bit _ ch => ch
  | .writeByte _ ch => ch
  | .readByte ch => ch
  | .triplet _ ch => ch

/-- The closed list of fault reasons (60_exceptions.md R262), with what each records. A transaction whose effect on the
chip no source gives sets the fault mark to one of these; from then on `step` and `exec` answer it (R263). Each is SAFE:
the machine stops where the chip would go on. -/
inductive Fault where
  /-- raised by a write whose first byte is no command code (R91); safe. -/
  | badCommand (cmd : Byte)
  /-- raised by a write whose length is not its command's (R86); safe. -/
  | badLength (cmd : Byte) (n : Nat)
  /-- raised by SRP with a reserved pointer code (R90); safe. -/
  | badPointer (p : Byte)
  /-- raised by WCFG with a parameter that fails the complement check (R87, R124); safe. -/
  | badConfig (p : Byte)
  /-- raised by CHSL with a code outside `CHSEL_CODE` (R92); safe. -/
  | badChannelCode (c : Byte)
  /-- raised by WCFG, CHSL and the 1-Wire commands while an operation is pending (R291); safe. -/
  | busyViolation (cmd : Byte) (op : Op)
  /-- raised by the same commands while a channel switch is settling (R293); safe. -/
  | settleViolation (cmd : Byte)
  deriving DecidableEq, Repr

/-- Why a step gives no meaning. Every instruction has its meaning, so nothing answers this. -/
inductive Refusal where
  /-- raised by an arm of `exec` whose instruction has no meaning yet; safe. -/
  | notModelled (mnemonic : String)
  deriving DecidableEq, Repr

/-- The device (10_state.md §1, §2). 1WB is not stored: it is `pending ≠ none` (R22). -/
structure Device where
  pending : Option Op
  ppd : Bool
  sd : Bool
  ll : Bool
  rst : Bool
  sbr : Bool
  tsb : Bool
  dir : Bool
  /-- APU, PPM, SPU, 1WS in bits 0 to 3 (R30). -/
  cfg : BitVec 4
  channel : Channel
  readPtr : ReadReg
  /-- none is the spec's `unset` (R32). -/
  readData : Option Byte
  settling : Bool
  /-- the fault mark (R37). -/
  fault : Option Fault
  deriving DecidableEq, Repr

/-- The host's operation state (R43). -/
inductive OpState where
  | idle
  | convertingTemperature
  | error
  deriving DecidableEq, Repr

/-- What an I2C transaction returns (40_i2c_transport.md R100, R103). -/
inductive Reply where
  /-- no transaction has ended yet. -/
  | none
  | ack
  | fail
  | data (b : Byte)
  deriving DecidableEq, Repr

/-- What a host operation or procedure returns (00_scope.md R13). -/
inductive Ret where
  /-- a success or failure signal. -/
  | bool (b : Bool)
  /-- (ok, value), where value is the source's return value, sentinel included. -/
  | pair (ok : Bool) (value : Byte)
  /-- the bytes of a scratchpad read to its end. -/
  | bytes (bs : List Byte)
  /-- getCurrentChannel's answer. -/
  | channel (c : Byte)
  /-- getState's answer. -/
  | opState (o : OpState)
  deriving DecidableEq, Repr

/-- The host driver's procedures (44_driver_procedures.md, 45_sensor_procedures.md). -/
inductive Proc where
  | writeCommand (cmd : Byte)
  | setReadPointer (p : Byte)
  | readStatus
  | busyWait
  | wireReset
  | wireWriteBit (bit : Byte)
  | wireReadBit
  | wireWriteByte (b : Byte)
  | wireReadByte
  | selectChannel (n : Byte)
  | getCurrentChannel
  | isBusy
  | getState
  | clearState
  | reset
  | begin
  | wakeUp
  | startTemperatureConversion (ch : Byte)
  | checkConversionStatus
  /-- the body of readScratchpad with its buffer a local of the caller (R47, R243). -/
  | scratchpadBytes
  | readScratchpad
  | readTemperature (ch : Byte)
  deriving DecidableEq, Repr

/-- A position inside a procedure at which it waits for the answer of what it called (R200, R266). -/
inductive Kont where
  | statusPointer
  | statusRead
  | pollStatus
  | pollDelay
  | wireResetReady
  | wireResetSent
  | wireResetDone
  | writeBitReady (bit : Byte)
  | writeBitSent
  | readBitReady
  | readBitSent
  | readBitDone
  | writeByteReady (b : Byte)
  | writeByteSent
  | readByteReady
  | readByteSent
  | readByteDone
  | readBytePointer
  | readByteFetched
  | selectSent (n : Channel)
  | selectSettled (n : Channel)
  | selectPointer (n : Channel)
  | selectRead (n : Channel)
  | isBusyStatus
  | resetSent
  | resetProbe
  | resetStatus
  | startSelected
  | startReset
  | startSkipRom
  | startConvert
  | scratchReset
  | scratchSkipRom
  | scratchCommand
  /-- the bytes read so far, oldest first. -/
  | scratchByte (got : List Byte)
  | scratchOut
  | temperatureSelected
  | temperatureScratch
  deriving DecidableEq, Repr

/-- What the host does next: a transaction, a delay step, or local computation (R200). A power cycle is no act of the
host: the outside places it among the host's steps (70_reset_and_hazards.md R280, log 19). -/
inductive HostOp where
  | txn (t : Txn)
  | delay (d : Delay)
  | call (p : Proc)
  | powerCycle
  deriving DecidableEq, Repr

/-- One entry of a host program and how far it has come: what it does next and the positions that wait for the answer,
innermost first. The head task's `op` and `konts` are the host's program counter (R266). -/
structure Task where
  op : HostOp
  konts : List Kont
  deriving DecidableEq, Repr

/-- The host driver (10_state.md §5), what it was last answered, and what it runs. -/
structure HostState where
  addr : BitVec 7
  opState : OpState
  curChannel : Byte
  convStart : BitVec 32
  /-- the last reading of the monotonic clock, in milliseconds, before the wrap to 32 bits (R46, log 13). -/
  clock : Nat
  reply : Reply
  result : Option Ret
  /-- the caller's buffer of readScratchpad (R243). -/
  scratchOut : List Byte
  /-- the caller's variable of readTemperature, a binary32 pattern (R244, R246). -/
  tempOut : BitVec 32
  prog : List Task
  deriving DecidableEq, Repr

/-- The agents with steps of their own (00_scope.md R15): the host's step takes the device's command interface with it. -/
inductive Agent where
  | host
  | engine
  deriving DecidableEq, Repr

/-- The environment: the two parameters of the transport (R99), and the model's own bookkeeping of what is left open. -/
structure Env where
  devicePresent : Bool
  busErrors : Bool
  /-- who moves next where host and engine both could; a free choice where the list is empty (log 3). -/
  sched : List Agent
  /-- free inputs placed in advance, used before any free value (log 2). -/
  script : List Nat
  /-- how many draws took a free value (log 2). -/
  drawCount : Nat
  /-- what happened on the buses, newest first (R38, log 17). -/
  history : List Event
  deriving DecidableEq, Repr

/-- The whole machine. -/
structure State where
  dev : Device
  host : HostState
  env : Env
  deriving DecidableEq, Repr

/-- A register of the read space from a number (a draw over the four values). -/
def regOfNat (n : Nat) : ReadReg :=
  match n % 4 with
  | 0 => .status
  | 1 => .readData
  | 2 => .channel
  | _ => .config

/-- The machine at the start of a run (70_reset_and_hazards.md R282): the device as R41 has it after a power-on reset
with no fault mark, the host as constructed (R49), nothing to run (log 8), a present device and no bus errors
(log 7). Where R41, R44, R45 and R46 say draw, the field is a free value (logs 5, 6, 13). -/
def State.reset : State where
  dev :=
    { pending := none
      ppd := false
      sd := false
      ll := Config.freeValue 0 [] % 2 == 1
      rst := true
      sbr := false
      tsb := false
      dir := false
      cfg := 0#4
      channel := 0
      readPtr := regOfNat (Config.freeValue 1 [])
      readData := none
      settling := false
      fault := none }
  host :=
    { addr := Config.addr
      opState := .idle
      curChannel := BitVec.ofNat 8 (Config.freeValue 2 [])
      convStart := BitVec.ofNat 32 (Config.freeValue 3 [])
      clock := Config.freeValue 4 []
      reply := .none
      result := none
      scratchOut := [0#8, 0#8, 0#8, 0#8, 0#8, 0#8, 0#8, 0#8, 0#8]
      tempOut := 0#32
      prog := [] }
  env :=
    { devicePresent := true
      busErrors := false
      sched := []
      script := []
      drawCount := 5
      history := [] }

end Sys2Proof.Machine
end

