-- ==== Sys2Proof/Machine/Ops.lean ====
section
/-! DEFINITION. The named operations every meaning is made of: draws, the bus oracle, raising a fault, the host's ERROR state,
the device reset, and the two kinds of I2C transaction (40_i2c_transport.md). -/

namespace Sys2Proof.Machine

abbrev StepResult := Host.Outcome State Fault Refusal

/-- Goes on with a next state; a fault or a refusal stays. -/
def andThen (o : StepResult) (f : State → State) : StepResult :=
  match o with
  | .next t => .next (f t)
  | .fault r => .fault r
  | .refused r => .refused r

/-! ## Draws (00_scope.md R11, log 2) -/

/-- A draw: the next input placed in advance, or a fresh free value. -/
def State.draw (s : State) : Nat × State :=
  match s.env.script with
  | v :: vs => (v, { s with env.script := vs })
  | [] => (Config.freeValue s.env.drawCount s.env.history, { s with env.drawCount := s.env.drawCount + 1 })

/-- `draw v ∈ {0, 1}`. -/
def State.drawBool (s : State) : Bool × State := (s.draw.1 % 2 == 1, s.draw.2)

/-- `draw b ∈ 0x00..0xFF`. -/
def State.drawByte (s : State) : Byte × State := (BitVec.ofNat 8 s.draw.1, s.draw.2)

/-- `draw p ∈ {STATUS, READDATA, CHANNEL, CONFIG}; dev.readPtr <- p` (R101). -/
def State.drawReadPtr (s : State) : State :=
  { s.draw.2 with dev.readPtr := regOfNat s.draw.1 }

/-! ## The 1-Wire bus oracle (10_state.md R38) -/

/-- Adds an entry to the history. -/
def State.record (s : State) (e : Event) : State :=
  { s with env.history := e :: s.env.history }

/-- `Bus.reset(ch)`: presence, then short. -/
def State.busReset (s : State) (ch : Channel) : (Bool × Bool) × State :=
  let p := s.drawBool
  let q := p.2.drawBool
  ((p.1, q.1), q.2.record (.busReset ch p.1 q.1))

/-- `Bus.slot(ch, v)`: the sample of a 0 slot is 0, that of a 1 slot is the slave's bit. -/
def State.busSlot (s : State) (ch : Channel) (v : Bool) : Bool × State :=
  if v then
    let p := s.drawBool
    (p.1, p.2.record (.busSlot ch true p.1))
  else (false, s.record (.busSlot ch false false))

/-- `Bus.level(ch)`. -/
def State.busLevel (s : State) (ch : Channel) : Bool × State :=
  let p := s.drawBool
  (p.1, p.2.record (.busLevel ch p.1))

/-! ## Faults and the host's ERROR state -/

/-- Raising a fault: the mark is set and nothing else changes (60_exceptions.md R262). There is no return from it:
nothing clears the mark (R263). -/
def State.raise (s : State) (r : Fault) : State := { s with dev.fault := some r }

/-- Entering the host's ERROR state saves nothing and changes only `host.opState` (R266). -/
def State.enterError (s : State) : State := { s with host.opState := .error }

/-- Leaving ERROR, and ending a conversion: `host.opState <- IDLE` (R216, R221, R242). -/
def State.enterIdle (s : State) : State := { s with host.opState := .idle }

/-! ## Device reset -/

/-- The body of DRST (41_register_commands.md R120), which a power-on reset shares (70_reset_and_hazards.md R280). The
read pointer is drawn after it, the fault mark stays. -/
def State.deviceReset (s : State) : State :=
  let l := s.drawBool
  { l.2 with
    dev :=
      { l.2.dev with
        pending := none
        ppd := false
        sd := false
        sbr := false
        tsb := false
        dir := false
        rst := true
        cfg := 0#4
        channel := 0
        settling := false
        readData := none
        ll := l.1 } }

/-! ## What every command passes (40_i2c_transport.md R101) -/

/-- A command whose code and length are right: the busy and the settle check where the command is `gated`, its own
effect, and the draw of the read pointer where the command is not SRP. A raised fault changes nothing but the mark. -/
def State.command (s : State) (cmd : Byte) (gated redraw : Bool) (effect : State → Except Fault State) : State :=
  match gated, s.dev.pending, s.dev.settling with
  | true, some op, _ => s.raise (.busyViolation cmd op)
  | true, none, true => s.raise (.settleViolation cmd)
  | _, _, _ =>
    match effect s with
    | .error r => s.raise r
    | .ok t => if redraw then t.drawReadPtr else t

/-! ## I2C transactions -/

/-- The host starts a transaction: it addresses `host.addr` (R42, R106). -/
def State.issue (s : State) (t : Txn) : State :=
  s.record (.i2c (addressByte s.host.addr t) t)

/-- The transaction's outcome reaches the host, unless the device interface raised a fault in it (log 11). -/
def State.answer (s : State) (r : Reply) : State :=
  match s.dev.fault with
  | none => { s with host.reply := r }
  | some _ => s

/-- `I2CWrite(bytes)` (R100), where `execute` is `DeviceExecute(bytes)`. -/
def State.i2cWrite (s : State) (bytes : List Byte) (execute : State → State) : State :=
  let s0 := s.issue (.write bytes)
  if s0.env.devicePresent then
    if s0.env.busErrors then
      let fail := s0.drawBool
      if fail.1 then
        let applied := fail.2.drawBool
        if applied.1 then (execute applied.2).answer .fail else applied.2.answer .fail
      else (execute fail.2).answer .ack
    else (execute s0).answer .ack
  else s0.answer .fail

/-- What a failed read leaves of the device (R103): LL becomes a draw where the pointer is STATUS, nothing else changes;
a read of another register writes no field (20_memory.md R69, log 18). -/
def State.failedRead (s : State) : State :=
  if s.dev.readPtr = .status then
    let l := s.drawBool
    { l.2 with dev.ll := l.1 }
  else s

/-- `I2CRead()` (R103), where `memRead` is the register read decode. -/
def State.i2cRead (s : State) (memRead : State → Byte × State) : State :=
  let s0 := s.issue .read
  if s0.env.devicePresent then
    if s0.env.busErrors then
      let fail := s0.drawBool
      if fail.1 then fail.2.failedRead.answer .fail
      else
        let r := memRead fail.2
        r.2.answer (.data r.1)
    else
      let r := memRead s0
      r.2.answer (.data r.1)
  else s0.answer .fail

/-- A step of the device command interface: none is taken once a fault is marked (R263; 95_test_vectors.md DR4). -/
def unlessFaulted (s : State) (body : State → State) : StepResult :=
  match s.dev.fault with
  | some r => .fault r
  | none => .next (body s)

/-- A write transaction of a command, as one step. -/
def execCommand (s : State) (bytes : List Byte) (cmd : Byte) (gated redraw : Bool)
    (effect : State → Except Fault State) : StepResult :=
  unlessFaulted s fun s => s.i2cWrite bytes fun d => d.command cmd gated redraw effect

/-- What the device does with a write the decoder rejects (30_encoding.md R86, R91): an empty write has no effect, the
others raise their fault before any other check (60_exceptions.md R264). -/
def State.reject (s : State) (why : Reject) : State :=
  match why with
  | .emptyWrite => s
  | .badCommand cmd => s.raise (.badCommand cmd)
  | .badLength cmd n => s.raise (.badLength cmd n)

/-- The write transaction of bytes the decoder rejects. -/
def execReject (s : State) (bytes : List Byte) (why : Reject) : StepResult :=
  unlessFaulted s fun s => s.i2cWrite bytes fun d => d.reject why

end Sys2Proof.Machine
end

