-- ==== Sys2Proof/Machine/ChannelSelect.lean ====
section
/-! DEFINITION. The channel multiplexer: CHSL and the settle step (43_channel_select.md). -/

namespace Sys2Proof.Machine

/-- The effect of CHSL (R171): the channel of the code is selected and starts to settle, also where it was selected. -/
def chslEffect (c : Byte) (d : State) : Except Fault State :=
  match channelOf c with
  | some n => .ok { d with dev := { d.dev with channel := n, settling := true } }
  | none => .error (.badChannelCode c)

/-- CHSL (R171). -/
def execChsl (c : Byte) (s : State) : StepResult :=
  execCommand s [0xC3#8, c] 0xC3#8 true true (chslEffect c)

/-- The settle step (R175). -/
def State.settle (s : State) : State := { s with dev.settling := false }

end Sys2Proof.Machine
end

