-- ==== Sys2Proof/Machine/Flags.lean ====
section
/-! DEFINITION. The status register: 1WB, the status byte (10_state.md R39), its bits while an operation is pending (R40), and
what the operations write into the status bits. -/

namespace Sys2Proof.Machine

/-- 1WB (R22). -/
def Device.busy (d : Device) : Bool := d.pending.isSome

/-- A bit as a byte, in bit 0. -/
def bitByte (b : Bool) : Byte := if b then 1#8 else 0#8

/-- The status byte (R39), from bit 7 down: DIR, TSB, SBR, RST, LL, SD, PPD, 1WB. -/
def Device.statusByte (d : Device) : Byte :=
  (bitByte d.dir <<< 7) ||| (bitByte d.tsb <<< 6) ||| (bitByte d.sbr <<< 5) ||| (bitByte d.rst <<< 4)
    ||| (bitByte d.ll <<< 3) ||| (bitByte d.sd <<< 2) ||| (bitByte d.ppd <<< 1) ||| bitByte d.busy

/-- `dev.ppd`, `dev.sd` at the completion of a 1WRS (R23, R24, R140). -/
def State.setPresence (s : State) (presence short : Bool) : State :=
  { s with dev := { s.dev with ppd := presence, sd := short } }

/-- `dev.sbr` at the completion of a 1WSB (R27, R143). -/
def State.setSingleBit (s : State) (sample : Bool) : State := { s with dev.sbr := sample }

/-- `dev.sbr`, `dev.tsb`, `dev.dir` at the completion of a 1WT (R27 to R29, R153). -/
def State.setTriplet (s : State) (id cmp dir : Bool) : State :=
  { s with dev := { s.dev with sbr := id, tsb := cmp, dir := dir } }

/-- `dev.ll` (R25). -/
def State.setLevel (s : State) (l : Bool) : State := { s with dev.ll := l }

/-- The device as a status read shows it (R40): the bits the pending operation will write are draws, every other bit
has its stored value. The stored bits do not change. -/
def State.shownStatus (s : State) : Byte × State :=
  match s.dev.pending with
  | some (.reset1W _) =>
    let p := s.drawBool
    let q := p.2.drawBool
    ({ s.dev with ppd := p.1, sd := q.1 }.statusByte, q.2)
  | some (.bit _ _) =>
    let p := s.drawBool
    ({ s.dev with sbr := p.1 }.statusByte, p.2)
  | some (.triplet _ _) =>
    let p := s.drawBool
    let q := p.2.drawBool
    let r := q.2.drawBool
    ({ s.dev with sbr := p.1, tsb := q.1, dir := r.1 }.statusByte, r.2)
  | some (.writeByte _ _) => (s.dev.statusByte, s)
  | some (.readByte _) => (s.dev.statusByte, s)
  | none => (s.dev.statusByte, s)

end Sys2Proof.Machine
end

