-- ==== Sys2Proof/Machine/OneWire.lean ====
section
/-! DEFINITION. The 1-Wire bus controller (42_onewire_commands.md): acceptance of 1WRS, 1WSB, 1WWB, 1WRB and 1WT, and the
completion step of each. -/

namespace Sys2Proof.Machine

/-- Acceptance of a 1-Wire command: the operation is in flight, so 1WB is 1 (10_state.md R22, R35). -/
def accept (op : Channel → Op) (d : State) : Except Fault State :=
  .ok { d with dev.pending := some (op d.dev.channel) }

/-- 1WRS (R140). -/
def execW1rs (s : State) : StepResult :=
  execCommand s [0xB4#8] 0xB4#8 true true (accept .reset1W)

/-- 1WSB (R143): the slot's value is bit 7 of the parameter. -/
def execW1sb (p : Byte) (s : State) : StepResult :=
  execCommand s [0x87#8, p] 0x87#8 true true (accept (.bit (slotBit p)))

/-- 1WWB (R146). -/
def execW1wb (b : Byte) (s : State) : StepResult :=
  execCommand s [0xA5#8, b] 0xA5#8 true true (accept (.writeByte b))

/-- 1WRB (R149). -/
def execW1rb (s : State) : StepResult :=
  execCommand s [0x96#8] 0x96#8 true true (accept .readByte)

/-- 1WT (R153): the direction is bit 7 of the parameter. -/
def execW1t (p : Byte) (s : State) : StepResult :=
  execCommand s [0x78#8, p] 0x78#8 true true (accept (.triplet (slotBit p)))

/-! ## Completion (R156) -/

/-- The bit numbers of a byte in the order its bits travel on the 1-Wire bus: bit 0 first (20_memory.md R63). -/
def lsbFirst : List Nat := [0, 1, 2, 3, 4, 5, 6, 7]

/-- Slots that send the bits of b, their samples discarded (R146). -/
def sendBits (ch : Channel) (b : Byte) (order : List Nat) (s : State) : State :=
  match order with
  | [] => s
  | i :: rest => sendBits ch b rest (s.busSlot ch (b.getLsbD i)).2

/-- Read slots whose samples become the bits of r (R149). -/
def receiveBits (ch : Channel) (order : List Nat) (r : Byte) (s : State) : Byte × State :=
  match order with
  | [] => (r, s)
  | i :: rest =>
    let a := s.busSlot ch true
    receiveBits ch rest (r ||| (bitByte a.1 <<< i)) a.2

/-- `complete Reset1W(ch)` (R140). -/
def State.completeReset (s : State) (ch : Channel) : State :=
  let a := s.busReset ch
  a.2.setPresence a.1.1 a.1.2

/-- `complete Bit(v, ch)` (R143). -/
def State.completeBit (s : State) (v : Bool) (ch : Channel) : State :=
  let a := s.busSlot ch v
  a.2.setSingleBit a.1

/-- `complete WriteByte(b, ch)` (R146). -/
def State.completeWriteByte (s : State) (b : Byte) (ch : Channel) : State :=
  sendBits ch b lsbFirst s

/-- `complete ReadByte(ch)` (R149). -/
def State.completeReadByte (s : State) (ch : Channel) : State :=
  let a := receiveBits ch lsbFirst 0#8 s
  { a.2 with dev.readData := some a.1 }

/-- The direction a triplet takes (R153): the one candidate bit, d where both are 0, 1 where no slave answered. -/
def tripletDirection (id cmp d : Bool) : Bool :=
  if id ≠ cmp then id else if id = false then d else true

/-- `complete Triplet(d, ch)` (R153). -/
def State.completeTriplet (s : State) (d : Bool) (ch : Channel) : State :=
  let id := s.busSlot ch true
  let cmp := id.2.busSlot ch true
  let dir := tripletDirection id.1 cmp.1 d
  ((cmp.2.busSlot ch dir).2).setTriplet id.1 cmp.1 dir

/-- The "complete" block of an operation. -/
def State.runOp (s : State) (op : Op) : State :=
  match op with
  | .reset1W ch => s.completeReset ch
  | .bit v ch => s.completeBit v ch
  | .writeByte b ch => s.completeWriteByte b ch
  | .readByte ch => s.completeReadByte ch
  | .triplet d ch => s.completeTriplet d ch

/-- SPU, bit 2 of the configuration, becomes a draw where it was 1 (R157). -/
def State.drawSpu (s : State) : State :=
  if s.dev.cfg.getLsbD 2 then
    let k := s.drawBool
    { k.2 with dev.cfg := if k.1 then s.dev.cfg else s.dev.cfg &&& 0b1011#4 }
  else s

/-- The completion step (R156) of an operation. -/
def State.complete (s : State) (op : Op) : State :=
  { s.runOp op with dev.pending := none }.drawSpu

end Sys2Proof.Machine
end

