-- ==== Sys2Proof/Machine/Operands.lean ====
section
/-! DEFINITION. The one addressing mode: the register behind the read pointer (41_register_commands.md R126). -/

namespace Sys2Proof.Machine

/-- A read of STATUS samples the line level of the selected channel first (10_state.md R25). -/
def State.readStatus (s : State) : Byte × State :=
  let l := s.busLevel s.dev.channel
  (l.2.setLevel l.1).shownStatus

/-- A read of READDATA: a draw while it is unset or a ReadByte is pending (42_onewire_commands.md R152). -/
def State.readReadData (s : State) : Byte × State :=
  match s.dev.readData, s.dev.pending with
  | none, _ => s.drawByte
  | some _, some (.readByte _) => s.drawByte
  | some b, _ => (b, s)

/-- A read of CHANNEL: a draw while a switch settles (43_channel_select.md R174). -/
def State.readChannel (s : State) : Byte × State :=
  if s.dev.settling then s.drawByte else (chselReadback s.dev.channel, s)

/-- A read of CONFIG: the stored nibble, the upper nibble 0 (10_state.md R31). -/
def State.readConfig (s : State) : Byte × State := (s.dev.cfg.setWidth 8, s)

/-- `MemRead(dev.readPtr, 1)` (R126). -/
def State.memRead (s : State) : Byte × State :=
  match s.dev.readPtr with
  | .status => s.readStatus
  | .readData => s.readReadData
  | .channel => s.readChannel
  | .config => s.readConfig

end Sys2Proof.Machine
end

