-- ==== Sys2Proof/Machine/Register.lean ====
section
/-! DEFINITION. The register protocol: DRST, SRP, WCFG and the register read (41_register_commands.md). -/

namespace Sys2Proof.Machine

/-- DRST (R120): accepted while busy and while settling. -/
def execDrst (s : State) : StepResult :=
  execCommand s [0xF0#8] 0xF0#8 false true fun d => .ok d.deviceReset

/-- The effect of SRP (R121). -/
def srpEffect (p : Byte) (d : State) : Except Fault State :=
  match pointerOf p with
  | some r => .ok { d with dev.readPtr := r }
  | none => .error (.badPointer p)

/-- SRP (R121, R122): accepted while busy and while settling, and the one command that does not draw the pointer. -/
def execSrp (p : Byte) (s : State) : StepResult :=
  execCommand s [0xE1#8, p] 0xE1#8 false false (srpEffect p)

/-- The effect of WCFG (R124): a valid parameter is stored and clears RST. -/
def wcfgEffect (p : Byte) (d : State) : Except Fault State :=
  match configOf p with
  | some c => .ok { d with dev := { d.dev with cfg := c, rst := false } }
  | none => .error (.badConfig p)

/-- WCFG (R124). -/
def execWcfg (p : Byte) (s : State) : StepResult :=
  execCommand s [0xD2#8, p] 0xD2#8 true true (wcfgEffect p)

/-- RD (R126; 40_i2c_transport.md R103): legal in every device state. -/
def execRd (s : State) : StepResult :=
  unlessFaulted s fun s => s.i2cRead State.memRead

end Sys2Proof.Machine
end

