-- ==== Sys2Proof/Machine/Dispatch.lean ====
section
/-! DEFINITION. One arm per instruction. -/

namespace Sys2Proof.Machine

def exec (i : Instr) (s : State) : Host.Outcome State Fault Refusal :=
  match i with
  | .drst => Sys2Proof.Machine.execDrst s
  | .srp p => Sys2Proof.Machine.execSrp p s
  | .wcfg p => Sys2Proof.Machine.execWcfg p s
  | .chsl c => Sys2Proof.Machine.execChsl c s
  | .w1rs => Sys2Proof.Machine.execW1rs s
  | .w1wb b => Sys2Proof.Machine.execW1wb b s
  | .w1rb => Sys2Proof.Machine.execW1rb s
  | .w1sb p => Sys2Proof.Machine.execW1sb p s
  | .w1t p => Sys2Proof.Machine.execW1t p s
  | .rd => Sys2Proof.Machine.execRd s

end Sys2Proof.Machine
end

