-- ==== Sys2Proof/Machine/Engine.lean ====
section
/-! DEFINITION. The 1-Wire engine as an agent: when it can step, and what its step is (00_scope.md R15). -/

namespace Sys2Proof.Machine

/-- The completion step is enabled exactly while an operation is pending (42_onewire_commands.md R156), the settle step
exactly while a switch is settling (43_channel_select.md R175). -/
def engineEnabled (s : State) : Bool := s.dev.pending.isSome || s.dev.settling

/-- The engine's step. The two are never enabled together in a state a run reaches (60_exceptions.md R265, log 20). -/
def engineStep (s : State) : State :=
  match s.dev.pending with
  | some op => s.complete op
  | none => s.settle

end Sys2Proof.Machine
end

