-- ==== Sys2Proof/Machine/Temperature.lean ====
section
/-! DEFINITION. The scratchpad decode (45_sensor_procedures.md R245, R246). -/

namespace Sys2Proof.Machine

/-- `raw` (R245): byte 1 above byte 0, two's complement; one unit is 1/16 °C. -/
def rawTemperature (b0 b1 : Byte) : Int := (b1 ++ b0).toInt

/-- The binary32 pattern of n/16 for |n| ≤ 32768 (R246). The leading bit of |n| has weight 2^(e-4) °C, so the biased
exponent is e - 4 + 127, and the bits below it are the top of the fraction: nothing is rounded. Zero is +0.0. -/
def binary32OfSixteenths (n : Int) : BitVec 32 :=
  if n = 0 then 0#32
  else
    let m := n.natAbs
    let e := Nat.log2 m
    BitVec.ofNat 32 ((if n < 0 then 2 ^ 31 else 0) + (e + 123) * 2 ^ 23 + (m - 2 ^ e) * 2 ^ (23 - e))

/-- `decodeTemperature(b0, b1)` (R245): raw / 16 as a binary32. -/
def decodeTemperature (b0 b1 : Byte) : BitVec 32 := binary32OfSixteenths (rawTemperature b0 b1)

end Sys2Proof.Machine
end

