-- ==== Sys2Proof/Machine/HostProc.lean ====
section
/-! DEFINITION. The host driver's procedures as host programs over the device's interface (44_driver_procedures.md,
45_sensor_procedures.md). A procedure is cut at its host steps (R200): `enter` says what it does first, `resume` what it does at each
position once the answer it waits for has come. The local computation between two host steps goes with the earlier one. -/

namespace Sys2Proof.Machine

/-- What a procedure does at a position: it goes on with a host operation, whose answer the positions named wait
for, or it returns. -/
inductive Next where
  | run (op : HostOp) (konts : List Kont)
  | ret (v : Ret)
  deriving DecidableEq, Repr

/-- The success signal in an answer. -/
def Ret.ok (v : Ret) : Bool :=
  match v with
  | .bool b => b
  | .pair ok _ => ok
  | .bytes _ => true
  | .channel _ => true
  | .opState _ => true

/-- The byte in an answer. Only positions that wait for a pair ask for it. -/
def Ret.value (v : Ret) : Byte :=
  match v with
  | .pair _ b => b
  | .channel c => c
  | .bool b => if b then 1#8 else 0#8
  | .bytes _ => 0#8
  | .opState _ => 0#8

/-- What the host's transport returns (40_i2c_transport.md R106): writeBytes a Bool, readByte (ok, byte) with 0xFF on Fail. -/
def replyRet (t : Txn) (r : Reply) : Ret :=
  match t, r with
  | .write _, .ack => .bool true
  | .write _, _ => .bool false
  | .read, .data b => .pair true b
  | .read, _ => .pair false 0xFF#8

/-! Parameters of the driver (00_scope.md R9). -/

/-- `POST_RESET_MASK`. -/
def postResetMask : Byte := 0xF7#8

/-- `POST_RESET_VALUE`. -/
def postResetValue : Byte := 0x10#8

/-- `CONVERSION_MS`. -/
def conversionMs : Nat := 750

/-- The 1WSB parameter the host sends for a bit (R205). -/
def bitPayload (bit : Byte) : Byte := if bit ≠ 0#8 then 0x80#8 else 0x00#8

/-- `now()` (10_state.md R46): the clock moves on by a free amount; the reading is its low 32 bits (log 13). -/
def State.now (s : State) : BitVec 32 × State :=
  let c := s.host.clock + s.draw.1
  (BitVec.ofNat 32 c, { s.draw.2 with host.clock := c }.record (.clock c))

/-- The failure of a procedure: ERROR, then the return (R224 a). -/
def failWith (s : State) (v : Ret) : State × Next := (s.enterError, .ret v)

/-- Goes on where the answer is a success, else sets ERROR and returns v. -/
def orFail (s : State) (ok : Bool) (v : Ret) (next : State × Next) : State × Next :=
  if ok then next else failWith s v

/-- A channel number from a byte in 0..7. -/
def channelOfByte (n : Byte) : Option Channel :=
  if h : n.toNat < 8 then some ⟨n.toNat, h⟩ else none

/-- The write transactions of the procedures. -/
def writeCommandOp (cmd : Byte) : HostOp := .txn (.write [cmd])
def setReadPointerOp (p : Byte) : HostOp := .txn (.write [0xE1#8, p])

/-- The reset/wake sequence's first step (R221): DRST. -/
def startReset (s : State) : State × Next := (s, .run (writeCommandOp 0xF0#8) [.resetSent])

/-- A procedure's first step. -/
def enter (p : Proc) (s : State) : State × Next :=
  match p with
  | .writeCommand cmd => (s, .run (writeCommandOp cmd) [])
  | .setReadPointer p => (s, .run (setReadPointerOp p) [])
  | .readStatus => (s, .run (setReadPointerOp 0xF0#8) [.statusPointer])
  | .busyWait => (s, .run (.call .readStatus) [.pollStatus])
  | .wireReset => (s, .run (.call .busyWait) [.wireResetReady])
  | .wireWriteBit bit => (s, .run (.call .busyWait) [.writeBitReady bit])
  | .wireReadBit => (s, .run (.call .busyWait) [.readBitReady])
  | .wireWriteByte b => (s, .run (.call .busyWait) [.writeByteReady b])
  | .wireReadByte => (s, .run (.call .busyWait) [.readByteReady])
  | .selectChannel n =>
    match channelOfByte n with
    | none => (s, .ret (.bool false))
    | some c => (s, .run (.txn (.write [0xC3#8, chselCode c])) [.selectSent c])
  | .getCurrentChannel => (s, .ret (.channel s.host.curChannel))
  | .isBusy => (s, .run (.call .readStatus) [.isBusyStatus])
  | .getState => (s, .ret (.opState s.host.opState))
  | .clearState => (s.enterIdle, .ret (.bool true))
  | .reset => startReset s
  | .begin => startReset s
  | .wakeUp => startReset s
  | .startTemperatureConversion ch =>
    if s.host.opState = .error then (s, .ret (.bool false))
    else (s, .run (.call (.selectChannel ch)) [.startSelected])
  | .checkConversionStatus =>
    if s.host.opState = .convertingTemperature then
      let t := s.now
      if (t.1 - s.host.convStart).toNat ≥ conversionMs then (t.2.enterIdle, .ret (.bool true))
      else (t.2, .ret (.bool false))
    else (s, .ret (.bool false))
  | .scratchpadBytes => (s, .run (.call .wireReset) [.scratchReset])
  | .readScratchpad => (s, .run (.call .scratchpadBytes) [.scratchOut])
  | .readTemperature ch => (s, .run (.call (.selectChannel ch)) [.temperatureSelected])

/-- A byte of a scratchpad read on the way, or the end of it after nine (R243). -/
def nextScratchByte (got : List Byte) (s : State) : State × Next :=
  if got.length < 9 then (s, .run (.call .wireReadByte) [.scratchByte got]) else (s, .ret (.bytes got))

/-- What a procedure does at a position when v is the answer. -/
def resume (k : Kont) (v : Ret) (s : State) : State × Next :=
  match k with
  -- readStatus (R202)
  | .statusPointer => if v.ok then (s, .run (.txn .read) [.statusRead]) else (s, .ret (.pair false 0xFF#8))
  | .statusRead => if v.ok then (s, .ret (.pair true v.value)) else (s, .ret (.pair false 0xFF#8))
  -- busyWait (R203)
  | .pollStatus =>
    if v.value.getLsbD 0 = false then (s, .ret (.pair true v.value))
    else
      let timeout := s.drawBool
      if timeout.1 then (timeout.2, .ret (.pair false v.value))
      else (timeout.2, .run (.delay .poll) [.pollDelay])
  | .pollDelay => (s, .run (.call .readStatus) [.pollStatus])
  -- wireReset (R204)
  | .wireResetReady => orFail s v.ok (.bool false) (s, .run (writeCommandOp 0xB4#8) [.wireResetSent])
  | .wireResetSent => orFail s v.ok (.bool false) (s, .run (.call .busyWait) [.wireResetDone])
  | .wireResetDone => orFail s (v.ok && v.value.getLsbD 1) (.bool false) (s, .ret (.bool true))
  -- wireWriteBit (R205)
  | .writeBitReady bit =>
    orFail s v.ok (.bool false) (s, .run (.txn (.write [0x87#8, bitPayload bit])) [.writeBitSent])
  | .writeBitSent => orFail s v.ok (.bool false) (s, .ret (.bool true))
  -- wireReadBit (R206)
  | .readBitReady => orFail s v.ok (.pair false 0#8) (s, .run (.txn (.write [0x87#8, 0x80#8])) [.readBitSent])
  | .readBitSent => orFail s v.ok (.pair false 0#8) (s, .run (.call .busyWait) [.readBitDone])
  | .readBitDone =>
    orFail s v.ok (.pair false 0#8) (s, .ret (.pair true (if v.value.getLsbD 5 then 1#8 else 0#8)))
  -- wireWriteByte (R207)
  | .writeByteReady b => orFail s v.ok (.bool false) (s, .run (.txn (.write [0xA5#8, b])) [.writeByteSent])
  | .writeByteSent => orFail s v.ok (.bool false) (s, .ret (.bool true))
  -- wireReadByte (R208)
  | .readByteReady => orFail s v.ok (.pair false 0xFF#8) (s, .run (writeCommandOp 0x96#8) [.readByteSent])
  | .readByteSent => orFail s v.ok (.pair false 0xFF#8) (s, .run (.call .busyWait) [.readByteDone])
  | .readByteDone => orFail s v.ok (.pair false 0xFF#8) (s, .run (setReadPointerOp 0xE1#8) [.readBytePointer])
  | .readBytePointer => orFail s v.ok (.pair false 0xFF#8) (s, .run (.txn .read) [.readByteFetched])
  | .readByteFetched => orFail s v.ok (.pair false 0xFF#8) (s, .ret (.pair true v.value))
  -- selectChannel (R211)
  | .selectSent n => orFail s v.ok (.bool false) (s, .run (.delay .settle) [.selectSettled n])
  | .selectSettled n => (s, .run (setReadPointerOp 0xD2#8) [.selectPointer n])
  | .selectPointer n => orFail s v.ok (.bool false) (s, .run (.txn .read) [.selectRead n])
  | .selectRead n =>
    orFail s (v.ok && v.value == chselReadback n) (.bool false)
      ({ s with host.curChannel := BitVec.ofNat 8 n.val }, .ret (.bool true))
  -- isBusy (R214)
  | .isBusyStatus => (s, .ret (.bool (v.value.getLsbD 0)))
  -- reset, begin, wakeUp (R221, R222)
  | .resetSent => orFail s v.ok (.bool false) (s, .run (.txn .read) [.resetProbe])
  | .resetProbe => orFail s v.ok (.bool false) (s, .run (.call .readStatus) [.resetStatus])
  | .resetStatus =>
    orFail s (v.value &&& postResetMask == postResetValue) (.bool false) (s.enterIdle, .ret (.bool true))
  -- startTemperatureConversion (R241)
  | .startSelected => if v.ok then (s, .run (.call .wireReset) [.startReset]) else (s, .ret (.bool false))
  | .startReset => if v.ok then (s, .run (.call (.wireWriteByte 0xCC#8)) [.startSkipRom]) else (s, .ret (.bool false))
  | .startSkipRom => if v.ok then (s, .run (.call (.wireWriteByte 0x44#8)) [.startConvert]) else (s, .ret (.bool false))
  | .startConvert =>
    if v.ok then
      let t := s.now
      ({ t.2 with host := { t.2.host with convStart := t.1, opState := .convertingTemperature } }, .ret (.bool true))
    else (s, .ret (.bool false))
  -- readScratchpad (R243)
  | .scratchReset => if v.ok then (s, .run (.call (.wireWriteByte 0xCC#8)) [.scratchSkipRom]) else (s, .ret (.bool false))
  | .scratchSkipRom => if v.ok then (s, .run (.call (.wireWriteByte 0xBE#8)) [.scratchCommand]) else (s, .ret (.bool false))
  | .scratchCommand => if v.ok then nextScratchByte [] s else (s, .ret (.bool false))
  | .scratchByte got => if v.ok then nextScratchByte (got ++ [v.value]) s else (s, .ret (.bool false))
  | .scratchOut =>
    match v with
    | .bytes bs => ({ s with host.scratchOut := bs }, .ret (.bool true))
    | _ => (s, .ret (.bool false))
  -- readTemperature (R244)
  | .temperatureSelected => if v.ok then (s, .run (.call .scratchpadBytes) [.temperatureScratch]) else (s, .ret (.bool false))
  | .temperatureScratch =>
    match v with
    | .bytes (b0 :: b1 :: _) => ({ s with host.tempOut := decodeTemperature b0 b1 }, .ret (.bool true))
    | _ => (s, .ret (.bool false))

/-- An answer reaches the positions that wait for it, innermost first, until one goes on; after the last the program
entry is done, its result is known and the next entry stands at the head (R266). -/
def unwind (rest : List Task) (konts : List Kont) (v : Ret) (s : State) : State :=
  match konts with
  | [] => { s with host := { s.host with prog := rest, result := some v } }
  | k :: ks =>
    match resume k v s with
    | (t, .run op more) => { t with host.prog := ⟨op, more ++ ks⟩ :: rest }
    | (t, .ret w) => unwind rest ks w t

/-- A procedure's step takes effect on the program. -/
def advance (rest : List Task) (konts : List Kont) (n : State × Next) : State :=
  match n with
  | (t, .run op more) => { t with host.prog := ⟨op, more ++ konts⟩ :: rest }
  | (t, .ret v) => unwind rest konts v t

end Sys2Proof.Machine
end

