-- ==== Sys2Proof/Machine/HostStep.lean ====
section
/-! DEFINITION. The host's step, the choice of the agent that moves, and what places an instruction where it runs next
(00_scope.md R15, 44_driver_procedures.md R200). -/

namespace Sys2Proof.Machine

/-- One I2C transaction: the bytes are decoded, and the instruction runs, or the rejection has its meaning. -/
def runTxn (t : Txn) (s : State) : StepResult :=
  match t, decode t with
  | _, .ok i => exec i s
  | .write bytes, .error why => execReject s bytes why
  | .read, .error _ => exec .rd s

/-- After a transaction its outcome goes to the positions that wait for it; a fault ends the run where it stands. -/
def deliver (rest : List Task) (konts : List Kont) (t : Txn) (s : State) : State :=
  match s.dev.fault with
  | none => unwind rest konts (replyRet t s.host.reply) s
  | some _ => s

/-- A power-on reset (70_reset_and_hazards.md R280): the device is left as DRST leaves it. The host is not reset. -/
def State.powerCycle (s : State) : State := (s.record .power).deviceReset.drawReadPtr

/-- The host's step: the head task's next operation. -/
def hostStep (s : State) : StepResult :=
  match s.host.prog with
  | [] => .next s
  | ⟨.txn t, konts⟩ :: rest => andThen (runTxn t s) (deliver rest konts t)
  | ⟨.delay d, konts⟩ :: rest => .next (unwind rest konts (.bool true) (s.record (.delay d)))
  | ⟨.call p, konts⟩ :: rest => .next (advance rest konts (enter p s))
  | ⟨.powerCycle, konts⟩ :: rest => .next (unwind rest konts (.bool true) s.powerCycle)

/-- The host can step where it has something to do; `DELAY settle` only once the switch has settled (R211). -/
def hostEnabled (s : State) : Bool :=
  match s.host.prog with
  | [] => false
  | ⟨.delay .settle, _⟩ :: _ => !s.dev.settling
  | _ :: _ => true

/-- Who moves next where both agents can: as placed in advance, else a free choice (R265, log 3). -/
def State.chooseAgent (s : State) : Agent × State :=
  match s.env.sched with
  | a :: more => (a, { s with env.sched := more })
  | [] =>
    (if Config.freeValue s.env.drawCount s.env.history % 2 == 1 then .engine else .host,
      { s with env.drawCount := s.env.drawCount + 1 })

/-- One step of the machine: none once a fault is marked; else one step of an agent that can move. Where none can, the
device waits for the next transaction (70_reset_and_hazards.md R281) and nothing changes. -/
def runStep (s : State) : StepResult :=
  match s.dev.fault, engineEnabled s, hostEnabled s with
  | some r, _, _ => .fault r
  | none, true, true =>
    let c := s.chooseAgent
    match c.1 with
    | .engine => .next (engineStep c.2)
    | .host => hostStep c.2
  | none, true, false => .next (engineStep s)
  | none, false, true => hostStep s
  | none, false, false => .next s

/-- The transaction stands at the head of the host's program and the host moves next: what a load of a program from
outside does (log 8). -/
def placeTxn (t : Txn) (s : State) : State :=
  { s with
    host := { s.host with prog := ⟨.txn t, []⟩ :: s.host.prog }
    env := { s.env with sched := if engineEnabled s then .host :: s.env.sched else s.env.sched } }

end Sys2Proof.Machine
end

