-- ==== Sys2Proof/Machine/Step.lean ====
section
/-! DEFINITION. The step of the machine, and how the host of this pipeline places an instruction. -/

namespace Sys2Proof.Machine

/-- One step (00_scope.md R15). -/
def step (s : State) : Host.Outcome State Fault Refusal := runStep s

/-- The table word's transaction placed so that the next step runs it (logs 8, 9). -/
def State.withFetchWord (s : State) (nbits w : Nat) : State := placeTxn (tableTxn nbits w) s

end Sys2Proof.Machine
end

