-- ==== Sys2Proof/Safety.lean ====
section
/-! DEFINITION. The terms the statements use: when a transaction goes through, what a step leaves alone, whose step is next,
the host's positions and where each can stand, the invariant, where a procedure fails, fair runs of the engine and of the
host, and the value of a binary32 pattern. -/

namespace Sys2Proof.Machine

/-- The environment of 95_test_vectors.md: no fault is marked, the device is present, no transaction fails (R99). -/
abbrev Live (s : State) : Prop :=
  s.dev.fault = none ∧ s.env.devicePresent = true ∧ s.env.busErrors = false

/-- Nothing is in flight: no operation is pending and no switch is settling. -/
abbrev Quiet (s : State) : Prop := s.dev.pending = none ∧ s.dev.settling = false

/-- The environment's parameters and the agents placed in advance are as before; what is new in the history is `new`,
newest first. Only the draws made may differ otherwise. -/
abbrev EnvAdds (s t : State) (new : List Event) : Prop :=
  t.env.devicePresent = s.env.devicePresent ∧ t.env.busErrors = s.env.busErrors ∧ t.env.sched = s.env.sched
    ∧ t.env.history = new ++ s.env.history

/-- The history entry of a transaction the host sends. -/
abbrev sent (s : State) (t : Txn) : Event := .i2c (addressByte s.host.addr t) t

/-- Where host and engine both can move the host is chosen (R265, log 3); where the engine cannot, nobody chooses. -/
def HostMoves (s : State) : Prop := engineEnabled s = false ∨ s.chooseAgent.1 = .host

/-- s after the choice of who moves: only `env.sched` and `env.drawCount` can differ. -/
def State.afterChoice (s : State) : State := if engineEnabled s then s.chooseAgent.2 else s

/-- The host's next operation is a write of these bytes. -/
def hostSends (s : State) (bytes : List Byte) : Prop :=
  ∃ konts rest, s.host.prog = ⟨.txn (.write bytes), konts⟩ :: rest

/-- The next host step, if taken, resets the device: a DRST, or a power cycle (70_reset_and_hazards.md R280). -/
def resetComes (s : State) : Prop :=
  hostSends s [0xF0#8] ∨ ∃ konts rest, s.host.prog = ⟨.powerCycle, konts⟩ :: rest

/-- The host's next operation is the start of this procedure. -/
def hostCalls (s : State) (p : Proc) : Prop :=
  ∃ konts rest, s.host.prog = ⟨.call p, konts⟩ :: rest

/-- The host's position: it is inside a procedure that waits here (60_exceptions.md R266). -/
def hostWaits (s : State) (k : Kont) : Prop :=
  ∃ op konts rest, s.host.prog = ⟨op, konts⟩ :: rest ∧ k ∈ konts

/-! ## Where a position can stand (44_driver_procedures.md, 45_sensor_procedures.md) -/

/-- The procedure a position is in. -/
def Kont.within (k : Kont) (p : Proc) : Prop :=
  match k with
  | .statusPointer => p = .readStatus
  | .statusRead => p = .readStatus
  | .pollStatus => p = .busyWait
  | .pollDelay => p = .busyWait
  | .wireResetReady => p = .wireReset
  | .wireResetSent => p = .wireReset
  | .wireResetDone => p = .wireReset
  | .writeBitReady bit => p = .wireWriteBit bit
  | .writeBitSent => ∃ bit, p = .wireWriteBit bit
  | .readBitReady => p = .wireReadBit
  | .readBitSent => p = .wireReadBit
  | .readBitDone => p = .wireReadBit
  | .writeByteReady b => p = .wireWriteByte b
  | .writeByteSent => ∃ b, p = .wireWriteByte b
  | .readByteReady => p = .wireReadByte
  | .readByteSent => p = .wireReadByte
  | .readByteDone => p = .wireReadByte
  | .readBytePointer => p = .wireReadByte
  | .readByteFetched => p = .wireReadByte
  | .selectSent _ => ∃ n, p = .selectChannel n
  | .selectSettled _ => ∃ n, p = .selectChannel n
  | .selectPointer _ => ∃ n, p = .selectChannel n
  | .selectRead _ => ∃ n, p = .selectChannel n
  | .isBusyStatus => p = .isBusy
  | .resetSent => p = .reset ∨ p = .begin ∨ p = .wakeUp
  | .resetProbe => p = .reset ∨ p = .begin ∨ p = .wakeUp
  | .resetStatus => p = .reset ∨ p = .begin ∨ p = .wakeUp
  | .startSelected => ∃ ch, p = .startTemperatureConversion ch
  | .startReset => ∃ ch, p = .startTemperatureConversion ch
  | .startSkipRom => ∃ ch, p = .startTemperatureConversion ch
  | .startConvert => ∃ ch, p = .startTemperatureConversion ch
  | .scratchReset => p = .scratchpadBytes
  | .scratchSkipRom => p = .scratchpadBytes
  | .scratchCommand => p = .scratchpadBytes
  | .scratchByte _ => p = .scratchpadBytes
  | .scratchOut => p = .readScratchpad
  | .temperatureSelected => ∃ ch, p = .readTemperature ch
  | .temperatureScratch => ∃ ch, p = .readTemperature ch

/-- What a position waits for. -/
def Kont.awaits (k : Kont) (op : HostOp) : Prop :=
  match k with
  | .statusPointer => op = setReadPointerOp 0xF0#8
  | .statusRead => op = .txn .read
  | .pollStatus => op = .call .readStatus
  | .pollDelay => op = .delay .poll
  | .wireResetReady => op = .call .busyWait
  | .wireResetSent => op = writeCommandOp 0xB4#8
  | .wireResetDone => op = .call .busyWait
  | .writeBitReady _ => op = .call .busyWait
  | .writeBitSent => ∃ p, op = .txn (.write [0x87#8, p])
  | .readBitReady => op = .call .busyWait
  | .readBitSent => op = .txn (.write [0x87#8, 0x80#8])
  | .readBitDone => op = .call .busyWait
  | .writeByteReady _ => op = .call .busyWait
  | .writeByteSent => ∃ b, op = .txn (.write [0xA5#8, b])
  | .readByteReady => op = .call .busyWait
  | .readByteSent => op = writeCommandOp 0x96#8
  | .readByteDone => op = .call .busyWait
  | .readBytePointer => op = setReadPointerOp 0xE1#8
  | .readByteFetched => op = .txn .read
  | .selectSent n => op = .txn (.write [0xC3#8, chselCode n])
  | .selectSettled _ => op = .delay .settle
  | .selectPointer _ => op = setReadPointerOp 0xD2#8
  | .selectRead _ => op = .txn .read
  | .isBusyStatus => op = .call .readStatus
  | .resetSent => op = writeCommandOp 0xF0#8
  | .resetProbe => op = .txn .read
  | .resetStatus => op = .call .readStatus
  | .startSelected => ∃ ch, op = .call (.selectChannel ch)
  | .startReset => op = .call .wireReset
  | .startSkipRom => op = .call (.wireWriteByte 0xCC#8)
  | .startConvert => op = .call (.wireWriteByte 0x44#8)
  | .scratchReset => op = .call .wireReset
  | .scratchSkipRom => op = .call (.wireWriteByte 0xCC#8)
  | .scratchCommand => op = .call (.wireWriteByte 0xBE#8)
  | .scratchByte got => op = .call .wireReadByte ∧ got.length < 9
  | .scratchOut => op = .call .scratchpadBytes
  | .temperatureSelected => ∃ ch, op = .call (.selectChannel ch)
  | .temperatureScratch => op = .call .scratchpadBytes

/-- These positions, innermost first, can wait for this operation: each waits for the procedure the one before is in. -/
def Placed (op : HostOp) (konts : List Kont) : Prop :=
  match konts with
  | [] => True
  | k :: ks => k.awaits op ∧ ∃ p, k.within p ∧ Placed (.call p) ks

/-- The positions of startTemperatureConversion. -/
def Kont.ofStart (k : Kont) : Prop := ∃ ch, k.within (.startTemperatureConversion ch)

/-- The host's part of the invariant: the entry at the head is a procedure at one of its positions, the others have not
begun, and no startTemperatureConversion is on its way in ERROR (45_sensor_procedures.md R241). -/
def HostInv (h : HostState) : Prop :=
  ∀ task rest, h.prog = task :: rest →
    Placed task.op task.konts ∧ (∀ u ∈ rest, u.konts = [])
      ∧ (h.opState = .error → ∀ k ∈ task.konts, ¬ k.ofStart)

/-- The device's part of the invariant. An operation in flight acts on the selected channel (42_onewire_commands.md R158)
and no switch settles meanwhile (60_exceptions.md R265). -/
def DeviceInv (d : Device) : Prop :=
  ∀ op, d.pending = some op → op.channel = d.channel ∧ d.settling = false

/-- The invariant: the device's part, the host's part, and every sample of a 0 slot is 0 (10_state.md R38). -/
def Inv (s : State) : Prop :=
  DeviceInv s.dev ∧ HostInv s.host ∧ ∀ ch sample, Event.busSlot ch false sample ∈ s.env.history → sample = false

/-! ## Failure (44_driver_procedures.md R224) -/

/-- The reply is one after which busyWait can end not ready: no byte came, or one with 1WB set (R203). -/
def Reply.notReady (r : Reply) : Bool :=
  match r with
  | .fail => true
  | .data b => b.getLsbD 0
  | .ack => false
  | .none => false

/-- The reply is not a byte that passes this check. -/
def Reply.rejectedBy (r : Reply) (check : Byte → Bool) : Bool :=
  match r with
  | .fail => true
  | .data b => !check b
  | .ack => false
  | .none => false

/-- The failure a position sets ERROR for, by the last reply: a failed transaction, a busy wait that ends not ready, no
presence, a readback mismatch, a status other than the post-reset one. The other positions set no ERROR. -/
def Kont.failsOn (k : Kont) (r : Reply) : Bool :=
  match k with
  | .wireResetReady => r.notReady
  | .wireResetSent => r == .fail
  | .wireResetDone => r.notReady || r.rejectedBy fun b => b.getLsbD 1
  | .writeBitReady _ => r.notReady
  | .writeBitSent => r == .fail
  | .readBitReady => r.notReady
  | .readBitSent => r == .fail
  | .readBitDone => r.notReady
  | .writeByteReady _ => r.notReady
  | .writeByteSent => r == .fail
  | .readByteReady => r.notReady
  | .readByteSent => r == .fail
  | .readByteDone => r.notReady
  | .readBytePointer => r == .fail
  | .readByteFetched => r == .fail
  | .selectSent _ => r == .fail
  | .selectPointer _ => r == .fail
  | .selectRead n => r.rejectedBy fun b => b == chselReadback n
  | .resetSent => r == .fail
  | .resetProbe => r == .fail
  | .resetStatus => r.rejectedBy fun b => b &&& postResetMask == postResetValue
  | .statusPointer => false
  | .statusRead => false
  | .pollStatus => false
  | .pollDelay => false
  | .selectSettled _ => false
  | .isBusyStatus => false
  | .startSelected => false
  | .startReset => false
  | .startSkipRom => false
  | .startConvert => false
  | .scratchReset => false
  | .scratchSkipRom => false
  | .scratchCommand => false
  | .scratchByte _ => false
  | .scratchOut => false
  | .temperatureSelected => false
  | .temperatureScratch => false

/-! ## Draws -/

/-- The read pointer is what the first draw after s makes it: every one of the four values is admitted (R101). -/
def PointerDrawn (s t : State) : Prop :=
  ∀ p rest, s.env.script = p :: rest → t.dev.readPtr = regOfNat p

/-- How many draws the result bits of a status read take while an operation is pending (10_state.md R40). -/
def Op.resultDraws (op : Op) : Nat :=
  match op with
  | .reset1W _ => 2
  | .bit _ _ => 1
  | .writeByte _ _ => 0
  | .readByte _ => 0
  | .triplet _ _ => 3

/-- The draws an operation's completion takes from the bus: two for a reset, one for every slot that sends a 1. The
direction slot of a triplet depends on the two bits read. -/
def Op.takes (op : Op) (draws : List Nat) : Prop :=
  match op with
  | .reset1W _ => draws.length = 2
  | .bit v _ => draws.length = if v then 1 else 0
  | .writeByte b _ => draws.length = (lsbFirst.filter fun i => b.getLsbD i).length
  | .readByte _ => draws.length = 8
  | .triplet d _ =>
    ∃ x y more, draws = x :: y :: more
      ∧ more.length = if tripletDirection (x % 2 == 1) (y % 2 == 1) d then 1 else 0

/-! ## Runs -/

/-- The step from s to t is the engine's: the agent's choice aside, t is what the engine makes of s. -/
def engineMoved (s t : State) : Prop :=
  ∃ s', s'.dev = s.dev ∧ s'.host = s.host ∧ t = engineStep s'

/-- An infinite run in which no step stops. -/
def IsRun (run : Nat → State) : Prop := ∀ n, step (run n) = .next (run (n + 1))

/-- Weak fairness of the engine (00_scope.md R16): from no point on is its step enabled for ever and never taken. -/
def FairRun (run : Nat → State) : Prop :=
  ∀ n, (∀ m, n ≤ m → engineEnabled (run m) = true) → ∃ m, n ≤ m ∧ engineMoved (run m) (run (m + 1))

/-- The host is inside a busyWait whose caller waits at ks, with the entries `rest` to come. -/
def InBusyWait (ks : List Kont) (rest : List Task) (s : State) : Prop :=
  ∃ op inner, s.host.prog = ⟨op, inner ++ ks⟩ :: rest
    ∧ (op, inner) ∈
      [(HostOp.call .busyWait, []), (.call .readStatus, [Kont.pollStatus]),
        (setReadPointerOp 0xF0#8, [.statusPointer, .pollStatus]), (.txn .read, [.statusRead, .pollStatus]),
        (.delay .poll, [.pollDelay])]

/-- Host fairness (44_driver_procedures.md R203): a busyWait call returns after finitely many polls, so in no infinite run
is the host inside one for ever. -/
def HostFairRun (run : Nat → State) : Prop :=
  ∀ ks rest n, InBusyWait ks rest (run n) → ∃ m, n ≤ m ∧ ¬ InBusyWait ks rest (run m)

/-- The command byte of the seven instructions that a busy or settling device faults on (R262, R291, R293). -/
def gatedCode (i : Instr) : Option Byte :=
  match i with
  | .wcfg _ => some 0xD2#8
  | .chsl _ => some 0xC3#8
  | .w1rs => some 0xB4#8
  | .w1wb _ => some 0xA5#8
  | .w1rb => some 0x96#8
  | .w1sb _ => some 0x87#8
  | .w1t _ => some 0x78#8
  | .drst => none
  | .srp _ => none
  | .rd => none

/-- The number a normal binary32 pattern, or +0.0, stands for. -/
def binary32Value (w : BitVec 32) : ℚ :=
  if w = 0#32 then 0
  else
    (if w.getLsbD 31 then -1 else 1) * ((2 ^ 23 + (w.extractLsb' 0 23).toNat : ℕ) : ℚ)
      * (2 : ℚ) ^ (((w.extractLsb' 23 8).toNat : ℤ) - 150)

end Sys2Proof.Machine
end

