-- ==== Sys2Proof/WellFormed.lean ====
section
/-! DEFINITION. Which instructions are well formed: a parameter with a restricted set of values has one of them. An
ill-formed instruction still decodes, and executes to the fault the spec names (60_exceptions.md R262, R264). -/

namespace Sys2Proof

/-- An SRP parameter is one of the four pointer codes (R84, R90), a WCFG parameter passes the complement check (R87),
a CHSL parameter is a channel code (R88, R92). No other instruction has an illegal parameter. -/
def Instr.wellFormed (i : Instr) : Bool :=
  match i with
  | .srp p => (pointerOf p).isSome
  | .wcfg p => (configOf p).isSome
  | .chsl c => (channelOf c).isSome
  | .drst => true
  | .w1rs => true
  | .w1wb _ => true
  | .w1rb => true
  | .w1sb _ => true
  | .w1t _ => true
  | .rd => true

end Sys2Proof
end

