-- ==== Sys2Proof/Certificates/Slice0/Obligations.lean ====
section
/-! DEFINITION. The statements for the provers, each from numbered rules of spec/. -/

open Sys2Proof Sys2Proof.Machine

/-! ## Encoding -/

/-- 30_encoding.md R80, R82: every instruction decodes from its own transaction, and from no other. -/
def Obligations.DecodeEncodeAgree : Prop :=
  (∀ i : Instr, decode (encode i) = .ok i) ∧ ∀ (t : Txn) (i : Instr), decode t = .ok i → t = encode i

/-- 30_encoding.md R86, R91: what is no command is rejected, by name. -/
def Obligations.OtherWritesRejectedByName : Prop :=
  decodeWrite [] = .error .emptyWrite
    ∧ ∀ (cmd : Byte) (params : List Byte),
      (cmd ∉ [0xF0#8, 0xE1#8, 0xD2#8, 0xC3#8, 0xB4#8, 0xA5#8, 0x96#8, 0x87#8, 0x78#8] →
        decodeWrite (cmd :: params) = .error (.badCommand cmd))
      ∧ (cmd ∈ [0xF0#8, 0xB4#8, 0x96#8] → params.length ≠ 0 →
        decodeWrite (cmd :: params) = .error (.badLength cmd (params.length + 1)))
      ∧ (cmd ∈ [0xE1#8, 0xD2#8, 0xC3#8, 0xA5#8, 0x87#8, 0x78#8] → params.length ≠ 1 →
        decodeWrite (cmd :: params) = .error (.badLength cmd (params.length + 1)))

/-- 30_encoding.md R82: words of the opcode table, written out from the code map, and what they stand for. -/
def Obligations.TableWordsDecode : Prop :=
  decodeTableWord 8 0xF0 = some .drst ∧ decodeTableWord 16 0xE1F0 = some (.srp 0xF0#8)
    ∧ decodeTableWord 16 0xD2E1 = some (.wcfg 0xE1#8) ∧ decodeTableWord 16 0xC3C3 = some (.chsl 0xC3#8)
    ∧ decodeTableWord 8 0xB4 = some .w1rs ∧ decodeTableWord 16 0xA5CC = some (.w1wb 0xCC#8)
    ∧ decodeTableWord 8 0x96 = some .w1rb ∧ decodeTableWord 16 0x8780 = some (.w1sb 0x80#8)
    ∧ decodeTableWord 16 0x7880 = some (.w1t 0x80#8) ∧ decodeTableWord 8 0x00 = some .rd

/-! ## The step -/

/-- 00_scope.md R15, R68: where the host moves, the transaction at the head of its program is decoded and its instruction
runs; its answer then goes to the positions that wait for it. Where none waits (a transaction of the program itself)
and no fault was raised, the entry is done and its answer is the result. The host moves where the engine has no step,
and where it is placed first in the list of agents. -/
def Obligations.StepRunsDecodedInstruction : Prop :=
  ∀ (s : State) (x : Txn) (i : Instr) (konts : List Kont) (rest : List Task),
    s.dev.fault = none → s.host.prog = ⟨.txn x, konts⟩ :: rest → decode x = .ok i →
      (engineEnabled s = false → step s = andThen (exec i s) (deliver rest konts x))
      ∧ (∀ more, engineEnabled s = true → s.env.sched = .host :: more →
          step s = andThen (exec i { s with env.sched := more }) (deliver rest konts x))
      ∧ (∀ u, engineEnabled s = false → konts = [] → exec i s = .next u → u.dev.fault = none →
          step s = .next
            { u with host := { u.host with prog := rest, result := some (replyRet x u.host.reply) } })

/-- 60_exceptions.md R263: a fault is never cleared; nothing runs after it. -/
def Obligations.NothingRunsAfterFault : Prop :=
  ∀ (s : State) (r : Fault), s.dev.fault = some r → step s = .fault r ∧ ∀ i : Instr, exec i s = .fault r

/-- 60_exceptions.md R260, R262: nothing but a marked fault stops the machine, whatever it is given to run. -/
def Obligations.UnfaultedStepAnswersNext : Prop :=
  ∀ s : State, s.dev.fault = none → ∃ t, step s = .next t

/-- 00_scope.md R15, 70_reset_and_hazards.md R281: the engine moves where only it can, or where it is placed first; where no
agent can move nothing changes. -/
def Obligations.EngineMovesWhereChosen : Prop :=
  ∀ s : State, s.dev.fault = none →
    (engineEnabled s = true → hostEnabled s = false → step s = .next (engineStep s))
    ∧ (∀ more, engineEnabled s = true → hostEnabled s = true → s.env.sched = .engine :: more →
        step s = .next (engineStep { s with env.sched := more }))
    ∧ (engineEnabled s = false → hostEnabled s = false → step s = .next s)

/-! ## Transport -/

/-- 40_i2c_transport.md R99: without a device every transaction fails and changes nothing, whatever its bytes: also an empty
write, an unknown code and a wrong length. -/
def Obligations.AbsentDeviceChangesNothing : Prop :=
  ∀ (x : Txn) (s : State), s.dev.fault = none → s.env.devicePresent = false →
    ∃ t, runTxn x s = .next t ∧ t.dev = s.dev ∧ t.host = { s.host with reply := .fail } ∧ EnvAdds s t [sent s x]

/-- 40_i2c_transport.md R100: with bus errors a write may fail, applied or not, or succeed, whatever its bytes. The three
outcomes are those of the two draws, which are placed in advance here; u is what the same write makes without bus errors. -/
def Obligations.FailedWriteAppliedOrNot : Prop :=
  ∀ (bytes : List Byte) (s : State) (rest : List Nat), s.dev.fault = none → s.env.devicePresent = true →
    s.env.busErrors = true →
      (s.env.script = 1 :: 0 :: rest →
        ∃ t, runTxn (.write bytes) s = .next t ∧ t.dev = s.dev ∧ t.host = { s.host with reply := .fail })
      ∧ (s.env.script = 1 :: 1 :: rest →
        ∃ t u, runTxn (.write bytes) s = .next t
          ∧ runTxn (.write bytes) { s with env := { s.env with busErrors := false, script := rest } } = .next u
          ∧ t.dev = u.dev ∧ (u.dev.fault = none → t.host = { u.host with reply := .fail }))
      ∧ (s.env.script = 0 :: rest →
        ∃ t u, runTxn (.write bytes) s = .next t
          ∧ runTxn (.write bytes) { s with env := { s.env with busErrors := false, script := rest } } = .next u
          ∧ t.dev = u.dev ∧ t.host = u.host)

/-- 40_i2c_transport.md R103, 20_memory.md R69: a failed read changes no device field but LL, a draw, and that only where the
pointer is STATUS. -/
def Obligations.FailedReadChangesOnlyLevel : Prop :=
  ∀ (s : State) (l : Nat) (rest : List Nat), s.dev.fault = none → s.env.devicePresent = true →
    s.env.busErrors = true → s.env.script = 1 :: l :: rest →
      (s.dev.readPtr = .status →
        ∃ t, exec .rd s = .next t ∧ t.dev = { s.dev with ll := l % 2 == 1 } ∧ t.host = { s.host with reply := .fail })
      ∧ (s.dev.readPtr ≠ .status →
        ∃ t, exec .rd s = .next t ∧ t.dev = s.dev ∧ t.host = { s.host with reply := .fail })

/-- 30_encoding.md R86, R91: an empty write has no effect on any device field; an unknown code and a wrong length raise their
fault, in every state of the device, busy and settling ones too, and change nothing else of it. -/
def Obligations.RejectedWritesFault : Prop :=
  ∀ s : State, Live s →
    (∃ t, runTxn (.write []) s = .next t ∧ t.dev = s.dev)
    ∧ ∀ (cmd : Byte) (params : List Byte),
      (cmd ∉ [0xF0#8, 0xE1#8, 0xD2#8, 0xC3#8, 0xB4#8, 0xA5#8, 0x96#8, 0x87#8, 0x78#8] →
        ∃ t, runTxn (.write (cmd :: params)) s = .next t ∧ t.dev = { s.dev with fault := some (.badCommand cmd) })
      ∧ (cmd ∈ [0xF0#8, 0xB4#8, 0x96#8] ∧ params.length ≠ 0
          ∨ cmd ∈ [0xE1#8, 0xD2#8, 0xC3#8, 0xA5#8, 0x87#8, 0x78#8] ∧ params.length ≠ 1 →
        ∃ t, runTxn (.write (cmd :: params)) s = .next t
          ∧ t.dev = { s.dev with fault := some (.badLength cmd (params.length + 1)) })

/-- 40_i2c_transport.md R101, 70_reset_and_hazards.md R291: WCFG, CHSL and the 1-Wire commands while an operation is pending
raise BusyViolation, whatever their parameter, and change nothing else; the host is answered nothing (log 11). -/
def Obligations.BusyDeviceFaultsCommands : Prop :=
  ∀ (s : State) (i : Instr) (cmd : Byte) (op : Op), Live s → s.dev.pending = some op → gatedCode i = some cmd →
    ∃ t, exec i s = .next t ∧ t.dev = { s.dev with fault := some (.busyViolation cmd op) } ∧ t.host = s.host
      ∧ EnvAdds s t [sent s (encode i)]

/-- 40_i2c_transport.md R101, 70_reset_and_hazards.md R293: the same commands while a switch is settling raise
SettleViolation; the host is answered nothing (log 11). -/
def Obligations.SettlingDeviceFaultsCommands : Prop :=
  ∀ (s : State) (i : Instr) (cmd : Byte), Live s → s.dev.pending = none → s.dev.settling = true →
    gatedCode i = some cmd →
      ∃ t, exec i s = .next t ∧ t.dev = { s.dev with fault := some (.settleViolation cmd) } ∧ t.host = s.host
        ∧ EnvAdds s t [sent s (encode i)]

/-- 60_exceptions.md R262, R264; 30_encoding.md R87, R90, R92: on an idle device exactly the well-formed instructions raise no
fault, and an illegal SRP parameter raises its fault in every state of the device. Which fault each raises is in its
instruction's statement; that the host is answered nothing is log 11. -/
def Obligations.WellFormedRunsWithoutFault : Prop :=
  ∀ (i : Instr) (s : State), Live s →
    (Quiet s → i.wellFormed = true → ∃ t, exec i s = .next t ∧ t.dev.fault = none ∧ t.host.reply ≠ .fail)
    ∧ (Quiet s → i.wellFormed = false →
        ∃ t r, exec i s = .next t ∧ t.dev = { s.dev with fault := some r } ∧ t.host = s.host)
    ∧ (∀ p, i = .srp p → i.wellFormed = false →
        ∃ t, exec i s = .next t ∧ t.dev = { s.dev with fault := some (.badPointer p) } ∧ t.host = s.host)

/-! ## Register protocol -/

/-- 41_register_commands.md R120: DRST, busy or settling or not, leaves the device as stated; LL and the read pointer are
draws. -/
def Obligations.DrstResetsDevice : Prop :=
  ∀ s : State, Live s →
    ∃ t, exec .drst s = .next t
      ∧ t.dev =
        { pending := none, ppd := false, sd := false, ll := t.dev.ll, rst := true, sbr := false, tsb := false
          dir := false, cfg := 0#4, channel := 0, readPtr := t.dev.readPtr, readData := none, settling := false
          fault := none }
      ∧ t.host = { s.host with reply := .ack } ∧ EnvAdds s t [sent s (.write [0xF0#8])]
      ∧ ∀ l p rest, s.env.script = l :: p :: rest → t.dev.ll = (l % 2 == 1) ∧ t.dev.readPtr = regOfNat p

/-- 41_register_commands.md R121, 30_encoding.md R90: SRP, busy or settling or not, selects the register of its code and
changes nothing else (no draw is made); every other code raises BadPointer and leaves the pointer. -/
def Obligations.SrpSelectsRegister : Prop :=
  ∀ (s : State) (p : Byte), Live s →
    (∀ r, (p, r) ∈ [(0xF0#8, ReadReg.status), (0xE1#8, .readData), (0xD2#8, .channel), (0xC3#8, .config)] →
      exec (.srp p) s = .next
        { s with
          dev.readPtr := r
          host.reply := .ack
          env.history := sent s (.write [0xE1#8, p]) :: s.env.history })
    ∧ (p ∉ [0xF0#8, 0xE1#8, 0xD2#8, 0xC3#8] →
      ∃ t, exec (.srp p) s = .next t ∧ t.dev = { s.dev with fault := some (.badPointer p) })

/-- 41_register_commands.md R124: on an idle device a WCFG whose upper nibble is the complement of its lower one stores the
lower one and clears RST, any other raises BadConfig; while an operation is pending, and while a switch settles, WCFG
raises the fault of that. -/
def Obligations.WcfgStoresConfiguration : Prop :=
  ∀ (s : State) (p : Byte), Live s →
    (Quiet s → p.extractLsb' 4 4 = ~~~ p.extractLsb' 0 4 →
      ∃ t, exec (.wcfg p) s = .next t
        ∧ t.dev = { s.dev with cfg := p.extractLsb' 0 4, rst := false, readPtr := t.dev.readPtr }
        ∧ t.host = { s.host with reply := .ack } ∧ EnvAdds s t [sent s (.write [0xD2#8, p])] ∧ PointerDrawn s t)
    ∧ (Quiet s → p.extractLsb' 4 4 ≠ ~~~ p.extractLsb' 0 4 →
      ∃ t, exec (.wcfg p) s = .next t ∧ t.dev = { s.dev with fault := some (.badConfig p) })
    ∧ (∀ op, s.dev.pending = some op →
      ∃ t, exec (.wcfg p) s = .next t ∧ t.dev = { s.dev with fault := some (.busyViolation 0xD2#8 op) })
    ∧ (s.dev.pending = none → s.dev.settling = true →
      ∃ t, exec (.wcfg p) s = .next t ∧ t.dev = { s.dev with fault := some (.settleViolation 0xD2#8) })

/-- 43_channel_select.md R171: on an idle device CHSL of a channel's code selects the channel and starts its settling, also
where that channel was selected; any other code raises BadChannelCode; while an operation is pending, and while a switch
settles, CHSL raises the fault of that. -/
def Obligations.ChslSelectsChannel : Prop :=
  ∀ (s : State) (c : Byte), Live s →
    (∀ n, Quiet s → (c, n) ∈ [(0xF0#8, (0 : Channel)), (0xE1#8, 1), (0xD2#8, 2), (0xC3#8, 3), (0xB4#8, 4), (0xA5#8, 5),
        (0x96#8, 6), (0x87#8, 7)] →
      ∃ t, exec (.chsl c) s = .next t
        ∧ t.dev = { s.dev with channel := n, settling := true, readPtr := t.dev.readPtr }
        ∧ t.host = { s.host with reply := .ack } ∧ EnvAdds s t [sent s (.write [0xC3#8, c])] ∧ PointerDrawn s t)
    ∧ (Quiet s → c ∉ [0xF0#8, 0xE1#8, 0xD2#8, 0xC3#8, 0xB4#8, 0xA5#8, 0x96#8, 0x87#8] →
      ∃ t, exec (.chsl c) s = .next t ∧ t.dev = { s.dev with fault := some (.badChannelCode c) })
    ∧ (∀ op, s.dev.pending = some op →
      ∃ t, exec (.chsl c) s = .next t ∧ t.dev = { s.dev with fault := some (.busyViolation 0xC3#8 op) })
    ∧ (s.dev.pending = none → s.dev.settling = true →
      ∃ t, exec (.chsl c) s = .next t ∧ t.dev = { s.dev with fault := some (.settleViolation 0xC3#8) })

/-! ## The 1-Wire commands: acceptance -/

/-- 42_onewire_commands.md R140. -/
def Obligations.W1rsStartsReset : Prop :=
  ∀ s : State, Live s → Quiet s →
    ∃ t, exec .w1rs s = .next t
      ∧ t.dev = { s.dev with pending := some (.reset1W s.dev.channel), readPtr := t.dev.readPtr }
      ∧ t.host = { s.host with reply := .ack } ∧ EnvAdds s t [sent s (.write [0xB4#8])] ∧ PointerDrawn s t

/-- 42_onewire_commands.md R143, 30_encoding.md R85: the slot's value is bit 7 of the parameter. -/
def Obligations.W1sbStartsSlot : Prop :=
  ∀ (s : State) (p : Byte), Live s → Quiet s →
    ∃ t, exec (.w1sb p) s = .next t
      ∧ t.dev = { s.dev with pending := some (.bit (decide (128 ≤ p.toNat)) s.dev.channel), readPtr := t.dev.readPtr }
      ∧ t.host = { s.host with reply := .ack } ∧ EnvAdds s t [sent s (.write [0x87#8, p])] ∧ PointerDrawn s t

/-- 42_onewire_commands.md R146. -/
def Obligations.W1wbStartsWrite : Prop :=
  ∀ (s : State) (b : Byte), Live s → Quiet s →
    ∃ t, exec (.w1wb b) s = .next t
      ∧ t.dev = { s.dev with pending := some (.writeByte b s.dev.channel), readPtr := t.dev.readPtr }
      ∧ t.host = { s.host with reply := .ack } ∧ EnvAdds s t [sent s (.write [0xA5#8, b])] ∧ PointerDrawn s t

/-- 42_onewire_commands.md R149. -/
def Obligations.W1rbStartsRead : Prop :=
  ∀ s : State, Live s → Quiet s →
    ∃ t, exec .w1rb s = .next t
      ∧ t.dev = { s.dev with pending := some (.readByte s.dev.channel), readPtr := t.dev.readPtr }
      ∧ t.host = { s.host with reply := .ack } ∧ EnvAdds s t [sent s (.write [0x96#8])] ∧ PointerDrawn s t

/-- 42_onewire_commands.md R153, 30_encoding.md R89: the direction is bit 7 of the parameter. -/
def Obligations.W1tStartsTriplet : Prop :=
  ∀ (s : State) (p : Byte), Live s → Quiet s →
    ∃ t, exec (.w1t p) s = .next t
      ∧ t.dev =
        { s.dev with pending := some (.triplet (decide (128 ≤ p.toNat)) s.dev.channel), readPtr := t.dev.readPtr }
      ∧ t.host = { s.host with reply := .ack } ∧ EnvAdds s t [sent s (.write [0x78#8, p])] ∧ PointerDrawn s t

/-! ## The register read -/

/-- 40_i2c_transport.md R103, R104, R105; 20_memory.md R69: a read answers a byte in every device state, moves no pointer and
changes LL at most, and that only where it reads STATUS. -/
def Obligations.RdAlwaysAnswers : Prop :=
  ∀ s : State, Live s →
    ∃ t b, exec .rd s = .next t ∧ t.dev = { s.dev with ll := t.dev.ll } ∧ (s.dev.readPtr ≠ .status → t.dev = s.dev)
      ∧ t.host = { s.host with reply := .data b }

/-- 10_state.md R25, R39: an idle device's status byte, with LL sampled from the selected line at the read. -/
def Obligations.RdStatusShowsStoredBits : Prop :=
  ∀ s : State, Live s → s.dev.pending = none → s.dev.readPtr = .status →
    ∃ t b l, exec .rd s = .next t ∧ t.dev = { s.dev with ll := l } ∧ t.host = { s.host with reply := .data b }
      ∧ EnvAdds s t [.busLevel s.dev.channel l, sent s .read]
      ∧ b.getLsbD 7 = s.dev.dir ∧ b.getLsbD 6 = s.dev.tsb ∧ b.getLsbD 5 = s.dev.sbr ∧ b.getLsbD 4 = s.dev.rst
      ∧ b.getLsbD 3 = l ∧ b.getLsbD 2 = s.dev.sd ∧ b.getLsbD 1 = s.dev.ppd ∧ b.getLsbD 0 = false
      ∧ ∀ v rest, s.env.script = v :: rest → l = (v % 2 == 1)

/-- 10_state.md R40: while an operation is pending 1WB reads 1, LL is sampled, every bit the operation will not write reads
its stored value, and the bits it will write read as draws, every value admitted; what is stored does not change, LL
aside. -/
def Obligations.RdStatusWhileBusy : Prop :=
  ∀ (s : State) (op : Op), Live s → s.dev.pending = some op → s.dev.readPtr = .status →
    ∃ t b l, exec .rd s = .next t ∧ t.dev = { s.dev with ll := l } ∧ t.host = { s.host with reply := .data b }
      ∧ EnvAdds s t [.busLevel s.dev.channel l, sent s .read]
      ∧ b.getLsbD 0 = true ∧ b.getLsbD 3 = l ∧ b.getLsbD 4 = s.dev.rst
      ∧ ((∀ ch, op ≠ .reset1W ch) → b.getLsbD 1 = s.dev.ppd ∧ b.getLsbD 2 = s.dev.sd)
      ∧ ((∀ v ch, op ≠ .bit v ch) → (∀ d ch, op ≠ .triplet d ch) → b.getLsbD 5 = s.dev.sbr)
      ∧ ((∀ d ch, op ≠ .triplet d ch) → b.getLsbD 6 = s.dev.tsb ∧ b.getLsbD 7 = s.dev.dir)
      ∧ (∀ ch x y z rest, op = .reset1W ch → s.env.script = x :: y :: z :: rest →
          l = (x % 2 == 1) ∧ b.getLsbD 1 = (y % 2 == 1) ∧ b.getLsbD 2 = (z % 2 == 1))
      ∧ (∀ v ch x y rest, op = .bit v ch → s.env.script = x :: y :: rest →
          l = (x % 2 == 1) ∧ b.getLsbD 5 = (y % 2 == 1))
      ∧ (∀ d ch x y z w rest, op = .triplet d ch → s.env.script = x :: y :: z :: w :: rest →
          l = (x % 2 == 1) ∧ b.getLsbD 5 = (y % 2 == 1) ∧ b.getLsbD 6 = (z % 2 == 1) ∧ b.getLsbD 7 = (w % 2 == 1))

/-- 42_onewire_commands.md R152: READDATA returns the byte of the last completed ReadByte, and a draw over all bytes where
there is none or one is pending. -/
def Obligations.RdReadDataReturnsByte : Prop :=
  ∀ s : State, Live s → s.dev.readPtr = .readData →
    (∀ b, s.dev.readData = some b → (∀ ch, s.dev.pending ≠ some (.readByte ch)) →
      ∃ t, exec .rd s = .next t ∧ t.dev = s.dev ∧ t.host = { s.host with reply := .data b })
    ∧ (s.dev.readData = none ∨ (∃ ch, s.dev.pending = some (.readByte ch)) →
      ∃ t b, exec .rd s = .next t ∧ t.dev = s.dev ∧ t.host = { s.host with reply := .data b }
        ∧ ∀ v rest, s.env.script = v :: rest → b = BitVec.ofNat 8 v)

/-- 43_channel_select.md R174: CHANNEL returns the readback value of the selected channel, and a draw over all bytes while
a switch settles. -/
def Obligations.RdChannelReturnsReadback : Prop :=
  ∀ s : State, Live s → s.dev.readPtr = .channel →
    (∀ v, s.dev.settling = false →
      (s.dev.channel, v) ∈ [((0 : Channel), 0xB8#8), (1, 0xB1#8), (2, 0xAA#8), (3, 0xA3#8), (4, 0x9C#8), (5, 0x95#8),
        (6, 0x8E#8), (7, 0x87#8)] →
      ∃ t, exec .rd s = .next t ∧ t.dev = s.dev ∧ t.host = { s.host with reply := .data v })
    ∧ (s.dev.settling = true →
      ∃ t b, exec .rd s = .next t ∧ t.dev = s.dev ∧ t.host = { s.host with reply := .data b }
        ∧ ∀ v rest, s.env.script = v :: rest → b = BitVec.ofNat 8 v)

/-- 10_state.md R31: CONFIG returns the four stored bits, the upper nibble 0. -/
def Obligations.RdConfigReturnsNibble : Prop :=
  ∀ s : State, Live s → s.dev.readPtr = .config →
    ∃ t b, exec .rd s = .next t ∧ t.dev = s.dev ∧ t.host = { s.host with reply := .data b }
      ∧ b.toNat = s.dev.cfg.toNat

/-! ## The engine -/

/-- 42_onewire_commands.md R140, R156: a 1-Wire reset completes with the bus's answer in PPD and SD. -/
def Obligations.ResetCompletionWritesPresence : Prop :=
  ∀ (s : State) (ch : Channel), s.dev.pending = some (.reset1W ch) →
    ∃ p q, EnvAdds s (engineStep s) [.busReset ch p q] ∧ (engineStep s).host = s.host
      ∧ (engineStep s).dev = { s.dev with pending := none, ppd := p, sd := q, cfg := (engineStep s).dev.cfg }
      ∧ ∀ a b rest, s.env.script = a :: b :: rest → p = (a % 2 == 1) ∧ q = (b % 2 == 1)

/-- 42_onewire_commands.md R143, 10_state.md R38: a single bit completes with the slot's sample in SBR: 0 for a 0 slot, the
slave's bit for a 1 slot. -/
def Obligations.BitCompletionWritesSample : Prop :=
  ∀ (s : State) (v : Bool) (ch : Channel), s.dev.pending = some (.bit v ch) →
    ∃ x, EnvAdds s (engineStep s) [.busSlot ch v x] ∧ (engineStep s).host = s.host
      ∧ (engineStep s).dev = { s.dev with pending := none, sbr := x, cfg := (engineStep s).dev.cfg }
      ∧ (v = false → x = false) ∧ ∀ a rest, v = true → s.env.script = a :: rest → x = (a % 2 == 1)

/-- 42_onewire_commands.md R146, 20_memory.md R63: a write byte sends its bits in eight slots, bit 0 first (the history has
the newest first), and writes no register. -/
def Obligations.WriteByteSendsLsbFirst : Prop :=
  ∀ (s : State) (b : Byte) (ch : Channel), s.dev.pending = some (.writeByte b ch) →
    ∃ x : Nat → Bool,
      EnvAdds s (engineStep s) ([7, 6, 5, 4, 3, 2, 1, 0].map fun i => .busSlot ch (b.getLsbD i) (x i))
      ∧ (engineStep s).host = s.host
      ∧ (engineStep s).dev = { s.dev with pending := none, cfg := (engineStep s).dev.cfg }

/-- 42_onewire_commands.md R149, 20_memory.md R63: a read byte takes its bits from eight read slots, bit 0 first, into the
read data register; every byte can come. -/
def Obligations.ReadByteCollectsLsbFirst : Prop :=
  ∀ (s : State) (ch : Channel), s.dev.pending = some (.readByte ch) →
    ∃ r : Byte,
      EnvAdds s (engineStep s) ([7, 6, 5, 4, 3, 2, 1, 0].map fun i => .busSlot ch true (r.getLsbD i))
      ∧ (engineStep s).host = s.host
      ∧ (engineStep s).dev = { s.dev with pending := none, readData := some r, cfg := (engineStep s).dev.cfg }
      ∧ ∀ (v : Byte) (rest : List Nat),
          s.env.script = ([0, 1, 2, 3, 4, 5, 6, 7].map fun i => if v.getLsbD i then 1 else 0) ++ rest → r = v

/-- 42_onewire_commands.md R153: a triplet reads two bits, writes the direction they and d give, and reports all three. -/
def Obligations.TripletCompletionTakesDirection : Prop :=
  ∀ (s : State) (d : Bool) (ch : Channel), s.dev.pending = some (.triplet d ch) →
    ∃ id cmp dir x,
      EnvAdds s (engineStep s) [.busSlot ch dir x, .busSlot ch true cmp, .busSlot ch true id]
      ∧ (engineStep s).host = s.host
      ∧ (engineStep s).dev =
          { s.dev with pending := none, sbr := id, tsb := cmp, dir := dir, cfg := (engineStep s).dev.cfg }
      ∧ (id = true → cmp = false → dir = true) ∧ (id = false → cmp = true → dir = false)
      ∧ (id = false → cmp = false → dir = d) ∧ (id = true → cmp = true → dir = true)
      ∧ ∀ a b rest, s.env.script = a :: b :: rest → id = (a % 2 == 1) ∧ cmp = (b % 2 == 1)

/-- 42_onewire_commands.md R157: a completion changes no configuration bit but SPU, and that only where it was set, to a
draw: the one after the draws the operation itself takes from the bus. -/
def Obligations.CompletionDrawsSpu : Prop :=
  ∀ (s : State) (op : Op), s.dev.pending = some op →
    (engineStep s).dev.cfg.getLsbD 0 = s.dev.cfg.getLsbD 0 ∧ (engineStep s).dev.cfg.getLsbD 1 = s.dev.cfg.getLsbD 1
    ∧ (engineStep s).dev.cfg.getLsbD 3 = s.dev.cfg.getLsbD 3
    ∧ (s.dev.cfg.getLsbD 2 = false → (engineStep s).dev.cfg = s.dev.cfg)
    ∧ ∀ draws k rest, op.takes draws → s.env.script = draws ++ k :: rest → s.dev.cfg.getLsbD 2 = true →
        (engineStep s).dev.cfg.getLsbD 2 = (k % 2 == 1)

/-- 43_channel_select.md R175: with no operation pending the engine can move exactly while a switch settles; the settle step
ends the settling and changes nothing else. -/
def Obligations.SettleStepEndsSettling : Prop :=
  ∀ s : State, s.dev.pending = none →
    engineEnabled s = s.dev.settling ∧ (s.dev.settling = true → engineStep s = { s with dev.settling := false })

/-! ## Invariants and rules of the whole machine -/

/-- 42_onewire_commands.md R158; 60_exceptions.md R265, R266; 10_state.md R38; 45_sensor_procedures.md R241: the invariant
holds at reset and every step keeps it. -/
def Obligations.EveryStepKeepsInvariant : Prop :=
  Inv State.reset ∧ ∀ s t : State, Inv s → step s = .next t → Inv t

/-- 10_state.md R41, R49; 70_reset_and_hazards.md R280, R282: the start of a run, and what a power-on reset in the middle of one
(an entry of the host's program, log 19) leaves: the device in the same state, LL and the read pointer draws, and the
host, which is not reset, as it was. -/
def Obligations.ResetValues : Prop :=
  (State.reset.dev =
      { pending := none, ppd := false, sd := false, ll := State.reset.dev.ll, rst := true, sbr := false, tsb := false
        dir := false, cfg := 0#4, channel := 0, readPtr := State.reset.dev.readPtr, readData := none, settling := false
        fault := none }
    ∧ State.reset.host.addr = 0x18#7 ∧ State.reset.host.opState = .idle)
  ∧ ∀ (s : State) (rest : List Task), s.dev.fault = none → HostMoves s → s.host.prog = ⟨.powerCycle, []⟩ :: rest →
      ∃ t, step s = .next t
        ∧ t.dev =
          { pending := none, ppd := false, sd := false, ll := t.dev.ll, rst := true, sbr := false, tsb := false
            dir := false, cfg := 0#4, channel := 0, readPtr := t.dev.readPtr, readData := none, settling := false
            fault := none }
        ∧ t.host = { s.host with prog := rest, result := some (.bool true) }
        ∧ EnvAdds s.afterChoice t [.power]
        ∧ ∀ l p more, s.env.script = l :: p :: more → t.dev.ll = (l % 2 == 1) ∧ t.dev.readPtr = regOfNat p

/-- 10_state.md R23, R24: only the completion of a 1WRS writes PPD and SD, and only a device reset clears them. -/
def Obligations.PresenceWrittenByResetOnly : Prop :=
  ∀ s t : State, step s = .next t → t.dev.ppd ≠ s.dev.ppd ∨ t.dev.sd ≠ s.dev.sd →
    (∃ ch, s.dev.pending = some (.reset1W ch) ∧ engineMoved s t)
    ∨ (resetComes s ∧ t.dev.ppd = false ∧ t.dev.sd = false)

/-- 43_channel_select.md R172: the channel changes only by a valid CHSL, to the channel of its code, or by a device reset,
to channel 0. -/
def Obligations.ChannelChangesByChslOrReset : Prop :=
  ∀ s t : State, step s = .next t → t.dev.channel ≠ s.dev.channel →
    (resetComes s ∧ t.dev.channel = 0) ∨ ∃ c, hostSends s [0xC3#8, c] ∧ chselCode t.dev.channel = c

/-- 10_state.md R22: 1WB is set by a 1-Wire command of the host, and cleared by the engine's completion step or a device
reset; nothing else changes the operation in flight. -/
def Obligations.BusyFlagChangesByRule : Prop :=
  ∀ s t : State, step s = .next t →
    (∀ op, s.dev.pending = some op → t.dev.pending = some op
        ∨ (t.dev.pending = none ∧ (engineMoved s t ∨ resetComes s)))
    ∧ (s.dev.pending = none → t.dev.pending = none
        ∨ hostSends s [0xB4#8] ∧ t.dev.pending = some (.reset1W s.dev.channel)
        ∨ hostSends s [0x96#8] ∧ t.dev.pending = some (.readByte s.dev.channel)
        ∨ ∃ p, hostSends s [0x87#8, p] ∧ t.dev.pending = some (.bit (p.getLsbD 7) s.dev.channel)
            ∨ hostSends s [0xA5#8, p] ∧ t.dev.pending = some (.writeByte p s.dev.channel)
            ∨ hostSends s [0x78#8, p] ∧ t.dev.pending = some (.triplet (p.getLsbD 7) s.dev.channel))

/-- 10_state.md R26: RST is set by a device reset and cleared by a WCFG that passes the complement check, by nothing
else. -/
def Obligations.RstChangesByResetOrWcfg : Prop :=
  ∀ s t : State, step s = .next t → t.dev.rst ≠ s.dev.rst →
    (t.dev.rst = true ∧ resetComes s)
    ∨ (t.dev.rst = false ∧ ∃ p : Byte, hostSends s [0xD2#8, p] ∧ p.extractLsb' 4 4 = ~~~ p.extractLsb' 0 4)

/-- 45_sensor_procedures.md R240; 44_driver_procedures.md R224; 60_exceptions.md R266: the host's operation state changes only to
ERROR, where a position fails on the reply it waited for; to IDLE by the end of a reset sequence, by clearState or by
checkConversionStatus of a conversion; to CONVERTING_TEMPERATURE by the end of a startTemperatureConversion, and not
from ERROR. So only a reset sequence and clearState leave ERROR. The premise rules out hosts that stand where no
program comes to stand. -/
def Obligations.OpStateChangesByTransition : Prop :=
  ∀ s t : State, Inv s → step s = .next t →
    t.host.opState = s.host.opState
    ∨ (t.host.opState = .error ∧ ∃ k, hostWaits s k ∧ k.failsOn t.host.reply = true)
    ∨ (t.host.opState = .idle
        ∧ (hostWaits s .resetStatus ∨ hostCalls s .clearState
            ∨ hostCalls s .checkConversionStatus ∧ s.host.opState = .convertingTemperature))
    ∨ (t.host.opState = .convertingTemperature ∧ hostWaits s .startConvert ∧ s.host.opState ≠ .error)

/-- 10_state.md R44: the host's copy of the channel changes only at the end of a selectChannel, to a number in 0..7. -/
def Obligations.CurChannelWrittenBySelection : Prop :=
  ∀ s t : State, step s = .next t → t.host.curChannel ≠ s.host.curChannel →
    ∃ n : Channel, t.host.curChannel.toNat = n.val ∧ hostWaits s (.selectRead n)

/-- 10_state.md R42, 40_i2c_transport.md R99: no step changes the address or the environment's parameters, and none takes
anything out of the history. -/
def Obligations.AddressAndEnvironmentFixed : Prop :=
  ∀ s t : State, step s = .next t →
    t.host.addr = s.host.addr ∧ t.env.devicePresent = s.env.devicePresent ∧ t.env.busErrors = s.env.busErrors
    ∧ ∃ new, t.env.history = new ++ s.env.history

/-- 00_scope.md R16: in a fair run a pending operation does not stay pending. -/
def Obligations.FairRunEndsPending : Prop :=
  ∀ (run : Nat → State), IsRun run → FairRun run →
    ∀ n, (run n).dev.pending ≠ none → ∃ m, n ≤ m ∧ (run m).dev.pending = none

/-- 10_state.md R45; 45_sensor_procedures.md R241, R243, R244 (95_test_vectors.md EX8): the start time, readScratchpad's buffer
and readTemperature's variable are written only by the successful end of their procedure, with the clock's reading, the
nine bytes read and the temperature of the first two. -/
def Obligations.OutputsWrittenOnSuccessOnly : Prop :=
  ∀ s t : State, Inv s → step s = .next t →
    (t.host.convStart ≠ s.host.convStart →
      hostWaits s .startConvert ∧ t.host.reply = .ack ∧ t.host.opState = .convertingTemperature
        ∧ t.host.convStart = BitVec.ofNat 32 t.host.clock ∧ s.host.clock ≤ t.host.clock
        ∧ t.host.result = some (.bool true))
    ∧ (t.host.scratchOut ≠ s.host.scratchOut →
      ∃ got b, hostWaits s (.scratchByte got) ∧ hostWaits s .scratchOut ∧ t.host.reply = .data b ∧ got.length = 8
        ∧ t.host.scratchOut = got ++ [b] ∧ t.host.result = some (.bool true))
    ∧ (t.host.tempOut ≠ s.host.tempOut →
      ∃ b0 b1 more b, hostWaits s (.scratchByte (b0 :: b1 :: more)) ∧ hostWaits s .temperatureScratch
        ∧ t.host.reply = .data b ∧ more.length = 6 ∧ t.host.tempOut = decodeTemperature b0 b1
        ∧ t.host.result = some (.bool true))

/-- 44_driver_procedures.md R203: in a run with host fairness a busyWait returns to its caller: ready with the status byte that
ended it, where 1WB is 0 in it, or not ready with the byte of the last poll, or the sentinel 0xFF of a failed one. -/
def Obligations.BusyWaitReturns : Prop :=
  ∀ run : Nat → State, IsRun run → HostFairRun run → ∀ n ks rest, InBusyWait ks rest (run n) →
    ∃ m u ready, ∃ b : Byte, n ≤ m ∧ InBusyWait ks rest (run m) ∧ run (m + 1) = unwind rest ks (.pair ready b) u
      ∧ (u.host.reply = .data b ∨ u.host.reply = .fail ∧ b = 0xFF#8) ∧ b.getLsbD 0 = !ready

/-! ## Host procedures -/

/-- 44_driver_procedures.md R210; logs 10, 21: selectChannel of a number above 7 returns false at once, on a busy or settling
device too: no transaction, no state. That this is one step, and the result's record, are the model's. -/
def Obligations.SelectRejectsOutOfRange : Prop :=
  ∀ (s : State) (n : Byte) (rest : List Task), s.dev.fault = none → HostMoves s → 7 < n.toNat →
    s.host.prog = ⟨.call (.selectChannel n), []⟩ :: rest →
      step s = .next
        { s.afterChoice with host := { s.host with prog := rest, result := some (.bool false) } }
      ∧ s.afterChoice.dev = s.dev ∧ s.afterChoice.env.history = s.env.history

/-- 44_driver_procedures.md R211; logs 10, 14, 21: selectChannel(n) on an idle device: the call, CHSL, the settle step, the
delay, SRP and the readback; it succeeds and changes of the host only what is stated. The cut into these six steps and the
result's record are the model's. -/
def Obligations.SelectChannelSucceeds : Prop :=
  ∀ (s : State) (n : Channel) (rest : List Task), Live s → Quiet s →
    s.host.prog = ⟨.call (.selectChannel (BitVec.ofNat 8 n.val)), []⟩ :: rest →
      ∃ t, Host.Core.run Sys2Proof.core 6 s = .next t
        ∧ t.dev = { s.dev with channel := n, settling := false, readPtr := .channel }
        ∧ t.host =
          { s.host with
            curChannel := BitVec.ofNat 8 n.val
            reply := .data (chselReadback n)
            result := some (.bool true)
            prog := rest }

/-- 44_driver_procedures.md R211, 43_channel_select.md R176; logs 10, 21: the readback decides: the selection of n succeeds
exactly where the device has n selected, and a mismatch sets ERROR and leaves curChannel. That the readback and what
follows it are one step, and the result's record, are the model's. -/
def Obligations.SelectReadbackDecides : Prop :=
  ∀ (s : State) (n : Channel) (rest : List Task), Live s → Quiet s → s.dev.readPtr = .channel →
    s.host.prog = ⟨.txn .read, [.selectRead n]⟩ :: rest →
      ∃ t, step s = .next t ∧ t.host.prog = rest ∧ t.host.result = some (.bool (decide (s.dev.channel = n)))
        ∧ (s.dev.channel = n → t.host.curChannel = BitVec.ofNat 8 n.val ∧ t.host.opState = s.host.opState)
        ∧ (s.dev.channel ≠ n → t.host.curChannel = s.host.curChannel ∧ t.host.opState = .error)

/-- 44_driver_procedures.md R221, R222; logs 10, 21: reset(), begin() and wakeUp() on a present, idle device: the call, DRST,
the probe, the call of readStatus, SRP and the status read. They succeed, whatever the line level. The cut into these six
steps and the result's record are the model's. -/
def Obligations.ResetSequenceSucceeds : Prop :=
  ∀ (s : State) (p : Proc) (rest : List Task), Live s → Quiet s → p ∈ [Proc.reset, .begin, .wakeUp] →
    s.host.prog = ⟨.call p, []⟩ :: rest →
      ∃ t b, Host.Core.run Sys2Proof.core 6 s = .next t
        ∧ t.dev =
          { pending := none, ppd := false, sd := false, ll := t.dev.ll, rst := true, sbr := false, tsb := false
            dir := false, cfg := 0#4, channel := 0, readPtr := .status, readData := none, settling := false
            fault := none }
        ∧ t.host = { s.host with opState := .idle, reply := .data b, result := some (.bool true), prog := rest }

/-- 44_driver_procedures.md R202, R221, R222 (95_test_vectors.md EX5); logs 10, 21: without a device readStatus returns (false, 0xFF), and
reset(), begin() and wakeUp() return false and set ERROR, whatever the engine has in flight: the call, then, when the
host moves again, the failed transaction. This cut into two steps and the result's record are the model's. -/
def Obligations.AbsentDeviceFailsBegin : Prop :=
  ∀ (s : State) (p : Proc) (rest : List Task), s.dev.fault = none → HostMoves s → s.env.devicePresent = false →
    s.host.prog = ⟨.call p, []⟩ :: rest →
      (p ∈ [Proc.reset, .begin, .wakeUp] →
        ∃ s1, step s = .next s1 ∧ s1.dev = s.dev
          ∧ (HostMoves s1 → ∃ t, step s1 = .next t ∧ t.dev = s.dev
              ∧ t.host = { s.host with opState := .error, reply := .fail, result := some (.bool false), prog := rest }))
      ∧ (p = .readStatus →
        ∃ s1, step s = .next s1 ∧ s1.dev = s.dev
          ∧ (HostMoves s1 → ∃ t, step s1 = .next t ∧ t.dev = s.dev
              ∧ t.host = { s.host with reply := .fail, result := some (.pair false 0xFF#8), prog := rest }))

/-- 44_driver_procedures.md R203; logs 2, 10, 21: a poll of busyWait that sees 1WB clear returns ready with the status byte it read, while a
switch settles too; one that sees 1WB set times out with that byte, or goes on to the poll delay, by the draw after
those of the read. That the read and the decision are one step, and the result's record, are the model's. -/
def Obligations.BusyWaitDecidesOnBusyBit : Prop :=
  ∀ (s : State) (rest : List Task), Live s → HostMoves s → s.dev.readPtr = .status →
    s.host.prog = ⟨.txn .read, [.statusRead, .pollStatus]⟩ :: rest →
      (s.dev.pending = none →
        ∃ t b, step s = .next t ∧ b.getLsbD 0 = false
          ∧ t.host = { s.host with reply := .data b, prog := rest, result := some (.pair true b) })
      ∧ (∀ op, s.dev.pending = some op →
        ∃ t b timeout, step s = .next t ∧ b.getLsbD 0 = true
          ∧ (timeout = true →
              t.host = { s.host with reply := .data b, prog := rest, result := some (.pair false b) })
          ∧ (timeout = false →
              t.host = { s.host with reply := .data b, prog := ⟨.delay .poll, [.pollDelay]⟩ :: rest })
          ∧ ∀ draws x more, draws.length = op.resultDraws + 1 → s.env.script = draws ++ x :: more →
              timeout = (x % 2 == 1))

/-- 44_driver_procedures.md R204 (95_test_vectors.md EX6, EX7); logs 3, 10, 21: wireReset on an idle device whose operation
completes at once returns the presence the bus answered; without presence it sets ERROR. The count of eleven steps (a call
is a step of its own, local computation goes with the step before), the placed completion and the result's record are the
model's. -/
def Obligations.WireResetReportsPresence : Prop :=
  ∀ (s : State) (more : List Agent) (rest : List Task), Live s → Quiet s → s.env.sched = .engine :: more →
    s.host.prog = ⟨.call .wireReset, []⟩ :: rest →
      ∃ t p q, Host.Core.run Sys2Proof.core 11 s = .next t ∧ Event.busReset s.dev.channel p q ∈ t.env.history
        ∧ t.dev.pending = none ∧ t.dev.ppd = p ∧ t.dev.sd = q ∧ t.host.prog = rest ∧ t.host.result = some (.bool p)
        ∧ t.host.opState = if p then s.host.opState else .error

/-- 44_driver_procedures.md R207; logs 10, 21: wireWriteByte on an idle device returns true with the byte still in flight. The
count of six steps (a call is a step of its own, local computation goes with the step before) and the result's record are
the model's. -/
def Obligations.WireWriteByteLeavesByteInFlight : Prop :=
  ∀ (s : State) (b : Byte) (rest : List Task), Live s → Quiet s →
    s.host.prog = ⟨.call (.wireWriteByte b), []⟩ :: rest →
      ∃ t, Host.Core.run Sys2Proof.core 6 s = .next t
        ∧ t.dev =
          { s.dev with
            pending := some (.writeByte b s.dev.channel)
            ll := t.dev.ll
            readPtr := t.dev.readPtr }
        ∧ t.host = { s.host with reply := .ack, result := some (.bool true), prog := rest }

/-- 45_sensor_procedures.md R241 (95_test_vectors.md CV8, CV10); logs 10, 21: startTemperatureConversion returns false with no
transaction and no change of state from ERROR, and for a channel above 7, on a busy or settling device too. From ERROR
that is one step; for a channel above 7 the call and, when the host moves again, the call of selectChannel. -/
def Obligations.StartRefusedWithoutTraffic : Prop :=
  ∀ (s : State) (ch : Byte) (rest : List Task), s.dev.fault = none → HostMoves s →
    s.host.prog = ⟨.call (.startTemperatureConversion ch), []⟩ :: rest →
      (s.host.opState = .error →
        step s = .next
          { s.afterChoice with host := { s.host with prog := rest, result := some (.bool false) } })
      ∧ (s.host.opState ≠ .error → 7 < ch.toNat →
        ∃ s1, step s = .next s1 ∧ s1.dev = s.dev ∧ s1.env = s.afterChoice.env
          ∧ (HostMoves s1 → step s1 = .next
              { s1.afterChoice with host := { s.host with prog := rest, result := some (.bool false) } }))
      ∧ s.afterChoice.dev = s.dev ∧ s.afterChoice.env.history = s.env.history

/-- 45_sensor_procedures.md R242; logs 10, 13, 21: checkConversionStatus is false unless a conversion runs; then it is true, and
ends it, exactly where at least 750 ms have passed, modulo 2^32, since its start, on a busy or settling device too. No
transaction is made. -/
def Obligations.CheckConversionComparesTime : Prop :=
  ∀ (s : State) (rest : List Task), s.dev.fault = none → HostMoves s →
    s.host.prog = ⟨.call .checkConversionStatus, []⟩ :: rest →
      (s.host.opState ≠ .convertingTemperature →
        step s = .next
          { s.afterChoice with host := { s.host with prog := rest, result := some (.bool false) } })
      ∧ (s.host.opState = .convertingTemperature →
        ∃ t c, step s = .next t ∧ s.host.clock ≤ c ∧ t.dev = s.dev ∧ EnvAdds s.afterChoice t [.clock c]
          ∧ (750 ≤ (BitVec.ofNat 32 c - s.host.convStart).toNat →
              t.host = { s.host with clock := c, opState := .idle, prog := rest, result := some (.bool true) })
          ∧ ((BitVec.ofNat 32 c - s.host.convStart).toNat < 750 →
              t.host = { s.host with clock := c, prog := rest, result := some (.bool false) }))
      ∧ s.afterChoice.dev = s.dev ∧ s.afterChoice.env.history = s.env.history

/-- 45_sensor_procedures.md R241, R243, R244; logs 10, 15, 21: the last host step of each of the three procedures, where it
succeeds: the accepted convert-T byte records the clock's reading and starts CONVERTING_TEMPERATURE; the ninth byte of a
scratchpad read gives readScratchpad its nine bytes, or readTemperature the temperature of the first two. -/
def Obligations.SuccessWritesOutputs : Prop :=
  ∀ (s : State) (rest : List Task), Live s →
    (Quiet s → s.host.prog = ⟨.txn (.write [0xA5#8, 0x44#8]), [.writeByteSent, .startConvert]⟩ :: rest →
      ∃ t c, step s = .next t ∧ s.host.clock ≤ c
        ∧ t.host =
          { s.host with
            reply := .ack
            clock := c
            convStart := BitVec.ofNat 32 c
            opState := .convertingTemperature
            result := some (.bool true)
            prog := rest })
    ∧ ∀ (got : List Byte) (b : Byte), HostMoves s → s.dev.readPtr = .readData → s.dev.readData = some b →
        (∀ ch, s.dev.pending ≠ some (.readByte ch)) → got.length = 8 →
      (s.host.prog = ⟨.txn .read, [.readByteFetched, .scratchByte got, .scratchOut]⟩ :: rest →
        ∃ t, step s = .next t
          ∧ t.host =
            { s.host with reply := .data b, scratchOut := got ++ [b], result := some (.bool true), prog := rest })
      ∧ (∀ b0 b1 more, got = b0 :: b1 :: more →
        s.host.prog = ⟨.txn .read, [.readByteFetched, .scratchByte got, .temperatureScratch]⟩ :: rest →
        ∃ t, step s = .next t
          ∧ t.host =
            { s.host with
              reply := .data b
              tempOut := decodeTemperature b0 b1
              result := some (.bool true)
              prog := rest })

/-- 45_sensor_procedures.md R245, R246: the decoded temperature is raw/16 exactly, where raw is the 16-bit two's-complement
value with byte 0 the low byte. -/
def Obligations.DecodeTemperatureExact : Prop :=
  ∀ b0 b1 : Byte,
    binary32Value (decodeTemperature b0 b1) =
      (((b1.toNat * 256 + b0.toNat : ℕ) : ℚ) - (if 128 ≤ b1.toNat then 65536 else 0)) / 16
end

