-- ==== Sys2Proof/Laws/Decode.lean ====
section
/-! SUPPORT. The command map read backwards. -/

namespace Sys2Proof

/-- Which code has which CMD1 instruction. -/
theorem commandFormat_cmd1 {c : Byte} {i : Instr} (h : commandFormat c = some (.cmd1 i)) :
    (c = 0xF0#8 ∧ i = .drst) ∨ (c = 0xB4#8 ∧ i = .w1rs) ∨ (c = 0x96#8 ∧ i = .w1rb) := by
  unfold commandFormat at h
  repeat' split at h
  all_goals first
    | (cases h; simp_all)
    | cases h

/-- Which code has which CMD2 instruction. -/
theorem commandFormat_cmd2 {c : Byte} {f : Byte → Instr} (h : commandFormat c = some (.cmd2 f)) :
    (c = 0xE1#8 ∧ f = .srp) ∨ (c = 0xD2#8 ∧ f = .wcfg) ∨ (c = 0xC3#8 ∧ f = .chsl) ∨ (c = 0xA5#8 ∧ f = .w1wb)
      ∨ (c = 0x87#8 ∧ f = .w1sb) ∨ (c = 0x78#8 ∧ f = .w1t) := by
  unfold commandFormat at h
  repeat' split at h
  all_goals first
    | (cases h; simp_all)
    | cases h

/-- A write that decodes has one byte, a CMD1 code, or two, a CMD2 code and its parameter. -/
theorem decodeWrite_ok {bytes : List Byte} {i : Instr} (h : decodeWrite bytes = .ok i) :
    (∃ c, bytes = [c] ∧ commandFormat c = some (.cmd1 i))
      ∨ ∃ c p f, bytes = [c, p] ∧ commandFormat c = some (.cmd2 f) ∧ i = f p := by
  unfold decodeWrite at h
  split at h
  · cases h
  · split at h
    · cases h
    · cases h; exact .inl ⟨_, rfl, ‹_›⟩
    · cases h; exact .inr ⟨_, _, _, rfl, ‹_›, rfl⟩
    · cases h

/-- A code that selects a channel is that channel's (R171). -/
theorem chselCode_of_channelOf {c : Byte} {n : Channel} (h : channelOf c = some n) : chselCode n = c := by
  simpa using List.find?_some h

/-- Every channel's code selects it. -/
theorem channelOf_chselCode : ∀ n : Channel, channelOf (chselCode n) = some n := by decide

end Sys2Proof
end

