-- ==== Sys2Proof/Laws/State.lean ====
section
/-! SUPPORT. What each named update does to each part of the state, by rfl. -/

namespace Sys2Proof.Machine

@[simp] theorem raise_dev (s : State) (r : Fault) : (s.raise r).dev = { s.dev with fault := some r } := rfl
@[simp] theorem raise_host (s : State) (r : Fault) : (s.raise r).host = s.host := rfl
@[simp] theorem raise_env (s : State) (r : Fault) : (s.raise r).env = s.env := rfl

@[simp] theorem record_dev (s : State) (e : Event) : (s.record e).dev = s.dev := rfl
@[simp] theorem record_host (s : State) (e : Event) : (s.record e).host = s.host := rfl
@[simp] theorem record_env (s : State) (e : Event) :
    (s.record e).env = { s.env with history := e :: s.env.history } := rfl

@[simp] theorem issue_dev (s : State) (t : Txn) : (s.issue t).dev = s.dev := rfl
@[simp] theorem issue_host (s : State) (t : Txn) : (s.issue t).host = s.host := rfl
@[simp] theorem issue_env (s : State) (t : Txn) :
    (s.issue t).env = { s.env with history := sent s t :: s.env.history } := rfl

@[simp] theorem enterError_dev (s : State) : s.enterError.dev = s.dev := rfl
@[simp] theorem enterError_host (s : State) : s.enterError.host = { s.host with opState := .error } := rfl
@[simp] theorem enterError_env (s : State) : s.enterError.env = s.env := rfl

@[simp] theorem enterIdle_dev (s : State) : s.enterIdle.dev = s.dev := rfl
@[simp] theorem enterIdle_host (s : State) : s.enterIdle.host = { s.host with opState := .idle } := rfl
@[simp] theorem enterIdle_env (s : State) : s.enterIdle.env = s.env := rfl

@[simp] theorem setPresence_dev (s : State) (p q : Bool) :
    (s.setPresence p q).dev = { s.dev with ppd := p, sd := q } := rfl
@[simp] theorem setPresence_host (s : State) (p q : Bool) : (s.setPresence p q).host = s.host := rfl
@[simp] theorem setPresence_env (s : State) (p q : Bool) : (s.setPresence p q).env = s.env := rfl

@[simp] theorem setSingleBit_dev (s : State) (b : Bool) : (s.setSingleBit b).dev = { s.dev with sbr := b } := rfl
@[simp] theorem setSingleBit_host (s : State) (b : Bool) : (s.setSingleBit b).host = s.host := rfl
@[simp] theorem setSingleBit_env (s : State) (b : Bool) : (s.setSingleBit b).env = s.env := rfl

@[simp] theorem setTriplet_dev (s : State) (a b c : Bool) :
    (s.setTriplet a b c).dev = { s.dev with sbr := a, tsb := b, dir := c } := rfl
@[simp] theorem setTriplet_host (s : State) (a b c : Bool) : (s.setTriplet a b c).host = s.host := rfl
@[simp] theorem setTriplet_env (s : State) (a b c : Bool) : (s.setTriplet a b c).env = s.env := rfl

@[simp] theorem setLevel_dev (s : State) (l : Bool) : (s.setLevel l).dev = { s.dev with ll := l } := rfl
@[simp] theorem setLevel_host (s : State) (l : Bool) : (s.setLevel l).host = s.host := rfl
@[simp] theorem setLevel_env (s : State) (l : Bool) : (s.setLevel l).env = s.env := rfl

@[simp] theorem settle_dev (s : State) : s.settle.dev = { s.dev with settling := false } := rfl
@[simp] theorem settle_host (s : State) : s.settle.host = s.host := rfl
@[simp] theorem settle_env (s : State) : s.settle.env = s.env := rfl

end Sys2Proof.Machine
end

