-- ==== Sys2Proof/Laws/Ops.lean ====
section
/-! SUPPORT. What each shared operation can do: draws, bus questions, transactions, commands. -/

namespace Sys2Proof.Machine

/-! ## Draws -/

@[simp] theorem draw_dev (s : State) : s.draw.2.dev = s.dev := by unfold State.draw; split <;> rfl
@[simp] theorem draw_host (s : State) : s.draw.2.host = s.host := by unfold State.draw; split <;> rfl
@[simp] theorem draw_history (s : State) : s.draw.2.env.history = s.env.history := by
  unfold State.draw; split <;> rfl
@[simp] theorem draw_present (s : State) : s.draw.2.env.devicePresent = s.env.devicePresent := by
  unfold State.draw; split <;> rfl
@[simp] theorem draw_errors (s : State) : s.draw.2.env.busErrors = s.env.busErrors := by
  unfold State.draw; split <;> rfl
@[simp] theorem draw_sched (s : State) : s.draw.2.env.sched = s.env.sched := by
  unfold State.draw; split <;> rfl

/-- A draw takes the first input placed in advance. -/
theorem draw_of_script (s : State) (v : Nat) (vs : List Nat) (h : s.env.script = v :: vs) :
    s.draw = (v, { s with env.script := vs }) := by
  unfold State.draw; rw [h]

@[simp] theorem drawBool_snd (s : State) : s.drawBool.2 = s.draw.2 := rfl
@[simp] theorem drawByte_snd (s : State) : s.drawByte.2 = s.draw.2 := rfl

@[simp] theorem drawReadPtr_dev (s : State) :
    s.drawReadPtr.dev = { s.dev with readPtr := regOfNat s.draw.1 } := by simp [State.drawReadPtr]
@[simp] theorem drawReadPtr_host (s : State) : s.drawReadPtr.host = s.host := by simp [State.drawReadPtr]
@[simp] theorem drawReadPtr_env (s : State) : s.drawReadPtr.env = s.draw.2.env := rfl

/-! ## The bus oracle -/

@[simp] theorem busReset_dev (s : State) (ch : Channel) : (s.busReset ch).2.dev = s.dev := by
  simp [State.busReset]
@[simp] theorem busReset_host (s : State) (ch : Channel) : (s.busReset ch).2.host = s.host := by
  simp [State.busReset]

/-- A reset and presence cycle leaves its answer in the history. -/
theorem busReset_env (s : State) (ch : Channel) :
    EnvAdds s (s.busReset ch).2 [.busReset ch (s.busReset ch).1.1 (s.busReset ch).1.2] := by
  simp [State.busReset, EnvAdds]

@[simp] theorem busSlot_dev (s : State) (ch : Channel) (v : Bool) : (s.busSlot ch v).2.dev = s.dev := by
  unfold State.busSlot; split <;> simp
@[simp] theorem busSlot_host (s : State) (ch : Channel) (v : Bool) : (s.busSlot ch v).2.host = s.host := by
  unfold State.busSlot; split <;> simp

/-- A slot leaves its value and its sample in the history. -/
theorem busSlot_env (s : State) (ch : Channel) (v : Bool) :
    EnvAdds s (s.busSlot ch v).2 [.busSlot ch v (s.busSlot ch v).1] := by
  cases v <;> simp [State.busSlot, EnvAdds]

/-- The law of the bus: a 0 slot samples 0 (R38). -/
@[simp] theorem busSlot_zero (s : State) (ch : Channel) : (s.busSlot ch false).1 = false := rfl

@[simp] theorem busLevel_dev (s : State) (ch : Channel) : (s.busLevel ch).2.dev = s.dev := by
  simp [State.busLevel]
@[simp] theorem busLevel_host (s : State) (ch : Channel) : (s.busLevel ch).2.host = s.host := by
  simp [State.busLevel]

/-- A level question leaves its answer in the history. -/
theorem busLevel_env (s : State) (ch : Channel) :
    EnvAdds s (s.busLevel ch).2 [.busLevel ch (s.busLevel ch).1] := by
  simp [State.busLevel, EnvAdds]

theorem envAdds_trans {s t u : State} {a b : List Event} (h : EnvAdds s t a) (k : EnvAdds t u b) :
    EnvAdds s u (b ++ a) := by
  obtain ⟨h1, h2, h3, h4⟩ := h
  obtain ⟨k1, k2, k3, k4⟩ := k
  exact ⟨k1.trans h1, k2.trans h2, k3.trans h3, by rw [k4, h4, List.append_assoc]⟩

/-! ## Transactions -/

@[simp] theorem answer_dev (s : State) (r : Reply) : (s.answer r).dev = s.dev := by
  unfold State.answer; split <;> rfl
@[simp] theorem answer_env (s : State) (r : Reply) : (s.answer r).env = s.env := by
  unfold State.answer; split <;> rfl

theorem answer_of_unfaulted (s : State) (r : Reply) (h : s.dev.fault = none) :
    s.answer r = { s with host.reply := r } := by
  unfold State.answer; rw [h]

theorem answer_of_faulted (s : State) (r : Reply) (f : Fault) (h : s.dev.fault = some f) : s.answer r = s := by
  unfold State.answer; rw [h]

/-- The reply is all of the host's state that the end of a transaction writes. -/
theorem answer_host (s : State) (r : Reply) :
    (s.answer r).host = { s.host with reply := (s.answer r).host.reply } := by
  unfold State.answer; split <;> rfl

/-- Without bus errors a present device executes the write and acknowledges it. -/
theorem i2cWrite_of_live (s : State) (bytes : List Byte) (execute : State → State) (h : Live s) :
    s.i2cWrite bytes execute = (execute (s.issue (.write bytes))).answer .ack := by
  obtain ⟨-, h1, h2⟩ := h
  simp [State.i2cWrite, h1, h2]

/-- Without bus errors a present device answers the read. -/
theorem i2cRead_of_live (s : State) (memRead : State → Byte × State) (h : Live s) :
    s.i2cRead memRead = (memRead (s.issue .read)).2.answer (.data (memRead (s.issue .read)).1) := by
  obtain ⟨-, h1, h2⟩ := h
  simp [State.i2cRead, h1, h2]

/-- A write transaction, whatever the transport does, either executes once or not at all, from a state that differs
from the start by draws and the history entry only. -/
theorem i2cWrite_cases (s : State) (bytes : List Byte) (execute : State → State) :
    ∃ d r, d.dev = s.dev ∧ d.host = s.host ∧ EnvAdds s d [sent s (.write bytes)]
      ∧ (s.i2cWrite bytes execute = d.answer r ∨ s.i2cWrite bytes execute = (execute d).answer r) := by
  unfold State.i2cWrite
  dsimp only
  split
  · split
    · split
      · split
        · exact ⟨_, .fail, by simp, by simp, by simp [EnvAdds], .inr rfl⟩
        · exact ⟨_, .fail, by simp, by simp, by simp [EnvAdds], .inl rfl⟩
      · exact ⟨_, .ack, by simp, by simp, by simp [EnvAdds], .inr rfl⟩
    · exact ⟨s.issue (.write bytes), .ack, rfl, rfl, ⟨rfl, rfl, rfl, rfl⟩, .inr rfl⟩
  · exact ⟨s.issue (.write bytes), .fail, rfl, rfl, ⟨rfl, rfl, rfl, rfl⟩, .inl rfl⟩

/-- A failed read: LL at most changes, and that only where the pointer is STATUS. -/
theorem failedRead_dev (s : State) : s.failedRead.dev = { s.dev with ll := s.failedRead.dev.ll } := by
  unfold State.failedRead; split <;> simp
theorem failedRead_of_status (s : State) (h : s.dev.readPtr = .status) :
    s.failedRead.dev = { s.dev with ll := s.drawBool.1 } := by
  unfold State.failedRead; rw [if_pos h]; simp
theorem failedRead_of_other (s : State) (h : s.dev.readPtr ≠ .status) : s.failedRead = s := by
  unfold State.failedRead; rw [if_neg h]
@[simp] theorem failedRead_host (s : State) : s.failedRead.host = s.host := by
  unfold State.failedRead; split <;> simp
theorem failedRead_env (s : State) : EnvAdds s s.failedRead [] := by
  unfold State.failedRead; split <;> simp [EnvAdds]

/-- A read transaction either answers from the register read decode or fails, and then only LL may differ. -/
theorem i2cRead_cases (s : State) (memRead : State → Byte × State) :
    ∃ d r, d.dev = { s.dev with ll := d.dev.ll } ∧ d.host = s.host ∧ EnvAdds s d [sent s .read]
      ∧ (s.i2cRead memRead = d.answer r ∨ (d.dev = s.dev ∧ s.i2cRead memRead = (memRead d).2.answer r)) := by
  unfold State.i2cRead
  dsimp only
  split
  · split
    · split
      · refine ⟨_, .fail, ?_, by simp, ?_, .inl rfl⟩
        · have h := failedRead_dev (s.issue .read).drawBool.2
          rw [drawBool_snd, draw_dev, issue_dev] at h
          exact h
        · have h := failedRead_env (s.issue .read).drawBool.2
          simpa [EnvAdds] using h
      · exact ⟨(s.issue .read).drawBool.2, _, by simp, by simp, by simp [EnvAdds], .inr ⟨by simp, rfl⟩⟩
    · exact ⟨s.issue .read, _, rfl, rfl, ⟨rfl, rfl, rfl, rfl⟩, .inr ⟨rfl, rfl⟩⟩
  · exact ⟨s.issue .read, .fail, rfl, rfl, ⟨rfl, rfl, rfl, rfl⟩, .inl rfl⟩

/-! ## Commands -/

theorem command_of_quiet (s : State) (cmd : Byte) (gated redraw : Bool) (effect : State → Except Fault State)
    (h : Quiet s) :
    s.command cmd gated redraw effect =
      match effect s with
      | .error r => s.raise r
      | .ok t => if redraw then t.drawReadPtr else t := by
  obtain ⟨h1, h2⟩ := h
  cases gated <;> cases he : effect s <;> simp [State.command, h1, h2, he]

theorem command_ungated (s : State) (cmd : Byte) (redraw : Bool) (effect : State → Except Fault State) :
    s.command cmd false redraw effect =
      match effect s with
      | .error r => s.raise r
      | .ok t => if redraw then t.drawReadPtr else t := by
  cases he : effect s <;> simp [State.command, he]

theorem command_of_busy (s : State) (cmd : Byte) (redraw : Bool) (effect : State → Except Fault State) (op : Op)
    (h : s.dev.pending = some op) : s.command cmd true redraw effect = s.raise (.busyViolation cmd op) := by
  simp [State.command, h]

theorem command_of_settling (s : State) (cmd : Byte) (redraw : Bool) (effect : State → Except Fault State)
    (h : s.dev.pending = none) (k : s.dev.settling = true) :
    s.command cmd true redraw effect = s.raise (.settleViolation cmd) := by
  simp [State.command, h, k]

/-- A command raises a fault, or has its effect; a gated one has it only where nothing is in flight. -/
theorem command_cases (s : State) (cmd : Byte) (gated redraw : Bool) (effect : State → Except Fault State) :
    (∃ r, s.command cmd gated redraw effect = s.raise r)
      ∨ ∃ t, effect s = .ok t ∧ (gated = true → Quiet s)
          ∧ s.command cmd gated redraw effect = if redraw then t.drawReadPtr else t := by
  unfold State.command
  split
  · exact .inl ⟨_, rfl⟩
  · exact .inl ⟨_, rfl⟩
  · rename_i h1 h2
    cases he : effect s with
    | error r => exact .inl ⟨r, rfl⟩
    | ok t =>
      refine .inr ⟨t, rfl, fun hg => ?_, rfl⟩
      subst hg
      cases hp : s.dev.pending with
      | some op => exact absurd rfl (h1 op · hp)
      | none =>
        cases hs : s.dev.settling with
        | false => exact ⟨hp, hs⟩
        | true => exact absurd hs (h2 rfl hp)

/-! ## Steps of the command interface -/

theorem unlessFaulted_of_unfaulted (s : State) (body : State → State) (h : s.dev.fault = none) :
    unlessFaulted s body = .next (body s) := by
  unfold unlessFaulted; rw [h]

theorem unlessFaulted_next {s t : State} {body : State → State} (h : unlessFaulted s body = .next t) :
    s.dev.fault = none ∧ t = body s := by
  unfold unlessFaulted at h
  split at h
  · cases h
  · cases h; exact ⟨‹_›, rfl⟩

/-- A command that goes through. -/
theorem execCommand_of_live (s : State) (bytes : List Byte) (cmd : Byte) (gated redraw : Bool)
    (effect : State → Except Fault State) (h : Live s) :
    execCommand s bytes cmd gated redraw effect =
      .next (((s.issue (.write bytes)).command cmd gated redraw effect).answer .ack) := by
  rw [execCommand, unlessFaulted_of_unfaulted _ _ h.1, i2cWrite_of_live _ _ _ h]

/-- A command that goes through and whose effect happens: the reply is Ack. -/
theorem execCommand_ok {s t : State} {bytes : List Byte} {cmd : Byte} {gated redraw : Bool}
    {effect : State → Except Fault State} (h : Live s) (hq : gated = true → Quiet s)
    (ht : effect (s.issue (.write bytes)) = .ok t) (hf : t.dev.fault = none) :
    execCommand s bytes cmd gated redraw effect =
      .next { (if redraw then t.drawReadPtr else t) with
        host := { (if redraw then t.drawReadPtr else t).host with reply := .ack } } := by
  rw [execCommand_of_live _ _ _ _ _ _ h]
  have hc : (s.issue (.write bytes)).command cmd gated redraw effect = if redraw then t.drawReadPtr else t := by
    cases gated with
    | false => rw [command_ungated, ht]
    | true => rw [command_of_quiet _ _ _ _ _ (show Quiet (s.issue _) from hq rfl), ht]
  rw [hc, answer_of_unfaulted]
  cases redraw <;> simp [hf]

/-- A command that goes through and whose parameter is illegal: the mark is set, nothing is answered. -/
theorem execCommand_error {s : State} {bytes : List Byte} {cmd : Byte} {gated redraw : Bool}
    {effect : State → Except Fault State} {r : Fault} (h : Live s) (hq : gated = true → Quiet s)
    (ht : effect (s.issue (.write bytes)) = .error r) :
    execCommand s bytes cmd gated redraw effect = .next ((s.issue (.write bytes)).raise r) := by
  rw [execCommand_of_live _ _ _ _ _ _ h]
  have hc : (s.issue (.write bytes)).command cmd gated redraw effect = (s.issue (.write bytes)).raise r := by
    cases gated with
    | false => rw [command_ungated, ht]
    | true => rw [command_of_quiet _ _ _ _ _ (show Quiet (s.issue _) from hq rfl), ht]
  rw [hc, answer_of_faulted _ _ r rfl]

theorem andThen_next {o : StepResult} {f : State → State} {t : State} (h : andThen o f = .next t) :
    ∃ u, o = .next u ∧ t = f u := by
  cases o with
  | next u => cases h; exact ⟨u, rfl, rfl⟩
  | fault r => cases h
  | refused r => cases h

end Sys2Proof.Machine
end

