-- ==== Sys2Proof/Laws/Device.lean ====
section
/-! SUPPORT. What the device's operations can do: the device reset, the register read decode, the 1-Wire slots, the engine's
step. -/

namespace Sys2Proof.Machine

/-! ## The status byte -/

/-- The bits of the status byte (R21, R39). -/
theorem statusByte_bits (d : Device) :
    d.statusByte.getLsbD 7 = d.dir ∧ d.statusByte.getLsbD 6 = d.tsb ∧ d.statusByte.getLsbD 5 = d.sbr
      ∧ d.statusByte.getLsbD 4 = d.rst ∧ d.statusByte.getLsbD 3 = d.ll ∧ d.statusByte.getLsbD 2 = d.sd
      ∧ d.statusByte.getLsbD 1 = d.ppd ∧ d.statusByte.getLsbD 0 = d.pending.isSome := by
  unfold Device.statusByte Device.busy
  generalize d.dir = b7
  generalize d.tsb = b6
  generalize d.sbr = b5
  generalize d.rst = b4
  generalize d.ll = b3
  generalize d.sd = b2
  generalize d.ppd = b1
  generalize d.pending.isSome = b0
  revert b0 b1 b2 b3 b4 b5 b6 b7
  decide

@[simp] theorem statusByte_dir (d : Device) : d.statusByte[7] = d.dir := (statusByte_bits d).1
@[simp] theorem statusByte_tsb (d : Device) : d.statusByte[6] = d.tsb := (statusByte_bits d).2.1
@[simp] theorem statusByte_sbr (d : Device) : d.statusByte[5] = d.sbr := (statusByte_bits d).2.2.1
@[simp] theorem statusByte_rst (d : Device) : d.statusByte[4] = d.rst := (statusByte_bits d).2.2.2.1
@[simp] theorem statusByte_ll (d : Device) : d.statusByte[3] = d.ll := (statusByte_bits d).2.2.2.2.1
@[simp] theorem statusByte_sd (d : Device) : d.statusByte[2] = d.sd := (statusByte_bits d).2.2.2.2.2.1
@[simp] theorem statusByte_ppd (d : Device) : d.statusByte[1] = d.ppd := (statusByte_bits d).2.2.2.2.2.2.1
@[simp] theorem statusByte_busy (d : Device) : d.statusByte[0] = d.pending.isSome :=
  (statusByte_bits d).2.2.2.2.2.2.2

/-! ## Device reset -/

@[simp] theorem deviceReset_dev (s : State) :
    s.deviceReset.dev =
      { pending := none, ppd := false, sd := false, ll := s.drawBool.1, rst := true, sbr := false, tsb := false
        dir := false, cfg := 0#4, channel := 0, readPtr := s.dev.readPtr, readData := none, settling := false
        fault := s.dev.fault } := by
  simp [State.deviceReset]
@[simp] theorem deviceReset_host (s : State) : s.deviceReset.host = s.host := by simp [State.deviceReset]
@[simp] theorem deviceReset_env (s : State) : s.deviceReset.env = s.draw.2.env := rfl

/-! ## The register read decode -/

@[simp] theorem shownStatus_dev (s : State) : s.shownStatus.2.dev = s.dev := by
  unfold State.shownStatus; split <;> simp
@[simp] theorem shownStatus_host (s : State) : s.shownStatus.2.host = s.host := by
  unfold State.shownStatus; split <;> simp
theorem shownStatus_env (s : State) : EnvAdds s s.shownStatus.2 [] := by
  unfold State.shownStatus; split <;> simp [EnvAdds]

/-- With nothing pending the stored status byte is shown. -/
theorem shownStatus_of_idle (s : State) (h : s.dev.pending = none) : s.shownStatus = (s.dev.statusByte, s) := by
  simp [State.shownStatus, h]

theorem readStatus_dev (s : State) :
    s.readStatus.2.dev = { s.dev with ll := (s.busLevel s.dev.channel).1 } := by
  simp [State.readStatus]
@[simp] theorem readStatus_host (s : State) : s.readStatus.2.host = s.host := by simp [State.readStatus]
theorem readStatus_env (s : State) :
    EnvAdds s s.readStatus.2 [.busLevel s.dev.channel (s.busLevel s.dev.channel).1] := by
  have h := envAdds_trans (busLevel_env s s.dev.channel)
    (shownStatus_env ((s.busLevel s.dev.channel).2.setLevel (s.busLevel s.dev.channel).1))
  exact h

@[simp] theorem readReadData_dev (s : State) : s.readReadData.2.dev = s.dev := by
  unfold State.readReadData; split <;> simp
@[simp] theorem readReadData_host (s : State) : s.readReadData.2.host = s.host := by
  unfold State.readReadData; split <;> simp
theorem readReadData_env (s : State) : EnvAdds s s.readReadData.2 [] := by
  unfold State.readReadData; split <;> simp [EnvAdds]

@[simp] theorem readChannel_dev (s : State) : s.readChannel.2.dev = s.dev := by
  unfold State.readChannel; split <;> simp
@[simp] theorem readChannel_host (s : State) : s.readChannel.2.host = s.host := by
  unfold State.readChannel; split <;> simp
theorem readChannel_env (s : State) : EnvAdds s s.readChannel.2 [] := by
  unfold State.readChannel; split <;> simp [EnvAdds]

/-- A register read changes LL at most, and that only where the pointer is STATUS (20_memory.md R69). -/
theorem memRead_dev (s : State) :
    s.memRead.2.dev = { s.dev with ll := s.memRead.2.dev.ll }
      ∧ (s.dev.readPtr ≠ .status → s.memRead.2.dev = s.dev) := by
  unfold State.memRead
  cases h : s.dev.readPtr with
  | status => exact ⟨by simp [readStatus_dev], fun hn => absurd rfl hn⟩
  | readData => exact ⟨by simp, fun _ => by simp⟩
  | channel => exact ⟨by simp, fun _ => by simp⟩
  | config => exact ⟨rfl, fun _ => rfl⟩

@[simp] theorem memRead_host (s : State) : s.memRead.2.host = s.host := by
  unfold State.memRead; split <;> simp [State.readConfig]

/-- A register read leaves at most one level question in the history. -/
theorem memRead_env (s : State) :
    ∃ new, EnvAdds s s.memRead.2 new ∧ ∀ e ∈ new, ∃ ch l, e = .busLevel ch l := by
  unfold State.memRead
  split
  · exact ⟨_, readStatus_env s, fun e he => ⟨_, _, List.mem_singleton.mp he⟩⟩
  · exact ⟨[], readReadData_env s, by simp⟩
  · exact ⟨[], readChannel_env s, by simp⟩
  · exact ⟨[], ⟨rfl, rfl, rfl, rfl⟩, by simp⟩

/-- A register read that goes through answers the byte of the register read decode. -/
theorem execRd_of_live {s : State} (h : Live s) :
    execRd s = .next
      { (s.issue .read).memRead.2 with
        host := { s.host with reply := .data (s.issue .read).memRead.1 } } := by
  rw [execRd, unlessFaulted_of_unfaulted _ _ h.1, i2cRead_of_live _ _ h, answer_of_unfaulted, memRead_host, issue_host]
  rw [(memRead_dev _).1]
  exact h.1

/-! ## 1-Wire slots -/

@[simp] theorem sendBits_dev (ch : Channel) (b : Byte) (order : List Nat) (s : State) :
    (sendBits ch b order s).dev = s.dev := by
  induction order generalizing s with
  | nil => rfl
  | cons i rest ih => simp [sendBits, ih]

@[simp] theorem sendBits_host (ch : Channel) (b : Byte) (order : List Nat) (s : State) :
    (sendBits ch b order s).host = s.host := by
  induction order generalizing s with
  | nil => rfl
  | cons i rest ih => simp [sendBits, ih]

/-- The slots that send a byte stand in the history in the order they were sent, newest first, each with the bit it
carried and a sample that obeys the law of the bus. -/
theorem sendBits_env (ch : Channel) (b : Byte) (order : List Nat) (s : State) :
    ∃ samples : List (Nat × Bool), samples.map Prod.fst = order
      ∧ (∀ p ∈ samples, b.getLsbD p.1 = false → p.2 = false)
      ∧ EnvAdds s (sendBits ch b order s) (samples.reverse.map fun p => .busSlot ch (b.getLsbD p.1) p.2) := by
  induction order generalizing s with
  | nil => exact ⟨[], rfl, by simp, rfl, rfl, rfl, rfl⟩
  | cons i rest ih =>
    obtain ⟨l, h1, h2, h3⟩ := ih (s.busSlot ch (b.getLsbD i)).2
    refine ⟨(i, (s.busSlot ch (b.getLsbD i)).1) :: l, by simp [h1], ?_, ?_⟩
    · intro p hp hb
      rcases List.mem_cons.mp hp with rfl | hp
      · dsimp only at hb ⊢
        rw [hb]; rfl
      · exact h2 p hp hb
    · have h := envAdds_trans (busSlot_env s ch (b.getLsbD i)) h3
      simpa [sendBits] using h

@[simp] theorem receiveBits_dev (ch : Channel) (order : List Nat) (r : Byte) (s : State) :
    (receiveBits ch order r s).2.dev = s.dev := by
  induction order generalizing r s with
  | nil => rfl
  | cons i rest ih => simp [receiveBits, ih]

@[simp] theorem receiveBits_host (ch : Channel) (order : List Nat) (r : Byte) (s : State) :
    (receiveBits ch order r s).2.host = s.host := by
  induction order generalizing r s with
  | nil => rfl
  | cons i rest ih => simp [receiveBits, ih]

theorem getLsbD_bitByte_shift (b : Bool) (i j : Nat) :
    (bitByte b <<< i : Byte).getLsbD j = (decide (j = i) && decide (j < 8) && b) := by
  cases b
  · simp [bitByte]
  · simp only [bitByte, if_true, BitVec.getLsbD_shiftLeft, BitVec.getLsbD_one]
    by_cases h1 : j < 8 <;> by_cases h2 : j < i <;> by_cases h3 : j = i <;> simp [h1, h2, h3]; all_goals omega

/-- Each read slot's sample becomes the bit of its number, and the other bits stay. -/
theorem receiveBits_env (ch : Channel) (order : List Nat) (r : Byte) (s : State)
    (hn : order.Nodup) (h8 : ∀ i ∈ order, i < 8) (h0 : ∀ i ∈ order, r.getLsbD i = false) :
    EnvAdds s (receiveBits ch order r s).2
        (order.reverse.map fun i => .busSlot ch true ((receiveBits ch order r s).1.getLsbD i))
      ∧ ∀ j, j ∉ order → (receiveBits ch order r s).1.getLsbD j = r.getLsbD j := by
  induction order generalizing r s with
  | nil => exact ⟨⟨rfl, rfl, rfl, rfl⟩, fun _ _ => rfl⟩
  | cons i rest ih =>
    have hi : i ∉ rest := (List.nodup_cons.mp hn).1
    have h := ih (r ||| (bitByte (s.busSlot ch true).1 <<< i)) (s.busSlot ch true).2 (List.nodup_cons.mp hn).2
      (fun j hj => h8 j (List.mem_cons_of_mem _ hj))
      (fun j hj => by
        have hji : j ≠ i := fun e => hi (e ▸ hj)
        rw [BitVec.getLsbD_or, getLsbD_bitByte_shift, h0 j (List.mem_cons_of_mem _ hj)]
        simp [hji])
    have hbit : (receiveBits ch (i :: rest) r s).1.getLsbD i = (s.busSlot ch true).1 := by
      show (receiveBits ch rest _ _).1.getLsbD i = _
      rw [h.2 i hi, BitVec.getLsbD_or, getLsbD_bitByte_shift, h0 i List.mem_cons_self]
      simp [h8 i List.mem_cons_self]
    refine ⟨?_, fun j hj => ?_⟩
    · have h' := envAdds_trans (busSlot_env s ch true) h.1
      rw [List.reverse_cons, List.map_append, List.map_singleton, hbit]
      exact h'
    · show (receiveBits ch rest _ _).1.getLsbD j = _
      have hji : j ≠ i := fun e => hj (e ▸ List.mem_cons_self)
      rw [h.2 j (fun hm => hj (List.mem_cons_of_mem _ hm)), BitVec.getLsbD_or, getLsbD_bitByte_shift]
      simp [hji]

/-! ## The engine -/

@[simp] theorem runOp_host (s : State) (op : Op) : (s.runOp op).host = s.host := by
  cases op <;>
    simp [State.runOp, State.completeReset, State.completeBit, State.completeWriteByte, State.completeReadByte,
      State.completeTriplet]

/-- The fields of the device that no completion writes. -/
theorem runOp_dev (s : State) (op : Op) :
    (s.runOp op).dev =
      { s.dev with
        ppd := (s.runOp op).dev.ppd, sd := (s.runOp op).dev.sd, sbr := (s.runOp op).dev.sbr
        tsb := (s.runOp op).dev.tsb, dir := (s.runOp op).dev.dir, readData := (s.runOp op).dev.readData } := by
  cases op <;>
    simp [State.runOp, State.completeReset, State.completeBit, State.completeWriteByte, State.completeReadByte,
      State.completeTriplet]

@[simp] theorem drawSpu_host (s : State) : s.drawSpu.host = s.host := by
  unfold State.drawSpu; split <;> simp
theorem drawSpu_env (s : State) : EnvAdds s s.drawSpu [] := by
  unfold State.drawSpu; split <;> simp [EnvAdds]

/-- SPU may clear itself where it was set; nothing else of the device changes (R157). -/
theorem drawSpu_dev (s : State) :
    s.drawSpu.dev = { s.dev with cfg := s.drawSpu.dev.cfg }
      ∧ (s.drawSpu.dev.cfg = s.dev.cfg ∨ s.dev.cfg.getLsbD 2 = true ∧ s.drawSpu.dev.cfg = s.dev.cfg &&& 0b1011#4) := by
  unfold State.drawSpu
  split
  · rename_i h
    refine ⟨by simp, ?_⟩
    dsimp only
    split
    · exact .inl rfl
    · exact .inr ⟨h, rfl⟩
  · exact ⟨rfl, .inl rfl⟩

/-- The completion step: the operation's results, nothing pending, SPU. -/
theorem complete_dev (s : State) (op : Op) :
    (s.complete op).dev = { (s.runOp op).dev with pending := none, cfg := (s.complete op).dev.cfg }
      ∧ ((s.complete op).dev.cfg = s.dev.cfg
          ∨ s.dev.cfg.getLsbD 2 = true ∧ (s.complete op).dev.cfg = s.dev.cfg &&& 0b1011#4) := by
  have h := drawSpu_dev { s.runOp op with dev.pending := none }
  have hc : (s.runOp op).dev.cfg = s.dev.cfg := by rw [runOp_dev]
  refine ⟨h.1, ?_⟩
  rw [← hc]
  exact h.2

@[simp] theorem complete_host (s : State) (op : Op) : (s.complete op).host = s.host := by simp [State.complete]

theorem complete_env (s : State) (op : Op) (new : List Event) (h : EnvAdds s (s.runOp op) new) :
    EnvAdds s (s.complete op) new :=
  envAdds_trans (t := { s.runOp op with dev.pending := none }) h (drawSpu_env _)

/-- What a completion adds to the history: samples that obey the law of the bus. -/
theorem runOp_env (s : State) (op : Op) :
    ∃ new, EnvAdds s (s.runOp op) new ∧ ∀ ch sample, Event.busSlot ch false sample ∈ new → sample = false := by
  cases op with
  | reset1W ch => exact ⟨_, busReset_env s ch, by simp⟩
  | bit v ch =>
    refine ⟨_, busSlot_env s ch v, fun c sample h => ?_⟩
    cases v
    · exact (by simpa using h : c = ch ∧ sample = false).2
    · simp at h
  | writeByte b ch =>
    obtain ⟨l, -, h2, h3⟩ := sendBits_env ch b lsbFirst s
    refine ⟨_, h3, fun c sample h => ?_⟩
    obtain ⟨p, hp, he⟩ := List.mem_map.mp h
    injection he with _ hv hs
    exact hs ▸ h2 p (List.mem_reverse.mp hp) hv
  | readByte ch =>
    exact ⟨_, (receiveBits_env ch lsbFirst 0#8 s (by decide) (by decide) (by simp)).1, by simp⟩
  | triplet d ch =>
    have h := envAdds_trans (envAdds_trans (busSlot_env s ch true) (busSlot_env (s.busSlot ch true).2 ch true))
      (busSlot_env ((s.busSlot ch true).2.busSlot ch true).2 ch
        (tripletDirection (s.busSlot ch true).1 ((s.busSlot ch true).2.busSlot ch true).1 d))
    refine ⟨_, h, fun c sample hm => ?_⟩
    generalize tripletDirection (s.busSlot ch true).1 ((s.busSlot ch true).2.busSlot ch true).1 d = dir at hm
    cases dir
    · exact (by simpa using hm : c = ch ∧ sample = false).2
    · simp at hm

@[simp] theorem engineStep_host (s : State) : (engineStep s).host = s.host := by
  unfold engineStep; split <;> simp

/-- After the engine's step nothing is pending. -/
theorem engineStep_pending (s : State) : (engineStep s).dev.pending = none := by
  unfold engineStep
  split
  · rw [(complete_dev s _).1]
  · assumption

/-- The fields of the device that no step of the engine writes. -/
theorem engineStep_dev (s : State) :
    (engineStep s).dev.fault = s.dev.fault ∧ (engineStep s).dev.channel = s.dev.channel
      ∧ (engineStep s).dev.rst = s.dev.rst ∧ (engineStep s).dev.ll = s.dev.ll
      ∧ (engineStep s).dev.readPtr = s.dev.readPtr
      ∧ ((engineStep s).dev.settling = s.dev.settling ∨ (engineStep s).dev.settling = false) := by
  unfold engineStep
  split
  · rw [(complete_dev s _).1, runOp_dev]
    exact ⟨rfl, rfl, rfl, rfl, rfl, .inl rfl⟩
  · exact ⟨rfl, rfl, rfl, rfl, rfl, .inr rfl⟩

/-- PPD and SD change only where a 1-Wire reset completes (R23, R24). -/
theorem engineStep_presence (s : State) (h : ∀ ch, s.dev.pending ≠ some (.reset1W ch)) :
    (engineStep s).dev.ppd = s.dev.ppd ∧ (engineStep s).dev.sd = s.dev.sd := by
  unfold engineStep
  split
  · rename_i op hop
    rw [(complete_dev s op).1]
    cases op with
    | reset1W ch => exact absurd hop (h ch)
    | bit v ch => simp [State.runOp, State.completeBit]
    | writeByte b ch => simp [State.runOp, State.completeWriteByte]
    | readByte ch => simp [State.runOp, State.completeReadByte]
    | triplet d ch => simp [State.runOp, State.completeTriplet]
  · exact ⟨rfl, rfl⟩

theorem engineStep_env (s : State) :
    ∃ new, EnvAdds s (engineStep s) new ∧ ∀ ch sample, Event.busSlot ch false sample ∈ new → sample = false := by
  unfold engineStep
  split
  · rename_i op _
    obtain ⟨new, h, k⟩ := runOp_env s op
    exact ⟨new, complete_env s op new h, k⟩
  · exact ⟨[], ⟨rfl, rfl, rfl, rfl⟩, by simp⟩

end Sys2Proof.Machine
end

