-- ==== Sys2Proof/Laws/Instr.lean ====
section
/-! SUPPORT. What one transaction can do: to the host, to the history, and to the device. -/

namespace Sys2Proof.Machine

/-- The effect of an instruction on the device where it executes: d before, e after. -/
def effectOf (i : Instr) (d e : Device) : Prop :=
  match i with
  | .drst =>
    e = { pending := none, ppd := false, sd := false, ll := e.ll, rst := true, sbr := false, tsb := false, dir := false
          cfg := 0#4, channel := 0, readPtr := e.readPtr, readData := none, settling := false, fault := d.fault }
  | .srp p => ∃ r, pointerOf p = some r ∧ e = { d with readPtr := r }
  | .wcfg p => ∃ c, configOf p = some c ∧ e = { d with cfg := c, rst := false, readPtr := e.readPtr }
  | .chsl c => ∃ n, channelOf c = some n ∧ e = { d with channel := n, settling := true, readPtr := e.readPtr }
  | .w1rs => e = { d with pending := some (.reset1W d.channel), readPtr := e.readPtr }
  | .w1sb p => e = { d with pending := some (.bit (slotBit p) d.channel), readPtr := e.readPtr }
  | .w1wb b => e = { d with pending := some (.writeByte b d.channel), readPtr := e.readPtr }
  | .w1rb => e = { d with pending := some (.readByte d.channel), readPtr := e.readPtr }
  | .w1t p => e = { d with pending := some (.triplet (slotBit p) d.channel), readPtr := e.readPtr }
  | .rd => e = { d with ll := e.ll }

/-- What a transaction adds to the history: its own entry, and at most a level question. -/
def plainEvents (new : List Event) : Prop :=
  ∀ e ∈ new, (∃ a t, e = .i2c a t) ∨ ∃ ch l, e = .busLevel ch l

/-- A write transaction of a command: not executed, a fault marked, or executed. P says what the effect does to the
device. -/
theorem execCommand_cases {s t : State} {bytes : List Byte} {cmd : Byte} {gated redraw : Bool}
    {effect : State → Except Fault State} (P : Device → Device → Prop)
    (h : execCommand s bytes cmd gated redraw effect = .next t)
    (keeps : ∀ d u, effect d = .ok u → u.host = d.host ∧ EnvAdds d u [] ∧ P d.dev u.dev) :
    s.dev.fault = none ∧ t.host = { s.host with reply := t.host.reply }
      ∧ (∃ new, EnvAdds s t new ∧ plainEvents new)
      ∧ (t.dev = { s.dev with ll := t.dev.ll } ∨ (∃ r, t.dev = { s.dev with fault := some r })
          ∨ ∃ e, P s.dev e ∧ (gated = true → Quiet s)
              ∧ t.dev = if redraw then { e with readPtr := t.dev.readPtr } else e) := by
  obtain ⟨hf, rfl⟩ := unlessFaulted_next h
  obtain ⟨d, r, hd, hh, he, ht⟩ := i2cWrite_cases s bytes (fun d => d.command cmd gated redraw effect)
  have plain : plainEvents [sent s (.write bytes)] := by
    intro e hm; exact .inl ⟨_, _, List.mem_singleton.mp hm⟩
  refine ⟨hf, ?_⟩
  rcases ht with ht | ht
  · rw [ht]
    exact ⟨by rw [answer_host, hh], ⟨_, by simpa [EnvAdds] using he, plain⟩, .inl (by simp [hd])⟩
  · rw [ht]
    rcases command_cases d cmd gated redraw effect with ⟨f, hc⟩ | ⟨u, hu, hq, hc⟩
    · rw [hc]
      exact ⟨by rw [answer_host, raise_host, hh], ⟨_, by simpa [EnvAdds] using he, plain⟩,
        .inr (.inl ⟨f, by simp [hd]⟩)⟩
    · obtain ⟨kh, ke, kp⟩ := keeps d u hu
      rw [hc]
      refine ⟨?_, ⟨_, ?_, plain⟩, .inr (.inr ⟨u.dev, hd ▸ kp, fun g => by rw [Quiet, ← hd]; exact hq g, ?_⟩)⟩
      · rw [answer_host]; cases redraw <;> simp [kh, hh]
      · have := envAdds_trans he ke
        cases redraw <;> simpa [EnvAdds] using this
      · cases redraw <;> simp

/-- What SRP does where its parameter is legal. -/
theorem srpEffect_ok {p : Byte} {d u : State} (h : srpEffect p d = .ok u) :
    u.host = d.host ∧ EnvAdds d u [] ∧ ∃ r, pointerOf p = some r ∧ u.dev = { d.dev with readPtr := r } := by
  unfold srpEffect at h
  split at h
  · cases h; exact ⟨rfl, ⟨rfl, rfl, rfl, rfl⟩, _, ‹_›, rfl⟩
  · cases h

/-- What WCFG does where its parameter is legal. -/
theorem wcfgEffect_ok {p : Byte} {d u : State} (h : wcfgEffect p d = .ok u) :
    u.host = d.host ∧ EnvAdds d u [] ∧ ∃ c, configOf p = some c ∧ u.dev = { d.dev with cfg := c, rst := false } := by
  unfold wcfgEffect at h
  split at h
  · cases h; exact ⟨rfl, ⟨rfl, rfl, rfl, rfl⟩, _, ‹_›, rfl⟩
  · cases h

/-- What CHSL does where its parameter is legal. -/
theorem chslEffect_ok {p : Byte} {d u : State} (h : chslEffect p d = .ok u) :
    u.host = d.host ∧ EnvAdds d u [] ∧ ∃ n, channelOf p = some n ∧ u.dev = { d.dev with channel := n, settling := true } := by
  unfold chslEffect at h
  split at h
  · cases h; exact ⟨rfl, ⟨rfl, rfl, rfl, rfl⟩, _, ‹_›, rfl⟩
  · cases h

/-- A 1-Wire command: not executed, a fault marked, or accepted. -/
theorem execAccept_cases {s t : State} {bytes : List Byte} {cmd : Byte} {op : Channel → Op}
    (h : execCommand s bytes cmd true true (accept op) = .next t) :
    s.dev.fault = none ∧ t.host = { s.host with reply := t.host.reply }
      ∧ (∃ new, EnvAdds s t new ∧ plainEvents new)
      ∧ (t.dev = { s.dev with ll := t.dev.ll } ∨ (∃ r, t.dev = { s.dev with fault := some r })
          ∨ t.dev = { s.dev with pending := some (op s.dev.channel), readPtr := t.dev.readPtr } ∧ Quiet s) := by
  obtain ⟨a, b, c, d⟩ := execCommand_cases (fun d e => e = { d with pending := some (op d.channel) }) h
    (by rintro d u ⟨⟩; exact ⟨rfl, ⟨rfl, rfl, rfl, rfl⟩, rfl⟩)
  refine ⟨a, b, c, ?_⟩
  rcases d with d | d | ⟨e, rfl, hq, ht⟩
  · exact .inl d
  · exact .inr (.inl d)
  · exact .inr (.inr ⟨ht, hq rfl⟩)

/-- One transaction: the reply is all it writes of the host, its history is plain, and the device is as it was (but LL),
or has a fault marked, or has the instruction's effect; a gated instruction has it only where nothing is in flight. -/
theorem exec_cases {i : Instr} {s t : State} (h : exec i s = .next t) :
    s.dev.fault = none ∧ t.host = { s.host with reply := t.host.reply }
      ∧ (∃ new, EnvAdds s t new ∧ plainEvents new)
      ∧ (t.dev = { s.dev with ll := t.dev.ll } ∨ (∃ r, t.dev = { s.dev with fault := some r })
          ∨ effectOf i s.dev t.dev ∧ (gatedCode i ≠ none → Quiet s)) := by
  have accepted : ∀ {A B C D Q : Prop}, (A ∧ B ∧ C ∧ (D ∨ Q)) → ∀ {Q'}, (Q → Q') → A ∧ B ∧ C ∧ (D ∨ Q') :=
    fun ⟨a, b, c, d⟩ _ f => ⟨a, b, c, d.imp id f⟩
  cases i with
  | rd =>
    obtain ⟨hf, rfl⟩ := unlessFaulted_next (body := fun s => s.i2cRead State.memRead) h
    obtain ⟨d, r, hd, hh, he, ht⟩ := i2cRead_cases s State.memRead
    have plain : plainEvents [sent s .read] := by
      intro e hm; exact .inl ⟨_, _, List.mem_singleton.mp hm⟩
    refine ⟨hf, ?_⟩
    rcases ht with ht | ⟨hds, ht⟩
    · rw [ht]
      exact ⟨by rw [answer_host, hh], ⟨_, by simpa [EnvAdds] using he, plain⟩, .inl (by rw [answer_dev]; exact hd)⟩
    · rw [ht]
      obtain ⟨new, kn, kp⟩ := memRead_env d
      refine ⟨by rw [answer_host, memRead_host, hh], ⟨new ++ [sent s .read], ?_, ?_⟩, .inl ?_⟩
      · simpa [EnvAdds] using envAdds_trans he kn
      · intro e hm
        rcases List.mem_append.mp hm with hm | hm
        · exact .inr (kp e hm)
        · exact plain e hm
      · rw [answer_dev, ← hds]; exact (memRead_dev d).1
  | drst =>
    have k := execCommand_cases
      (fun d e => e = { pending := none, ppd := false, sd := false, ll := e.ll, rst := true, sbr := false, tsb := false
                        dir := false, cfg := 0#4, channel := 0, readPtr := d.readPtr, readData := none
                        settling := false, fault := d.fault }) h
      (by rintro d u ⟨⟩; simp [EnvAdds])
    exact accepted k (Or.imp id fun ⟨e, he, _, ht⟩ => ⟨by rw [effectOf, ht, he]; rfl, by simp [gatedCode]⟩)
  | srp p =>
    have k := execCommand_cases (fun d e => ∃ r, pointerOf p = some r ∧ e = { d with readPtr := r }) h
      (fun d u hu => srpEffect_ok hu)
    exact accepted k (Or.imp id fun ⟨e, ⟨r, hr, he⟩, _, ht⟩ => ⟨⟨r, hr, by simpa [he] using ht⟩, by simp [gatedCode]⟩)
  | wcfg p =>
    have k := execCommand_cases (fun d e => ∃ c, configOf p = some c ∧ e = { d with cfg := c, rst := false }) h
      (fun d u hu => wcfgEffect_ok hu)
    exact accepted k (Or.imp id fun ⟨e, ⟨r, hr, he⟩, hq, ht⟩ => ⟨⟨r, hr, by rw [ht, he]; rfl⟩, fun _ => hq rfl⟩)
  | chsl p =>
    have k := execCommand_cases (fun d e => ∃ n, channelOf p = some n ∧ e = { d with channel := n, settling := true }) h
      (fun d u hu => chslEffect_ok hu)
    exact accepted k (Or.imp id fun ⟨e, ⟨r, hr, he⟩, hq, ht⟩ => ⟨⟨r, hr, by rw [ht, he]; rfl⟩, fun _ => hq rfl⟩)
  | w1rs => exact accepted (execAccept_cases h) (Or.imp id fun ⟨e, q⟩ => ⟨e, fun _ => q⟩)
  | w1sb p => exact accepted (execAccept_cases h) (Or.imp id fun ⟨e, q⟩ => ⟨e, fun _ => q⟩)
  | w1wb p => exact accepted (execAccept_cases h) (Or.imp id fun ⟨e, q⟩ => ⟨e, fun _ => q⟩)
  | w1rb => exact accepted (execAccept_cases h) (Or.imp id fun ⟨e, q⟩ => ⟨e, fun _ => q⟩)
  | w1t p => exact accepted (execAccept_cases h) (Or.imp id fun ⟨e, q⟩ => ⟨e, fun _ => q⟩)

/-- A transaction of an unfaulted machine answers a next state. -/
theorem exec_of_unfaulted (i : Instr) (s : State) (h : s.dev.fault = none) : ∃ t, exec i s = .next t := by
  cases i <;>
    simp [exec, execDrst, execSrp, execWcfg, execChsl, execW1rs, execW1wb, execW1rb, execW1sb, execW1t, execRd,
      execCommand, unlessFaulted_of_unfaulted _ _ h]

/-- A rejected write: nothing of the device changes but the fault mark. -/
theorem execReject_cases {s t : State} {bytes : List Byte} {why : Reject} (h : execReject s bytes why = .next t) :
    s.dev.fault = none ∧ t.host = { s.host with reply := t.host.reply }
      ∧ (∃ new, EnvAdds s t new ∧ plainEvents new)
      ∧ (t.dev = s.dev ∨ ∃ r, t.dev = { s.dev with fault := some r }) := by
  obtain ⟨hf, rfl⟩ := unlessFaulted_next h
  obtain ⟨d, r, hd, hh, he, ht⟩ := i2cWrite_cases s bytes (fun d => d.reject why)
  have plain : plainEvents [sent s (.write bytes)] := by
    intro e hm; exact .inl ⟨_, _, List.mem_singleton.mp hm⟩
  refine ⟨hf, ?_⟩
  rcases ht with ht | ht
  · rw [ht]
    exact ⟨by rw [answer_host, hh], ⟨_, by simpa [EnvAdds] using he, plain⟩, .inl (by simp [hd])⟩
  · rw [ht]
    cases why
    · exact ⟨by rw [answer_host, State.reject, hh], ⟨_, by simpa [EnvAdds, State.reject] using he, plain⟩, .inl (by simp [hd, State.reject])⟩
    · exact ⟨by rw [answer_host, State.reject, raise_host, hh], ⟨_, by simpa [EnvAdds, State.reject] using he, plain⟩,
        .inr ⟨_, by rw [answer_dev, State.reject, raise_dev, hd]⟩⟩
    · exact ⟨by rw [answer_host, State.reject, raise_host, hh], ⟨_, by simpa [EnvAdds, State.reject] using he, plain⟩,
        .inr ⟨_, by rw [answer_dev, State.reject, raise_dev, hd]⟩⟩

end Sys2Proof.Machine
end

