-- ==== Sys2Proof/Laws/Host.lean ====
section
/-! SUPPORT. What the host's procedures and steps can do. -/

namespace Sys2Proof.Machine

@[simp] theorem now_dev (s : State) : s.now.2.dev = s.dev := by simp [State.now]

theorem now_env (s : State) : ∃ ms, EnvAdds s s.now.2 [.clock ms] := ⟨s.host.clock + s.draw.1, by simp [State.now, EnvAdds]⟩

/-- A reading of the clock moves the clock on, and only the clock (R46). -/
theorem now_host (s : State) :
    ∃ c, s.host.clock ≤ c ∧ s.now.1 = BitVec.ofNat 32 c ∧ s.now.2.host = { s.host with clock := c } :=
  ⟨_, Nat.le_add_right _ _, rfl, by simp [State.now]⟩

/-- A relation that holds over every local computation of the host holds over all that an answer sets off. -/
theorem unwind_rel (R : State → State → Prop) (trans : ∀ {a b c}, R a b → R b c → R a c)
    (done : ∀ s prog result, R s { s with host := { s.host with prog := prog, result := result } })
    (go : ∀ s prog, R s { s with host.prog := prog })
    (rest : List Task) (konts : List Kont) (hk : ∀ k ∈ konts, ∀ v s, R s (resume k v s).1) (v : Ret) (s : State) :
    R s (unwind rest konts v s) := by
  induction konts generalizing v s with
  | nil => exact done s rest (some v)
  | cons k ks ih =>
    have h := hk k List.mem_cons_self v s
    have ih' := ih (fun k' hk' => hk k' (List.mem_cons_of_mem _ hk'))
    unfold unwind
    rcases hr : resume k v s with ⟨t, n⟩
    rw [hr] at h
    cases n with
    | run op more => exact trans h (go t _)
    | ret w => exact trans h (ih' w t)

/-- The same for the start of a procedure. -/
theorem advance_rel (R : State → State → Prop) (trans : ∀ {a b c}, R a b → R b c → R a c)
    (done : ∀ s prog result, R s { s with host := { s.host with prog := prog, result := result } })
    (go : ∀ s prog, R s { s with host.prog := prog })
    (rest : List Task) (konts : List Kont) (hk : ∀ k ∈ konts, ∀ v s, R s (resume k v s).1)
    (s : State) (n : State × Next) (hn : R s n.1) : R s (advance rest konts n) := by
  rcases n with ⟨t, n⟩
  cases n with
  | run op more => exact trans hn (go t _)
  | ret w => exact trans hn (unwind_rel R trans done go rest konts hk w t)

/-- What no local computation of the host changes: the device, the address, and the environment but for draws and the
entries that are no answers of the bus. -/
def Local (s t : State) : Prop :=
  t.dev = s.dev ∧ t.host.addr = s.host.addr
    ∧ ∃ new, EnvAdds s t new ∧ ∀ ch v sample, Event.busSlot ch v sample ∉ new

theorem local_refl (s : State) : Local s s := ⟨rfl, rfl, [], ⟨rfl, rfl, rfl, rfl⟩, by simp⟩

theorem local_trans {a b c : State} (h : Local a b) (k : Local b c) : Local a c := by
  obtain ⟨h1, h2, n1, h3, h4⟩ := h
  obtain ⟨k1, k2, n2, k3, k4⟩ := k
  refine ⟨k1.trans h1, k2.trans h2, n2 ++ n1, envAdds_trans h3 k3, fun ch v sample hm => ?_⟩
  rcases List.mem_append.mp hm with hm | hm
  · exact k4 _ _ _ hm
  · exact h4 _ _ _ hm

theorem local_draw (s : State) : Local s s.draw.2 := ⟨by simp, by simp, [], by simp [EnvAdds], by simp⟩

theorem local_now (s : State) : Local s s.now.2 := by
  obtain ⟨ms, h⟩ := now_env s
  obtain ⟨c, -, -, hh⟩ := now_host s
  exact ⟨now_dev s, by rw [hh], _, h, by simp⟩

theorem resume_local (k : Kont) (v : Ret) (s : State) : Local s (resume k v s).1 := by
  have e : ∀ t : State, t.dev = s.dev → t.host.addr = s.host.addr → t.env = s.env → Local s t :=
    fun t h1 h2 h3 => ⟨h1, h2, [], by simp [EnvAdds, h3], by simp⟩
  cases k <;> simp only [resume, orFail, failWith, nextScratchByte] <;> repeat' split
  all_goals first
    | exact local_refl s
    | exact local_draw s
    | exact e _ rfl rfl rfl
    | exact local_trans (local_now s) ⟨rfl, rfl, [], ⟨rfl, rfl, rfl, rfl⟩, by simp⟩

theorem enter_local (p : Proc) (s : State) : Local s (enter p s).1 := by
  cases p <;> simp only [enter, startReset] <;> repeat' split
  all_goals first
    | exact local_refl s
    | exact local_now s

theorem unwind_local (rest : List Task) (konts : List Kont) (v : Ret) (s : State) :
    Local s (unwind rest konts v s) :=
  unwind_rel Local local_trans (fun _ _ _ => ⟨rfl, rfl, [], ⟨rfl, rfl, rfl, rfl⟩, by simp⟩)
    (fun _ _ => ⟨rfl, rfl, [], ⟨rfl, rfl, rfl, rfl⟩, by simp⟩) rest konts (fun k _ => resume_local k) v s

theorem advance_local (rest : List Task) (konts : List Kont) (p : Proc) (s : State) :
    Local s (advance rest konts (enter p s)) :=
  advance_rel Local local_trans (fun _ _ _ => ⟨rfl, rfl, [], ⟨rfl, rfl, rfl, rfl⟩, by simp⟩)
    (fun _ _ => ⟨rfl, rfl, [], ⟨rfl, rfl, rfl, rfl⟩, by simp⟩) rest konts (fun k _ => resume_local k) s _
    (enter_local p s)

theorem deliver_local (rest : List Task) (konts : List Kont) (t : Txn) (s : State) :
    Local s (deliver rest konts t s) := by
  unfold deliver
  split
  · exact unwind_local ..
  · exact local_refl s

/-- What the host's `opState` can become where an answer goes to these positions (R224, R240). -/
def OpStateMoves (konts : List Kont) (s t : State) : Prop :=
  t.host.opState = s.host.opState ∨ t.host.opState = .error
    ∨ (t.host.opState = .idle ∧ Kont.resetStatus ∈ konts)
    ∨ (t.host.opState = .convertingTemperature ∧ Kont.startConvert ∈ konts)

theorem resume_opState (konts : List Kont) (k : Kont) (hk : k ∈ konts) (v : Ret) (s : State) :
    OpStateMoves konts s (resume k v s).1 := by
  unfold OpStateMoves
  cases k <;> simp only [resume, orFail, failWith, nextScratchByte] <;> repeat' split
  all_goals first
    | exact .inl rfl
    | exact .inr (.inl rfl)
    | exact .inr (.inr (.inl ⟨rfl, hk⟩))
    | exact .inr (.inr (.inr ⟨rfl, hk⟩))
    | exact .inl (by simp)

theorem unwind_opState (rest : List Task) (konts : List Kont) (v : Ret) (s : State) :
    OpStateMoves konts s (unwind rest konts v s) :=
  unwind_rel (OpStateMoves konts)
    (fun {a b c} h k => by
      rcases k with k | k | k | k
      · rcases h with h | h | h | h
        · exact .inl (k.trans h)
        · exact .inr (.inl (k.trans h))
        · exact .inr (.inr (.inl ⟨k.trans h.1, h.2⟩))
        · exact .inr (.inr (.inr ⟨k.trans h.1, h.2⟩))
      · exact .inr (.inl k)
      · exact .inr (.inr (.inl k))
      · exact .inr (.inr (.inr k)))
    (fun _ _ _ => .inl rfl) (fun _ _ => .inl rfl) rest konts (fun k hk v s => resume_opState konts k hk v s) v s

/-- What the host's `curChannel` can become where an answer goes to these positions (R44, R211). -/
def CurChannelMoves (konts : List Kont) (s t : State) : Prop :=
  t.host.curChannel = s.host.curChannel
    ∨ ∃ n : Channel, t.host.curChannel = BitVec.ofNat 8 n.val ∧ Kont.selectRead n ∈ konts

theorem resume_curChannel (konts : List Kont) (k : Kont) (hk : k ∈ konts) (v : Ret) (s : State) :
    CurChannelMoves konts s (resume k v s).1 := by
  unfold CurChannelMoves
  have hn : s.now.2.host.curChannel = s.host.curChannel := by
    obtain ⟨c, -, -, hh⟩ := now_host s; rw [hh]
  cases k <;> simp only [resume, orFail, failWith, nextScratchByte] <;> repeat' split
  all_goals first
    | exact .inl rfl
    | exact .inr ⟨_, rfl, hk⟩
    | exact .inl hn
    | exact .inl (by simp)

theorem unwind_curChannel (rest : List Task) (konts : List Kont) (v : Ret) (s : State) :
    CurChannelMoves konts s (unwind rest konts v s) :=
  unwind_rel (CurChannelMoves konts)
    (fun {a b c} h k => by
      rcases k with k | k
      · rcases h with h | ⟨n, h, hm⟩
        · exact .inl (k.trans h)
        · exact .inr ⟨n, k.trans h, hm⟩
      · exact .inr k)
    (fun _ _ _ => .inl rfl) (fun _ _ => .inl rfl) rest konts (fun k hk v s => resume_curChannel konts k hk v s) v s

end Sys2Proof.Machine
end

