-- ==== Sys2Proof/Laws/Positions.lean ====
section
/-! SUPPORT. The positions of a host program: how one follows another, how a failure goes up them, and the host's part of the
invariant after an answer. -/

namespace Sys2Proof.Machine

/-- A position goes on only to a position of the same procedure, which waits for what the host does next. -/
theorem resume_placed {k : Kont} {v : Ret} {s t : State} {op : HostOp} {more : List Kont} {p : Proc}
    (h : resume k v s = (t, .run op more)) (hp : k.within p) :
    ∃ k', more = [k'] ∧ k'.awaits op ∧ k'.within p := by
  cases k <;> simp only [resume, orFail, failWith, nextScratchByte] at h <;> repeat' split at h
  all_goals first
    | (simp only [Prod.mk.injEq, reduceCtorEq, and_false] at h; done)
    | (simp only [Prod.mk.injEq, Next.run.injEq] at h
       obtain ⟨-, rfl, rfl⟩ := h
       simp only [Kont.within] at hp
       refine ⟨_, rfl, ?_, ?_⟩
       · first | rfl | exact ⟨_, rfl⟩ | exact ⟨rfl, ‹_›⟩
       · first | exact hp | exact ⟨_, hp⟩)

/-- A procedure starts by returning, by going to a position of its own, or, where it is one transaction, by that. -/
theorem enter_placed {p : Proc} {s t : State} {op : HostOp} {more : List Kont} (h : enter p s = (t, .run op more)) :
    (more = [] ∧ ∀ k : Kont, ¬ k.awaits (.call p)) ∨ ∃ k', more = [k'] ∧ k'.awaits op ∧ k'.within p := by
  cases p <;> simp only [enter, startReset] at h <;> repeat' split at h
  all_goals first
    | (simp only [Prod.mk.injEq, reduceCtorEq, and_false] at h; done)
    | (simp only [Prod.mk.injEq, Next.run.injEq] at h
       obtain ⟨-, rfl, rfl⟩ := h
       first
         | exact .inl ⟨rfl, fun k => by cases k <;> simp [Kont.awaits, setReadPointerOp, writeCommandOp]⟩
         | (refine .inr ⟨_, rfl, ?_, ?_⟩
            · first | rfl | exact ⟨_, rfl⟩
            · first | rfl | exact ⟨_, rfl⟩ | exact .inl rfl | exact .inr (.inl rfl) | exact .inr (.inr rfl)))

/-- The procedures that report failure by ERROR, and those that pass it on: all but readStatus and busyWait, which answer
a byte in any case. -/
def Proc.passesFailure (p : Proc) : Prop := p ≠ .readStatus ∧ p ≠ .busyWait

/-- A failing answer: false, or a pair that says so. -/
def Ret.failed (v : Ret) : Prop := v = .bool false ∨ ∃ b, v = .pair false b

/-- A position that is answered the failure of such a procedure returns a failure at once and changes nothing. -/
theorem resume_of_failure {k : Kont} {v : Ret} {p q : Proc} (s : State) (hk : k.awaits (.call p)) (hq : k.within q)
    (hp : p.passesFailure) (hv : v.failed) : resume k v s = (s, .ret (.bool false)) ∧ q.passesFailure := by
  obtain ⟨h1, h2⟩ := hp
  cases k <;> simp only [Kont.awaits, Kont.within, setReadPointerOp, writeCommandOp, HostOp.call.injEq, reduceCtorEq,
    exists_false] at hk hq
  all_goals first
    | contradiction
    | (obtain rfl | ⟨b, rfl⟩ := hv <;>
       first
         | (subst hq; exact ⟨rfl, by simp [Proc.passesFailure]⟩)
         | (obtain ⟨_, rfl⟩ := hq; exact ⟨rfl, by simp [Proc.passesFailure]⟩))

/-- A failure ends the program entry: every position above passes it on. -/
theorem unwind_of_failure {p : Proc} {v : Ret} (rest : List Task) (konts : List Kont) (s : State)
    (h : Placed (.call p) konts) (hp : p.passesFailure) (hv : v.failed) :
    ∃ w, unwind rest konts v s = { s with host := { s.host with prog := rest, result := some w } } := by
  induction konts generalizing p v with
  | nil => exact ⟨v, rfl⟩
  | cons k ks ih =>
    obtain ⟨hk, q, hq, hks⟩ := h
    obtain ⟨hr, hq'⟩ := resume_of_failure s hk hq hp hv
    rw [unwind, hr]
    exact ih hks hq' (.inl rfl)

/-- A position that sets ERROR returns a failure. -/
theorem resume_sets_error {k : Kont} {v w : Ret} {s t : State} {p : Proc} (h : resume k v s = (t, .ret w))
    (hp : k.within p) (he : t.host.opState = .error) (hs : s.host.opState ≠ .error) : w.failed ∧ p.passesFailure := by
  have hn : s.now.2.host.opState = s.host.opState := by
    obtain ⟨c, -, -, hh⟩ := now_host s; rw [hh]
  cases k <;> simp only [resume, orFail, failWith, nextScratchByte] at h <;> repeat' split at h
  all_goals first
    | (simp only [Prod.mk.injEq, reduceCtorEq, and_false] at h; done)
    | (simp only [Prod.mk.injEq, Next.ret.injEq] at h
       obtain ⟨rfl, rfl⟩ := h
       first
         | exact absurd he hs
         | (simp only [drawBool_snd, draw_host] at he; exact absurd he hs)
         | (simp only [enterIdle_host, reduceCtorEq] at he)
         | (refine ⟨?_, ?_⟩
            · first | exact .inl rfl | exact .inr ⟨_, rfl⟩
            · simp only [Kont.within] at hp
              first
                | (subst hp; simp [Proc.passesFailure])
                | (obtain rfl | rfl | rfl := hp <;> simp [Proc.passesFailure])
                | (obtain ⟨_, rfl⟩ := hp; simp [Proc.passesFailure])))

/-- Going on changes no `opState`. -/
theorem resume_run_opState {k : Kont} {v : Ret} {s t : State} {op : HostOp} {more : List Kont}
    (h : resume k v s = (t, .run op more)) : t.host.opState = s.host.opState := by
  cases k <;> simp only [resume, orFail, failWith, nextScratchByte] at h <;> repeat' split at h
  all_goals first
    | (simp only [Prod.mk.injEq, reduceCtorEq, and_false] at h; done)
    | (simp only [Prod.mk.injEq] at h
       obtain ⟨rfl, -⟩ := h
       simp)

/-- The positions of startTemperatureConversion follow each other only. -/
theorem ofStart_of_within {k k' : Kont} {p : Proc} (h : k.within p) (h' : k'.within p) (hs : k'.ofStart) :
    k.ofStart := by
  obtain ⟨ch, hs⟩ := hs
  cases k' <;> simp only [Kont.within, reduceCtorEq, or_self, exists_false] at hs h'
  all_goals
    obtain ⟨c, rfl⟩ := h'
    exact ⟨c, h⟩

/-- The host's part of the invariant after an answer has gone up the positions of the head entry. -/
theorem unwind_inv {op : HostOp} (rest : List Task) (konts : List Kont) (v : Ret) (s : State) (h : Placed op konts)
    (hr : ∀ u ∈ rest, u.konts = []) (he : s.host.opState = .error → ∀ k ∈ konts, ¬ k.ofStart) :
    HostInv (unwind rest konts v s).host := by
  have done : ∀ t : State, ∀ w, HostInv { t.host with prog := rest, result := w } := by
    intro t w task more hp
    dsimp only at hp
    have hk : task.konts = [] := hr task (by rw [hp]; exact List.mem_cons_self)
    rw [hk]
    exact ⟨trivial, fun u hu => hr u (by rw [hp]; exact List.mem_cons_of_mem _ hu), by simp⟩
  induction konts generalizing op v s with
  | nil => exact done s _
  | cons k ks ih =>
    obtain ⟨hk, p, hp, hks⟩ := h
    unfold unwind
    rcases hres : resume k v s with ⟨t, op' | w⟩
    · rename_i more
      obtain ⟨k', rfl, ha, hw⟩ := resume_placed hres hp
      intro task more hprog
      simp only [List.cons.injEq, List.cons_append, List.nil_append] at hprog
      obtain ⟨rfl, rfl⟩ := hprog
      refine ⟨⟨ha, p, hw, hks⟩, hr, fun hte k'' hm => ?_⟩
      have hse := he (by rw [← resume_run_opState hres]; exact hte)
      rcases List.mem_cons.mp hm with rfl | hm
      · exact fun hs => hse k List.mem_cons_self (ofStart_of_within hp hw hs)
      · exact hse k'' (List.mem_cons_of_mem _ hm)
    · dsimp only
      by_cases hte : t.host.opState = .error
      · by_cases hse : s.host.opState = .error
        · exact ih _ _ hks fun _ k' hm => he hse k' (List.mem_cons_of_mem _ hm)
        · obtain ⟨hf, hpf⟩ := resume_sets_error hres hp hte hse
          obtain ⟨w', hw'⟩ := unwind_of_failure rest ks t hks hpf hf
          rw [hw']
          exact done t _
      · exact ih _ _ hks fun h => absurd h hte

/-- The host's part of the invariant after the start of a procedure. -/
theorem advance_inv {p : Proc} (rest : List Task) (konts : List Kont) (s : State) (h : Placed (.call p) konts)
    (hr : ∀ u ∈ rest, u.konts = []) (he : s.host.opState = .error → ∀ k ∈ konts, ¬ k.ofStart) :
    HostInv (advance rest konts (enter p s)).host := by
  have hop : (enter p s).1.host.opState = .error → s.host.opState = .error := by
    have hn : s.now.2.host.opState = s.host.opState := by
      obtain ⟨c, -, -, hh⟩ := now_host s; rw [hh]
    cases p <;> simp only [enter, startReset] <;> repeat' split
    all_goals first
      | exact id
      | (intro h; rw [← hn]; exact h)
      | (intro h; simp only [enterIdle_host, reduceCtorEq] at h)
  have hst : ∀ (t : State) op more, enter p s = (t, .run op more) → t.host.opState = .error →
      ∀ k ∈ more, ¬ k.ofStart := by
    intro t op more hen hte k hm hs
    rcases enter_placed hen with ⟨rfl, -⟩ | ⟨k', rfl, -, hw⟩
    · cases hm
    · obtain ⟨ch, hc⟩ := hs
      rw [List.mem_singleton] at hm
      subst hm
      have hse : s.host.opState = .error := hop (by rw [hen]; exact hte)
      have : ∃ ch, p = .startTemperatureConversion ch := by
        cases k <;> simp only [Kont.within, reduceCtorEq, or_self, exists_false] at hc hw <;> exact hw
      obtain ⟨ch', rfl⟩ := this
      simp only [enter, hse, if_true, Prod.mk.injEq, reduceCtorEq, and_false] at hen
  rcases hen : enter p s with ⟨t, op | w⟩
  · rename_i more
    intro task rs hprog
    simp only [advance, List.cons.injEq] at hprog
    obtain ⟨rfl, rfl⟩ := hprog
    have hte' : t.host.opState = .error → s.host.opState = .error := fun h => hop (by rw [hen]; exact h)
    refine ⟨?_, hr, fun hte k hm => ?_⟩
    · rcases enter_placed hen with ⟨rfl, hno⟩ | ⟨k', rfl, ha, hw⟩
      · cases konts with
        | nil => trivial
        | cons k ks => exact absurd h.1 (hno k)
      · exact ⟨ha, p, hw, h⟩
    · rcases List.mem_append.mp hm with hm | hm
      · exact hst t op more hen hte k hm
      · exact he (hte' hte) k hm
  · exact unwind_inv rest konts w t h hr fun hte => he (hop (by rw [hen]; exact hte))

end Sys2Proof.Machine
end

