-- ==== Sys2Proof/Laws/Answers.lean ====
section
/-! SUPPORT. What a host operation can have answered, carried up the positions of a program entry. -/

namespace Sys2Proof.Machine

/-- What a host operation can have answered when `r` is the last reply and `all` are the positions it started from. -/
def Answers (all : List Kont) (op : HostOp) (r : Reply) (v : Ret) : Prop :=
  match op with
  | .txn (.write _) => r = .ack ∧ v = .bool true ∨ r = .fail ∧ v = .bool false
  | .txn .read => (∃ b, r = .data b ∧ v = .pair true b) ∨ r = .fail ∧ v = .pair false 0xFF#8
  | .call .readStatus => (∃ b, r = .data b ∧ v = .pair true b) ∨ r = .fail ∧ v = .pair false 0xFF#8
  | .call .busyWait => (∃ b, r = .data b ∧ v = .pair true b) ∨ r.notReady = true ∧ ∃ b, v = .pair false b
  | .call (.wireWriteByte _) => r = .ack ∧ v = .bool true ∨ v = .bool false
  | .call .wireReadByte => (∃ b, r = .data b ∧ v = .pair true b) ∨ ∃ b, v = .pair false b
  | .call .scratchpadBytes =>
    (∃ got b, .scratchByte got ∈ all ∧ got.length = 8 ∧ r = .data b ∧ v = .bytes (got ++ [b])) ∨ v = .bool false
  | _ => True

/-- A position that returns answers what its procedure can answer. -/
theorem resume_answers {all : List Kont} {k : Kont} {v w : Ret} {s t : State} {op : HostOp} {r : Reply} {p : Proc}
    (h : resume k v s = (t, .ret w)) (hk : k.awaits op) (hp : k.within p) (hm : k ∈ all) (ha : Answers all op r v) :
    Answers all (.call p) r w := by
  cases k
  case statusPointer | statusRead =>
    subst hk hp
    rcases ha with ⟨b, rfl, rfl⟩ | ⟨rfl, rfl⟩ <;> simp_all [resume, Answers, Ret.ok, Ret.value]
  case pollStatus =>
    subst hk hp
    simp only [resume] at h
    split at h
    · rename_i hb
      cases h
      rcases ha with ⟨b, rfl, rfl⟩ | ⟨rfl, rfl⟩
      · exact .inl ⟨b, rfl, rfl⟩
      · exact absurd hb (by decide)
    · rename_i hb
      split at h
      · cases h
        refine .inr ⟨?_, _, rfl⟩
        rcases ha with ⟨b, rfl, rfl⟩ | ⟨rfl, rfl⟩
        · exact Bool.eq_true_of_not_eq_false hb
        · rfl
      · cases h
  case pollDelay => cases h
  case writeByteReady =>
    subst hp
    simp only [resume, orFail, failWith] at h
    split at h <;> cases h
    exact .inr rfl
  case writeByteSent =>
    obtain ⟨⟨_, rfl⟩, ⟨_, rfl⟩⟩ := hk, hp
    simp only [resume, orFail, failWith] at h
    split at h <;> cases h
    · rename_i hv
      rcases ha with ⟨rfl, rfl⟩ | ⟨rfl, rfl⟩
      · exact .inl ⟨rfl, rfl⟩
      · exact absurd hv (by decide)
    · exact .inr rfl
  case readByteReady | readByteSent | readByteDone | readBytePointer =>
    subst hp
    simp only [resume, orFail, failWith] at h
    split at h <;> cases h
    exact .inr ⟨_, rfl⟩
  case readByteFetched =>
    subst hk hp
    simp only [resume, orFail, failWith] at h
    split at h <;> cases h
    · rename_i hv
      rcases ha with ⟨b, rfl, rfl⟩ | ⟨rfl, rfl⟩
      · exact .inl ⟨b, rfl, rfl⟩
      · exact absurd hv (by decide)
    · exact .inr ⟨_, rfl⟩
  case scratchReset | scratchSkipRom | scratchCommand =>
    subst hp
    simp only [resume, nextScratchByte] at h
    repeat' split at h
    all_goals cases h
    all_goals first
      | exact .inr rfl
      | exact absurd (show ([] : List Byte).length < 9 by decide) ‹_›
  case scratchByte got =>
    subst hp
    obtain ⟨rfl, hl⟩ := hk
    simp only [resume, nextScratchByte] at h
    split at h
    · rename_i hv
      rcases ha with ⟨b, rfl, rfl⟩ | ⟨b, rfl⟩
      · split at h <;> cases h
        rename_i hn
        rw [List.length_append] at hn
        exact .inl ⟨got, b, hm, by simp at hn; omega, rfl, rfl⟩
      · cases hv
    · cases h
      exact .inr rfl
  all_goals
    simp only [Kont.within] at hp
    first
      | (obtain rfl | rfl | rfl := hp <;> trivial)
      | (obtain ⟨_, rfl⟩ := hp; trivial)

/-- A position that sets ERROR fails on the last reply. -/
theorem resume_failsOn {all : List Kont} {k : Kont} {v : Ret} {s : State} {op : HostOp} {r : Reply} (hk : k.awaits op)
    (ha : Answers all op r v) (he : (resume k v s).1.host.opState = .error) (hs : s.host.opState ≠ .error) :
    k.failsOn r = true := by
  have hn : s.now.2.host.opState = s.host.opState := by
    obtain ⟨c, -, -, hh⟩ := now_host s; rw [hh]
  cases k <;> simp only [resume, orFail, failWith, nextScratchByte] at he <;> repeat' split at he
  all_goals first
    | exact absurd he hs
    | (simp only [drawBool_snd, draw_host] at he; exact absurd he hs)
    | (simp only [enterIdle_host, reduceCtorEq] at he; done)
    | skip
  all_goals simp only [Kont.awaits, setReadPointerOp, writeCommandOp] at hk
  all_goals first
    | subst hk
    | (obtain ⟨_, rfl⟩ := hk)
  all_goals first
    | (rcases ha with ⟨rfl, rfl⟩ | ⟨rfl, rfl⟩ <;> first | rfl | (exfalso; simp_all [Ret.ok]))
    | (rcases ha with ⟨b, rfl, rfl⟩ | ⟨hr, b, rfl⟩ <;> simp_all [Kont.failsOn, Reply.rejectedBy, Ret.ok, Ret.value])

/-- A relation that holds over every local computation that an answer sets off holds over all of them. -/
theorem unwind_rel_answers (R : State → State → Prop) (trans : ∀ {a b c}, R a b → R b c → R a c)
    (done : ∀ s prog result, R s { s with host := { s.host with prog := prog, result := result } })
    (go : ∀ s prog, R s { s with host.prog := prog }) {all : List Kont} {r : Reply}
    (local' : ∀ k ∈ all, ∀ op v s, k.awaits op → Answers all op r v → R s (resume k v s).1)
    (rest : List Task) (konts : List Kont) {op : HostOp} {v : Ret} (s : State) (hp : Placed op konts)
    (hm : ∀ k ∈ konts, k ∈ all) (ha : Answers all op r v) : R s (unwind rest konts v s) := by
  induction konts generalizing op v s with
  | nil => exact done s rest (some v)
  | cons k ks ih =>
    obtain ⟨hk, p, hw, hks⟩ := hp
    have hR := local' k (hm k List.mem_cons_self) op v s hk ha
    unfold unwind
    rcases hr : resume k v s with ⟨t, op' | w⟩
    · rw [hr] at hR; exact trans hR (go t _)
    · rw [hr] at hR
      exact trans hR (ih t hks (fun k' h' => hm k' (List.mem_cons_of_mem _ h'))
        (resume_answers hr hk hw (hm k List.mem_cons_self) ha))

/-- A write transaction is one write on the bus, whatever its bytes. -/
theorem runTxn_write (bytes : List Byte) :
    ∃ body, ∀ s, runTxn (.write bytes) s = unlessFaulted s fun s => s.i2cWrite bytes body := by
  cases hd : decodeWrite bytes with
  | error why =>
    refine ⟨fun d => d.reject why, fun s => ?_⟩
    unfold runTxn
    rw [show decode (.write bytes) = .error why from hd]
    rfl
  | ok i =>
    have run : ∀ s, runTxn (.write bytes) s = exec i s := fun s => by
      unfold runTxn
      rw [show decode (.write bytes) = .ok i from hd]
    rcases decodeWrite_ok hd with ⟨c, rfl, hc⟩ | ⟨c, p, f, rfl, hc, rfl⟩
    · rcases commandFormat_cmd1 hc with ⟨rfl, rfl⟩ | ⟨rfl, rfl⟩ | ⟨rfl, rfl⟩ <;> exact ⟨_, fun s => run s⟩
    · rcases commandFormat_cmd2 hc with ⟨rfl, rfl⟩ | ⟨rfl, rfl⟩ | ⟨rfl, rfl⟩ | ⟨rfl, rfl⟩ | ⟨rfl, rfl⟩ | ⟨rfl, rfl⟩ <;>
        exact ⟨_, fun s => run s⟩

/-- What a transaction that raises no fault has answered. -/
theorem runTxn_answers (all : List Kont) {x : Txn} {s u : State} (h : runTxn x s = .next u) (hf : u.dev.fault = none) :
    Answers all (.txn x) u.host.reply (replyRet x u.host.reply) := by
  cases x with
  | write bytes =>
    obtain ⟨body, hb⟩ := runTxn_write bytes
    obtain ⟨-, rfl⟩ := unlessFaulted_next ((hb s).symm.trans h)
    rw [State.i2cWrite] at hf ⊢
    dsimp only at hf ⊢
    repeat' split at hf
    all_goals
      rw [answer_dev] at hf
      simp only [answer_of_unfaulted _ _ hf, *, if_true, Bool.false_eq_true, if_false]
    all_goals first
      | exact .inl ⟨rfl, rfl⟩
      | exact .inr ⟨rfl, rfl⟩
  | read =>
    obtain ⟨-, rfl⟩ := unlessFaulted_next (s := s) (body := fun s => s.i2cRead State.memRead) h
    rw [State.i2cRead] at hf ⊢
    dsimp only at hf ⊢
    repeat' split at hf
    all_goals
      rw [answer_dev] at hf
      simp only [answer_of_unfaulted _ _ hf, *, if_true, Bool.false_eq_true, if_false]
    all_goals first
      | exact .inl ⟨_, rfl, rfl⟩
      | exact .inr ⟨rfl, rfl⟩

end Sys2Proof.Machine
end

