-- ==== Sys2Proof/Laws/PerInstr.lean ====
section
/-! SUPPORT. What holds of every instruction as syntax: the shape of its transaction (30_encoding.md R80, R82). -/

namespace Sys2Proof.Laws.EncodeShape

/-- The transaction is a read, or a write of a command code and, for the six CMD2 codes only, one parameter byte. -/
def Statement (i : Instr) : Prop :=
  (i = .rd ∧ encode i = .read)
    ∨ (∃ c, c ∈ [0xF0#8, 0xB4#8, 0x96#8] ∧ encode i = .write [c])
    ∨ ∃ c p, c ∈ [0xE1#8, 0xD2#8, 0xC3#8, 0xA5#8, 0x87#8, 0x78#8] ∧ encode i = .write [c, p]

theorem drst : Statement .drst := .inr (.inl ⟨0xF0#8, by decide, rfl⟩)

theorem srp (p : Byte) : Statement (.srp p) := .inr (.inr ⟨0xE1#8, p, by decide, rfl⟩)

theorem wcfg (p : Byte) : Statement (.wcfg p) := .inr (.inr ⟨0xD2#8, p, by decide, rfl⟩)

theorem chsl (c : Byte) : Statement (.chsl c) := .inr (.inr ⟨0xC3#8, c, by decide, rfl⟩)

theorem w1rs : Statement .w1rs := .inr (.inl ⟨0xB4#8, by decide, rfl⟩)

theorem w1wb (b : Byte) : Statement (.w1wb b) := .inr (.inr ⟨0xA5#8, b, by decide, rfl⟩)

theorem w1rb : Statement .w1rb := .inr (.inl ⟨0x96#8, by decide, rfl⟩)

theorem w1sb (p : Byte) : Statement (.w1sb p) := .inr (.inr ⟨0x87#8, p, by decide, rfl⟩)

theorem w1t (p : Byte) : Statement (.w1t p) := .inr (.inr ⟨0x78#8, p, by decide, rfl⟩)

theorem rd : Statement .rd := .inl ⟨rfl, rfl⟩

end Sys2Proof.Laws.EncodeShape
end

