-- ==== Sys2Proof/Laws/Step.lean ====
section
/-! SUPPORT. What a step can do: the one inversion that every fact about all steps is derived from. -/

namespace Sys2Proof.Machine

theorem chooseAgent_dev (s : State) : s.chooseAgent.2.dev = s.dev := by unfold State.chooseAgent; split <;> rfl
theorem chooseAgent_host (s : State) : s.chooseAgent.2.host = s.host := by unfold State.chooseAgent; split <;> rfl
theorem chooseAgent_env (s : State) :
    s.chooseAgent.2.env.devicePresent = s.env.devicePresent ∧ s.chooseAgent.2.env.busErrors = s.env.busErrors
      ∧ s.chooseAgent.2.env.history = s.env.history := by
  unfold State.chooseAgent; split <;> exact ⟨rfl, rfl, rfl⟩

@[simp] theorem afterChoice_dev (s : State) : s.afterChoice.dev = s.dev := by
  unfold State.afterChoice; split
  · exact chooseAgent_dev s
  · rfl
@[simp] theorem afterChoice_host (s : State) : s.afterChoice.host = s.host := by
  unfold State.afterChoice; split
  · exact chooseAgent_host s
  · rfl
@[simp] theorem afterChoice_history (s : State) : s.afterChoice.env.history = s.env.history := by
  unfold State.afterChoice; split
  · exact (chooseAgent_env s).2.2
  · rfl
@[simp] theorem afterChoice_script (s : State) : s.afterChoice.env.script = s.env.script := by
  unfold State.afterChoice State.chooseAgent; split
  · split <;> rfl
  · rfl

/-- c is s but for the choice of the agent that moves. -/
def Chosen (s c : State) : Prop :=
  c.dev = s.dev ∧ c.host = s.host ∧ c.env.devicePresent = s.env.devicePresent ∧ c.env.busErrors = s.env.busErrors
    ∧ c.env.history = s.env.history

theorem chosen_refl (s : State) : Chosen s s := ⟨rfl, rfl, rfl, rfl, rfl⟩

theorem chosen_chooseAgent (s : State) : Chosen s s.chooseAgent.2 :=
  ⟨chooseAgent_dev s, chooseAgent_host s, (chooseAgent_env s).1, (chooseAgent_env s).2.1, (chooseAgent_env s).2.2⟩

/-- A step that answers a next state: no fault was marked, and the engine moved, or the host moved, or nothing did. -/
theorem step_cases {s t : State} (h : step s = .next t) :
    s.dev.fault = none
      ∧ ((∃ c, Chosen s c ∧ engineEnabled s = true ∧ t = engineStep c)
          ∨ (∃ c, Chosen s c ∧ hostEnabled s = true ∧ hostStep c = .next t)
          ∨ (engineEnabled s = false ∧ hostEnabled s = false ∧ t = s)) := by
  unfold step runStep at h
  split at h
  · cases h
  · rename_i hf he hh
    refine ⟨hf, ?_⟩
    dsimp only at h
    split at h
    · cases h; exact .inl ⟨_, chosen_chooseAgent s, he, rfl⟩
    · exact .inr (.inl ⟨_, chosen_chooseAgent s, hh, h⟩)
  · rename_i hf he hh
    cases h; exact ⟨hf, .inl ⟨s, chosen_refl s, he, rfl⟩⟩
  · rename_i hf he hh
    exact ⟨hf, .inr (.inl ⟨s, chosen_refl s, hh, h⟩)⟩
  · rename_i hf he hh
    cases h; exact ⟨hf, .inr (.inr ⟨he, hh, rfl⟩)⟩

/-- One transaction: an instruction's, or a rejected write. -/
theorem runTxn_cases {t : Txn} {s u : State} (h : runTxn t s = .next u) :
    (∃ i, decode t = .ok i ∧ exec i s = .next u)
      ∨ ∃ bytes why, t = .write bytes ∧ decode t = .error why ∧ execReject s bytes why = .next u := by
  unfold runTxn at h
  split at h
  · exact .inl ⟨_, ‹_›, h⟩
  · exact .inr ⟨_, _, rfl, ‹_›, h⟩
  · rename_i hd; cases hd

/-- A host step: what it does to the device is one transaction's effect, a power cycle's, or nothing; the rest is the
host's own. -/
theorem hostStep_cases {s t : State} (h : hostStep s = .next t) :
    (s.host.prog = [] ∧ t = s)
      ∨ (∃ x konts rest u, s.host.prog = ⟨.txn x, konts⟩ :: rest ∧ runTxn x s = .next u ∧ t = deliver rest konts x u)
      ∨ (∃ d konts rest, s.host.prog = ⟨.delay d, konts⟩ :: rest
          ∧ t = unwind rest konts (.bool true) (s.record (.delay d)))
      ∨ (∃ p konts rest, s.host.prog = ⟨.call p, konts⟩ :: rest ∧ t = advance rest konts (enter p s))
      ∨ (∃ konts rest, s.host.prog = ⟨.powerCycle, konts⟩ :: rest ∧ t = unwind rest konts (.bool true) s.powerCycle) := by
  unfold hostStep at h
  split at h
  · cases h; exact .inl ⟨‹_›, rfl⟩
  · obtain ⟨u, hu, rfl⟩ := andThen_next h
    exact .inr (.inl ⟨_, _, _, u, ‹_›, hu, rfl⟩)
  · cases h; exact .inr (.inr (.inl ⟨_, _, _, ‹_›, rfl⟩))
  · cases h; exact .inr (.inr (.inr (.inl ⟨_, _, _, ‹_›, rfl⟩)))
  · cases h; exact .inr (.inr (.inr (.inr ⟨_, _, ‹_›, rfl⟩)))

@[simp] theorem powerCycle_dev (s : State) :
    s.powerCycle.dev =
      { pending := none, ppd := false, sd := false, ll := (s.record .power).drawBool.1, rst := true, sbr := false
        tsb := false, dir := false, cfg := 0#4, channel := 0
        readPtr := regOfNat (s.record .power).deviceReset.draw.1, readData := none, settling := false
        fault := s.dev.fault } := by
  simp [State.powerCycle]

@[simp] theorem powerCycle_host (s : State) : s.powerCycle.host = s.host := by simp [State.powerCycle]

theorem powerCycle_env (s : State) : EnvAdds s s.powerCycle [.power] := by simp [State.powerCycle, EnvAdds]

/-- What a step can do to the device: an engine step, LL sampled or nothing, a fault marked, an instruction's effect (a
gated one only where nothing is in flight), or a reset by a power cycle. -/
theorem step_dev_cases {s t : State} (h : step s = .next t) :
    (∃ c, Chosen s c ∧ engineEnabled s = true ∧ t = engineStep c)
      ∨ t.dev = { s.dev with ll := t.dev.ll }
      ∨ (∃ r, t.dev = { s.dev with fault := some r })
      ∨ (∃ i konts rest x, s.host.prog = ⟨.txn x, konts⟩ :: rest ∧ decode x = .ok i ∧ effectOf i s.dev t.dev
          ∧ (gatedCode i ≠ none → Quiet s))
      ∨ (∃ konts rest, s.host.prog = ⟨.powerCycle, konts⟩ :: rest ∧ effectOf .drst s.dev t.dev) := by
  obtain ⟨-, h | ⟨c, ⟨hc1, hc2, -⟩, -, h⟩ | ⟨-, -, rfl⟩⟩ := step_cases h
  · exact .inl h
  · rcases hostStep_cases h with ⟨-, rfl⟩ | ⟨x, konts, rest, u, hp, hu, rfl⟩ | ⟨d, konts, rest, hp, rfl⟩
      | ⟨p, konts, rest, hp, rfl⟩ | ⟨konts, rest, hp, rfl⟩
    · exact .inr (.inl (by rw [hc1]))
    · rw [(deliver_local rest konts x u).1]
      rcases runTxn_cases hu with ⟨i, hi, he⟩ | ⟨bytes, why, -, -, he⟩
      · obtain ⟨-, -, -, k | k | ⟨k, q⟩⟩ := exec_cases he
        · exact .inr (.inl (hc1 ▸ k))
        · exact .inr (.inr (.inl (hc1 ▸ k)))
        · exact .inr (.inr (.inr (.inl ⟨i, konts, rest, x, hc2 ▸ hp, hi, hc1 ▸ k, fun g => by rw [Quiet, ← hc1]; exact q g⟩)))
      · obtain ⟨-, -, -, k | k⟩ := execReject_cases he
        · exact .inr (.inl (by rw [← hc1, k]))
        · exact .inr (.inr (.inl (hc1 ▸ k)))
    · exact .inr (.inl (by rw [(unwind_local rest konts (.bool true) (c.record (.delay d))).1, record_dev, hc1]))
    · exact .inr (.inl (by rw [(advance_local rest konts p c).1, hc1]))
    · refine .inr (.inr (.inr (.inr ⟨konts, rest, hc2 ▸ hp, ?_⟩)))
      rw [(unwind_local rest konts (.bool true) c.powerCycle).1, powerCycle_dev, effectOf, hc1]
  · exact .inr (.inl rfl)

/-- What a step can do to the rest: the address and the environment's parameters stay, the history grows, and no new
sample of a 0 slot is 1. -/
theorem step_env_cases {s t : State} (h : step s = .next t) :
    t.host.addr = s.host.addr ∧ t.env.devicePresent = s.env.devicePresent ∧ t.env.busErrors = s.env.busErrors
      ∧ ∃ new, t.env.history = new ++ s.env.history
          ∧ ∀ ch sample, Event.busSlot ch false sample ∈ new → sample = false := by
  have fromLocal : ∀ {c u v : State} {new : List Event}, Chosen s c → EnvAdds c u new → u.host.addr = c.host.addr →
      (∀ ch sample, Event.busSlot ch false sample ∈ new → sample = false) → Local u v →
      v.host.addr = s.host.addr ∧ v.env.devicePresent = s.env.devicePresent ∧ v.env.busErrors = s.env.busErrors
        ∧ ∃ new, v.env.history = new ++ s.env.history
            ∧ ∀ ch sample, Event.busSlot ch false sample ∈ new → sample = false := by
    rintro c u v new ⟨c1, c2, c3, c4, c5⟩ he ha hn ⟨-, k1, new2, k2, k3⟩
    have := envAdds_trans he k2
    refine ⟨by rw [k1, ha, c2], by rw [this.1, c3], by rw [this.2.1, c4], new2 ++ new, by rw [this.2.2.2, c5],
      fun ch x hm => ?_⟩
    rcases List.mem_append.mp hm with hm | hm
    · exact absurd hm (k3 _ _ _)
    · exact hn _ _ hm
  have plain : ∀ {new}, plainEvents new → ∀ ch sample, Event.busSlot ch false sample ∈ new → sample = false := by
    intro new hp ch x hm
    rcases hp _ hm with ⟨_, _, h⟩ | ⟨_, _, h⟩ <;> cases h
  obtain ⟨-, ⟨c, hc, -, rfl⟩ | ⟨c, hc, -, h⟩ | ⟨-, -, rfl⟩⟩ := step_cases h
  · obtain ⟨new, k, kn⟩ := engineStep_env c
    exact fromLocal hc k (by simp) kn (local_refl _)
  · rcases hostStep_cases h with ⟨-, rfl⟩ | ⟨x, konts, rest, u, hp, hu, rfl⟩ | ⟨d, konts, rest, hp, rfl⟩
      | ⟨p, konts, rest, hp, rfl⟩ | ⟨konts, rest, hp, rfl⟩
    · exact fromLocal (new := []) hc ⟨rfl, rfl, rfl, rfl⟩ rfl (by simp) (local_refl _)
    · rcases runTxn_cases hu with ⟨i, hi, he⟩ | ⟨bytes, why, -, -, he⟩
      · obtain ⟨-, hh, ⟨new, k, kn⟩, -⟩ := exec_cases he
        exact fromLocal hc k (by rw [hh]) (plain kn) (deliver_local ..)
      · obtain ⟨-, hh, ⟨new, k, kn⟩, -⟩ := execReject_cases he
        exact fromLocal hc k (by rw [hh]) (plain kn) (deliver_local ..)
    · exact fromLocal (u := c.record (.delay d)) (new := [.delay d]) hc ⟨rfl, rfl, rfl, rfl⟩ rfl (by simp)
        (unwind_local ..)
    · exact fromLocal (new := []) hc ⟨rfl, rfl, rfl, rfl⟩ rfl (by simp) (advance_local ..)
    · exact fromLocal hc (powerCycle_env c) (by simp) (by simp) (unwind_local ..)
  · exact ⟨rfl, rfl, rfl, [], rfl, by simp⟩

/-! ## Where the host moves -/

/-- The host's step, but for a DELAY settle that has to wait, from the state after the choice. -/
theorem step_of_hostMoves {s : State} {t : Task} {rest : List Task} (hf : s.dev.fault = none) (hm : HostMoves s)
    (hp : s.host.prog = t :: rest) (hd : t.op ≠ .delay .settle) : step s = hostStep s.afterChoice := by
  have hh : hostEnabled s = true := by
    unfold hostEnabled; rw [hp]; split
    · cases ‹_›
    · rename_i h; cases h; exact absurd rfl hd
    · rfl
  unfold step runStep
  rw [hf, hh]
  cases he : engineEnabled s
  · simp [State.afterChoice, he]
  · rcases hm with hm | hm
    · rw [he] at hm; cases hm
    · simp [State.afterChoice, he, hm]

/-! ## Runs of the host on a quiet device -/

/-- With nothing in flight the host moves wherever it has something to do. -/
theorem step_of_quiet {s : State} {t : Task} {rest : List Task} (hf : s.dev.fault = none) (hq : Quiet s)
    (hp : s.host.prog = t :: rest) : step s = hostStep s := by
  have he : engineEnabled s = false := by simp [engineEnabled, hq.1, hq.2]
  have hh : hostEnabled s = true := by
    unfold hostEnabled; rw [hp]; split
    · cases ‹_›
    · simp [hq.2]
    · rfl
  unfold step runStep
  rw [hf, he, hh]

theorem step_of_call {s : State} {p : Proc} {konts : List Kont} {rest : List Task} (hf : s.dev.fault = none)
    (hq : Quiet s) (hp : s.host.prog = ⟨.call p, konts⟩ :: rest) : step s = .next (advance rest konts (enter p s)) := by
  rw [step_of_quiet hf hq hp]; unfold hostStep; rw [hp]

theorem step_of_delay {s : State} {d : Delay} {konts : List Kont} {rest : List Task} (hf : s.dev.fault = none)
    (hq : Quiet s) (hp : s.host.prog = ⟨.delay d, konts⟩ :: rest) :
    step s = .next (unwind rest konts (.bool true) (s.record (.delay d))) := by
  rw [step_of_quiet hf hq hp]; unfold hostStep; rw [hp]

theorem deliver_of_unfaulted {u : State} {rest : List Task} {konts : List Kont} {x : Txn} (hf : u.dev.fault = none) :
    deliver rest konts x u = unwind rest konts (replyRet x u.host.reply) u := by
  unfold deliver; rw [hf]

/-- A run, one step at a time. -/
theorem run_succ {s t : State} {k : Nat} (h : step s = .next t) :
    Host.Core.run Sys2Proof.core (k + 1) s = Host.Core.run Sys2Proof.core k t := by
  have h' : Sys2Proof.core.step s = .next t := h
  have e := Host.Core.run.eq_2 Sys2Proof.core s k
  rw [h'] at e; exact e

end Sys2Proof.Machine
end

