-- ==== Sys2Proof/Tests/Slice0.lean ====
section
/-! SUPPORT. Tests of single steps with expected results from spec/95_test_vectors.md and the encoding tables, and a witness for
every statement with hypotheses. -/

namespace Sys2Proof.Tests

open Sys2Proof.Machine

/-! ## A small state -/

/-- The device after a reset, its two draws made: line high, pointer at STATUS. -/
def dev0 : Device :=
  { pending := none, ppd := false, sd := false, ll := true, rst := true, sbr := false, tsb := false, dir := false
    cfg := 0#4, channel := 0, readPtr := .status, readData := none, settling := false, fault := none }

/-- The host as constructed, its draws made. -/
def host0 : HostState :=
  { addr := 0x18#7, opState := .idle, curChannel := 0#8, convStart := 0#32, clock := 0, reply := .none, result := none
    scratchOut := [], tempOut := 0#32, prog := [] }

/-- The environment with draws placed in advance. -/
def env0 (script : List Nat) : Env :=
  { devicePresent := true, busErrors := false, sched := [], script := script, drawCount := 0, history := [] }

/-- A state from its device and the draws to come. -/
def st (d : Device) (script : List Nat) : State := ⟨d, host0, env0 script⟩

/-- The same with a host program. -/
def stProg (d : Device) (script : List Nat) (prog : List Task) : State := ⟨d, { host0 with prog := prog }, env0 script⟩

/-- The same with the agent that moves first placed. -/
def stSched (d : Device) (a : Agent) (prog : List Task) : State :=
  ⟨d, { host0 with prog := prog }, { env0 [] with sched := [a] }⟩

/-- The next state satisfies p. -/
def nextIs (o : StepResult) (p : State → Bool) : Bool :=
  match o with
  | .next t => p t
  | .fault _ => false
  | .refused _ => false

/-- The machine stops with this fault. -/
def faultIs (o : StepResult) (r : Fault) : Bool :=
  match o with
  | .next _ => false
  | .fault q => q == r
  | .refused _ => false

/-! ## Well-formedness (30_encoding.md R84, R87, R88, R90, R92) -/

theorem test_wf_srp : (Instr.srp 0xF0#8).wellFormed = true ∧ (Instr.srp 0x00#8).wellFormed = false := by decide
theorem test_wf_wcfg : (Instr.wcfg 0x69#8).wellFormed = true ∧ (Instr.wcfg 0xE0#8).wellFormed = false := by decide
theorem test_wf_chsl : (Instr.chsl 0x87#8).wellFormed = true ∧ (Instr.chsl 0xB8#8).wellFormed = false := by decide

/-- The sixteen legal WCFG parameters (95_test_vectors.md §2.5). -/
theorem test_config_parameters :
    ((List.range 256).filter fun n => (configOf (BitVec.ofNat 8 n)).isSome) =
      [0x0F, 0x1E, 0x2D, 0x3C, 0x4B, 0x5A, 0x69, 0x78, 0x87, 0x96, 0xA5, 0xB4, 0xC3, 0xD2, 0xE1, 0xF0] := by
  decide +kernel

/-! ## Decoding: words written bit by bit from the code map (30_encoding.md R82) -/

theorem test_decode_drst : decode (.write [0b11110000#8]) = .ok .drst := rfl
theorem test_decode_srp : decode (.write [0b11100001#8, 0b11010010#8]) = .ok (.srp 0xD2#8) := rfl
theorem test_decode_wcfg : decode (.write [0b11010010#8, 0b11100001#8]) = .ok (.wcfg 0xE1#8) := rfl
theorem test_decode_chsl : decode (.write [0b11000011#8, 0b10000111#8]) = .ok (.chsl 0x87#8) := rfl
theorem test_decode_w1rs : decode (.write [0b10110100#8]) = .ok .w1rs := rfl
theorem test_decode_w1wb : decode (.write [0b10100101#8, 0b01000100#8]) = .ok (.w1wb 0x44#8) := rfl
theorem test_decode_w1rb : decode (.write [0b10010110#8]) = .ok .w1rb := rfl
theorem test_decode_w1sb : decode (.write [0b10000111#8, 0b10000000#8]) = .ok (.w1sb 0x80#8) := rfl
theorem test_decode_w1t : decode (.write [0b01111000#8, 0b00000000#8]) = .ok (.w1t 0x00#8) := rfl
theorem test_decode_rd : decode .read = .ok .rd := rfl
/-- TX2, TX4 to TX7. -/
theorem test_decode_rejects :
    decode (.write [0x00#8]) = .error (.badCommand 0x00#8) ∧ decode (.write [0x69#8]) = .error (.badCommand 0x69#8)
      ∧ decode (.write [0xF0#8, 0x00#8]) = .error (.badLength 0xF0#8 2)
      ∧ decode (.write [0xA5#8]) = .error (.badLength 0xA5#8 1)
      ∧ decode (.write [0xA5#8, 0x01#8, 0x02#8]) = .error (.badLength 0xA5#8 3) := ⟨rfl, rfl, rfl, rfl, rfl⟩
/-- The address bytes of 95_test_vectors.md §3: 0x30 for a write, 0x31 for a read. -/
theorem test_address_byte : addressByte 0x18#7 (.write []) = 0x30#8 ∧ addressByte 0x18#7 .read = 0x31#8 := by decide

/-! ## The fetch: what `withFetchWord` places runs next, right after reset -/

theorem test_fetch_srp :
    nextIs (step (State.reset.withFetchWord 16 0xE1D2)) (fun t => t.dev.readPtr == .channel) = true := by decide
theorem test_fetch_chsl :
    nextIs (step (State.reset.withFetchWord 16 0xC3E1)) (fun t => t.dev.channel == 1 && t.dev.settling) = true := by decide
theorem test_fetch_where_engine_could_move :
    nextIs (step ((st { dev0 with pending := some (.reset1W 0) } []).withFetchWord 16 0xE1E1))
      (fun t => t.dev.readPtr == .readData && t.dev.busy) = true := by decide

/-! ## One step of each instruction -/

/-- DR1: a device in use, reset; the draws say line low and CONFIG. -/
theorem test_drst :
    nextIs (exec .drst (st { dev0 with channel := 5, cfg := 0b0001#4, rst := false, ppd := true, sbr := true
                                       readData := some 0x91#8 } [0, 3]))
      (fun t => t.dev == { dev0 with ll := false, readPtr := .config }) = true := by decide
/-- DR2, PR10: the pending operation is discarded. -/
theorem test_drst_busy :
    nextIs (exec .drst (st { dev0 with pending := some (.readByte 2) } [1, 0])) (fun t => t.dev == dev0) = true := by
  decide
/-- PR9. -/
theorem test_srp_busy :
    nextIs (exec (.srp 0xF0#8) (st { dev0 with pending := some (.reset1W 0), readPtr := .config } []))
      (fun t => t.dev.readPtr == .status && t.host.reply == .ack) = true := by decide
/-- PR8. -/
theorem test_srp_reserved :
    nextIs (exec (.srp 0x00#8) (st { dev0 with pending := some (.reset1W 0) } []))
      (fun t => t.dev.fault == some (.badPointer 0x00#8)) = true := by decide
/-- WC1. -/
theorem test_wcfg :
    nextIs (exec (.wcfg 0xE1#8) (st dev0 [0])) (fun t => t.dev == { dev0 with cfg := 0b0001#4, rst := false }) = true := by
  decide
/-- WC8. -/
theorem test_wcfg_bad :
    nextIs (exec (.wcfg 0x1F#8) (st dev0 [0])) (fun t => t.dev == { dev0 with fault := some (.badConfig 0x1F#8) })
      = true := by decide
/-- CS5. -/
theorem test_chsl :
    nextIs (exec (.chsl 0xA5#8) (st dev0 [0])) (fun t => t.dev == { dev0 with channel := 5, settling := true }) = true := by
  decide
/-- PR6: the settle check comes before the parameter check. -/
theorem test_chsl_settling :
    nextIs (exec (.chsl 0x00#8) (st { dev0 with settling := true } []))
      (fun t => t.dev.fault == some (.settleViolation 0xC3#8)) = true := by decide
/-- RS3, the completion. -/
theorem test_w1rs_completes :
    ((engineStep (st { dev0 with pending := some (.reset1W 2), channel := 2 } [1, 1])).dev
      == { dev0 with channel := 2, ppd := true, sd := true }) = true := by decide
/-- RS7. -/
theorem test_w1rs_busy :
    nextIs (exec .w1rs (st { dev0 with pending := some (.reset1W 2) } []))
      (fun t => t.dev.fault == some (.busyViolation 0xB4#8 (.reset1W 2))) = true := by decide
/-- SB5: bit 7 is the slot's value, so 0x7F is a 0 slot. -/
theorem test_w1sb :
    nextIs (exec (.w1sb 0x7F#8) (st dev0 [0])) (fun t => t.dev.pending == some (.bit false 0)) = true := by decide
/-- SB1, the completion. -/
theorem test_w1sb_completes :
    ((engineStep (st { dev0 with pending := some (.bit true 0) } [1])).dev == { dev0 with sbr := true }) = true := by
  decide
/-- WB1: 0xCC goes out as 0, 0, 1, 1, 0, 0, 1, 1; the history has the newest slot first. -/
theorem test_w1wb_completes :
    ((engineStep (st { dev0 with pending := some (.writeByte 0xCC#8 0) } [1, 1, 1, 1])).env.history
      == [.busSlot 0 true true, .busSlot 0 true true, .busSlot 0 false false, .busSlot 0 false false,
          .busSlot 0 true true, .busSlot 0 true true, .busSlot 0 false false, .busSlot 0 false false]) = true := by
  decide
/-- RB1: 1, 0, 0, 0, 1, 0, 0, 1 is 0x91. -/
theorem test_w1rb_completes :
    ((engineStep (st { dev0 with pending := some (.readByte 0) } [1, 0, 0, 0, 1, 0, 0, 1])).dev.readData
      == some 0x91#8) = true := by decide
/-- RB3: 0, 0, 0, 0, 0, 0, 0, 1 is 0x80. -/
theorem test_w1rb_msb_last :
    ((engineStep (st { dev0 with pending := some (.readByte 0) } [0, 0, 0, 0, 0, 0, 0, 1])).dev.readData
      == some 0x80#8) = true := by decide
/-- TR1. -/
theorem test_w1t_completes :
    ((engineStep (st { dev0 with pending := some (.triplet true 0) } [0, 1])).dev == { dev0 with tsb := true }) = true := by
  decide
/-- TR4. -/
theorem test_w1t_both :
    ((engineStep (st { dev0 with pending := some (.triplet true 0) } [0, 0, 1])).dev == { dev0 with dir := true }) = true := by
  decide
/-- P4 step 14: SBR 1, DIR 1, RST 0, PPD 1, line high: 0xAA. -/
theorem test_rd_status :
    nextIs (exec .rd (st { dev0 with rst := false, ppd := true, sbr := true, dir := true } [1]))
      (fun t => t.host.reply == .data 0xAA#8) = true := by decide
/-- SP9: a WriteByte pending draws no bit: 0x1B. -/
theorem test_rd_status_busy :
    nextIs (exec .rd (st { dev0 with pending := some (.writeByte 0xCC#8 0), ppd := true } [1]))
      (fun t => t.host.reply == .data 0x1B#8) = true := by decide

/-! ## The rest of the machine -/

/-- TX1. -/
theorem test_empty_write :
    nextIs (runTxn (.write []) (st dev0 [])) (fun t => t.dev == dev0 && t.host.reply == .ack) = true := by decide
/-- R103, R69: a read that fails draws LL where the pointer is STATUS, and writes nothing where it is CONFIG. -/
theorem test_failed_read :
    (nextIs (exec .rd ⟨dev0, host0, { env0 [1, 0] with busErrors := true }⟩)
      (fun t => t.dev == { dev0 with ll := false } && t.host.reply == .fail)
    && nextIs (exec .rd ⟨{ dev0 with readPtr := .config }, host0, { env0 [1, 0] with busErrors := true }⟩)
      (fun t => t.dev == { dev0 with readPtr := .config } && t.host.reply == .fail && t.env.script == [0])) = true := by
  decide
/-- DR4. -/
theorem test_fault_stops :
    faultIs (step (st { dev0 with fault := some (.badCommand 0#8) } [])) (.badCommand 0#8) = true := by decide
/-- WC5: SPU stays or clears. -/
theorem test_spu_draw :
    ((engineStep (st { dev0 with pending := some (.reset1W 0), cfg := 0b0100#4 } [1, 0, 0])).dev.cfg == 0#4
      && (engineStep (st { dev0 with pending := some (.reset1W 0), cfg := 0b0100#4 } [1, 0, 1])).dev.cfg == 0b0100#4)
      = true := by decide
/-- CS0 to CS7: the readback of each channel. -/
theorem test_readback :
    ([(0 : Channel), 1, 2, 3, 4, 5, 6, 7].map fun n =>
      (st { dev0 with channel := n, readPtr := .channel } []).memRead.1) =
      [0xB8#8, 0xB1#8, 0xAA#8, 0xA3#8, 0x9C#8, 0x95#8, 0x8E#8, 0x87#8] := by decide
/-- TD1 to TD10, as binary32 patterns: 25.0625, -32.0, -0.0625, -2048.0, 2047.9375, +0.0, 0.0625, 0.5, -10.125, 85.0. -/
theorem test_temperature :
    [decodeTemperature 0x91#8 0x01#8, decodeTemperature 0x00#8 0xFE#8, decodeTemperature 0xFF#8 0xFF#8,
      decodeTemperature 0x00#8 0x80#8, decodeTemperature 0xFF#8 0x7F#8, decodeTemperature 0x00#8 0x00#8,
      decodeTemperature 0x01#8 0x00#8, decodeTemperature 0x08#8 0x00#8, decodeTemperature 0x5E#8 0xFF#8,
      decodeTemperature 0x50#8 0x05#8] =
    [0x41C88000#32, 0xC2000000#32, 0xBD800000#32, 0xC5000000#32, 0x44FFFE00#32, 0x00000000#32, 0x3D800000#32,
      0x3F000000#32, 0xC1220000#32, 0x42AA0000#32] := by decide +kernel
/-- HP12: a readback of channel 0 fails a selection of channel 3 and leaves curChannel. -/
theorem test_select_mismatch :
    nextIs (step (stProg { dev0 with readPtr := .channel } [] [⟨.txn .read, [.selectRead 3]⟩]))
      (fun t => t.host.opState == .error && t.host.curChannel == 0#8 && t.host.result == some (.bool false)) = true := by
  decide
/-- HP17: the sentinel 0xFF has bit 0 set, so isBusy is true without a device. -/
theorem test_isBusy_absent :
    nextIs (step ⟨dev0, { host0 with prog := [⟨setReadPointerOp 0xF0#8, [.statusPointer, .isBusyStatus]⟩] },
        { env0 [] with devicePresent := false }⟩)
      (fun t => t.host.result == some (.bool true) && t.host.opState == .idle) = true := by decide
/-- CV6, CV7: the clock is at 2^32 + 0x1EE, or one less; 750 ms, or 749, have passed since 0xFFFFFF00. -/
theorem test_conversion_wraps :
    (nextIs (step ⟨dev0, { host0 with prog := [⟨.call .checkConversionStatus, []⟩], opState := .convertingTemperature
                                      convStart := 0xFFFFFF00#32, clock := 2 ^ 32 }, env0 [0x1EE]⟩)
      (fun t => t.host.result == some (.bool true) && t.host.opState == .idle)
    && nextIs (step ⟨dev0, { host0 with prog := [⟨.call .checkConversionStatus, []⟩], opState := .convertingTemperature
                                        convStart := 0xFFFFFF00#32, clock := 2 ^ 32 }, env0 [0x1ED]⟩)
      (fun t => t.host.result == some (.bool false) && t.host.opState == .convertingTemperature)) = true := by decide

/-! ## Witnesses: for every statement with hypotheses, a state and operands that meet them, clause by clause -/

/-- The state of the witnesses: idle, line high. -/
abbrev s0 : State := st dev0 []
/-- A device with a 1-Wire reset in flight. -/
abbrev busy0 : Device := { dev0 with pending := some (.reset1W 0) }
/-- A device whose channel switch is settling. -/
abbrev settling0 : Device := { dev0 with settling := true }
/-- A device stopped by a fault. -/
abbrev stopped0 : Device := { dev0 with fault := some (.badPointer 0#8) }
/-- No device at the address. -/
abbrev absent0 (prog : List Task) : State := ⟨dev0, { host0 with prog := prog }, { env0 [] with devicePresent := false }⟩
/-- Transactions may fail. -/
abbrev noisy0 (script : List Nat) : State := ⟨dev0, host0, { env0 script with busErrors := true }⟩

theorem witness_DecodeEncodeAgree : decode (.write [0xE1#8, 0x00#8]) = .ok (.srp 0x00#8) ∧ decode .read = .ok .rd := ⟨rfl, rfl⟩

theorem witness_OtherWritesRejectedByName :
    0x69#8 ∉ [0xF0#8, 0xE1#8, 0xD2#8, 0xC3#8, 0xB4#8, 0xA5#8, 0x96#8, 0x87#8, 0x78#8]
      ∧ (0x96#8 ∈ [0xF0#8, 0xB4#8, 0x96#8] ∧ [0x00#8].length ≠ 0)
      ∧ (0x78#8 ∈ [0xE1#8, 0xD2#8, 0xC3#8, 0xA5#8, 0x87#8, 0x78#8] ∧ ([] : List Byte).length ≠ 1
          ∧ [0x00#8, 0x00#8].length ≠ 1) := by decide

theorem witness_StepRunsDecodedInstruction :
    decode (.write [0xE1#8, 0xF0#8]) = .ok (.srp 0xF0#8)
      ∧ (dev0.fault = none ∧ engineEnabled (stProg dev0 [] [⟨.txn (.write [0xE1#8, 0xF0#8]), []⟩]) = false)
      ∧ (busy0.fault = none ∧ engineEnabled (stSched busy0 .host [⟨.txn (.write [0xE1#8, 0xF0#8]), []⟩]) = true
          ∧ (stSched busy0 .host [⟨.txn (.write [0xE1#8, 0xF0#8]), []⟩]).env.sched = .host :: [])
      ∧ ∃ u, exec (.srp 0xF0#8) (stProg dev0 [] [⟨.txn (.write [0xE1#8, 0xF0#8]), []⟩]) = .next u ∧ u.dev.fault = none :=
  ⟨rfl, ⟨rfl, rfl⟩, ⟨rfl, rfl, rfl⟩, _, rfl, rfl⟩

theorem witness_NothingRunsAfterFault : (st stopped0 []).dev.fault = some (.badPointer 0#8) := rfl

theorem witness_UnfaultedStepAnswersNext : s0.dev.fault = none := rfl

theorem witness_EngineMovesWhereChosen :
    (engineEnabled (st busy0 []) = true ∧ hostEnabled (st busy0 []) = false)
      ∧ (engineEnabled (stSched settling0 .engine [⟨.delay .poll, []⟩]) = true
          ∧ hostEnabled (stSched settling0 .engine [⟨.delay .poll, []⟩]) = true
          ∧ (stSched settling0 .engine [⟨.delay .poll, []⟩]).env.sched = .engine :: [])
      ∧ (engineEnabled (stProg settling0 [] [⟨.delay .settle, []⟩]) = true
          ∧ hostEnabled (stProg settling0 [] [⟨.delay .settle, []⟩]) = false)
      ∧ (engineEnabled s0 = false ∧ hostEnabled s0 = false) := by decide

theorem witness_AbsentDeviceChangesNothing :
    (absent0 []).dev.fault = none ∧ (absent0 []).env.devicePresent = false := by decide

theorem witness_FailedWriteAppliedOrNot :
    (noisy0 []).dev.fault = none ∧ (noisy0 []).env.devicePresent = true
      ∧ (noisy0 []).env.busErrors = true ∧ (noisy0 [1, 0]).env.script = 1 :: 0 :: []
      ∧ (noisy0 [1, 1]).env.script = 1 :: 1 :: [] ∧ (noisy0 [0]).env.script = 0 :: [] := by decide

theorem witness_FailedReadChangesOnlyLevel :
    (noisy0 [1, 0]).dev.fault = none ∧ (noisy0 [1, 0]).env.devicePresent = true
      ∧ (noisy0 [1, 0]).env.busErrors = true ∧ (noisy0 [1, 0]).env.script = 1 :: 0 :: []
      ∧ (noisy0 [1, 0]).dev.readPtr = .status ∧ ({ dev0 with readPtr := .config } : Device).readPtr ≠ .status := by decide

theorem witness_RejectedWritesFault :
    Live (st busy0 []) ∧ Live (st settling0 [])
      ∧ 0x00#8 ∉ [0xF0#8, 0xE1#8, 0xD2#8, 0xC3#8, 0xB4#8, 0xA5#8, 0x96#8, 0x87#8, 0x78#8]
      ∧ (0xF0#8 ∈ [0xF0#8, 0xB4#8, 0x96#8] ∧ [0x00#8].length ≠ 0)
      ∧ (0xA5#8 ∈ [0xE1#8, 0xD2#8, 0xC3#8, 0xA5#8, 0x87#8, 0x78#8] ∧ ([] : List Byte).length ≠ 1) := by decide

theorem witness_BusyDeviceFaultsCommands :
    Live (st busy0 []) ∧ (st busy0 []).dev.pending = some (.reset1W 0) ∧ gatedCode (.wcfg 0x00#8) = some 0xD2#8
      ∧ gatedCode (.w1t 0x00#8) = some 0x78#8 := by decide

theorem witness_SettlingDeviceFaultsCommands :
    Live (st settling0 []) ∧ (st settling0 []).dev.pending = none ∧ (st settling0 []).dev.settling = true
      ∧ gatedCode (.chsl 0x00#8) = some 0xC3#8 := by decide

theorem witness_WellFormedRunsWithoutFault :
    Live s0 ∧ Quiet s0 ∧ (Instr.chsl 0x87#8).wellFormed = true ∧ (Instr.chsl 0x78#8).wellFormed = false
      ∧ Live (st busy0 []) ∧ Instr.srp 0xF1#8 = .srp 0xF1#8 ∧ (Instr.srp 0xF1#8).wellFormed = false := by decide

theorem witness_DrstResetsDevice :
    Live (st busy0 [1, 3]) ∧ Live (st settling0 [0, 0]) ∧ (st busy0 [1, 3]).env.script = 1 :: 3 :: [] := by decide

theorem witness_SrpSelectsRegister :
    Live (st busy0 []) ∧ Live (st settling0 [])
      ∧ (0xF0#8, ReadReg.status) ∈ [(0xF0#8, ReadReg.status), (0xE1#8, .readData), (0xD2#8, .channel), (0xC3#8, .config)]
      ∧ (0xC3#8, ReadReg.config) ∈ [(0xF0#8, ReadReg.status), (0xE1#8, .readData), (0xD2#8, .channel), (0xC3#8, .config)]
      ∧ 0xF1#8 ∉ [0xF0#8, 0xE1#8, 0xD2#8, 0xC3#8] := by decide

theorem witness_WcfgStoresConfiguration :
    Live (st dev0 [2]) ∧ Quiet (st dev0 [2]) ∧ (0xF0#8 : Byte).extractLsb' 4 4 = ~~~ (0xF0#8 : Byte).extractLsb' 0 4
      ∧ (0x0F#8 : Byte).extractLsb' 4 4 = ~~~ (0x0F#8 : Byte).extractLsb' 0 4
      ∧ (0x00#8 : Byte).extractLsb' 4 4 ≠ ~~~ (0x00#8 : Byte).extractLsb' 0 4
      ∧ (Live (st busy0 []) ∧ (st busy0 []).dev.pending = some (.reset1W 0))
      ∧ (Live (st settling0 []) ∧ (st settling0 []).dev.pending = none ∧ (st settling0 []).dev.settling = true)
      ∧ (st dev0 [2]).env.script = 2 :: [] := by decide

theorem witness_ChslSelectsChannel :
    Live (st dev0 [2]) ∧ Quiet (st dev0 [2])
      ∧ (0xF0#8, (0 : Channel)) ∈ [(0xF0#8, (0 : Channel)), (0xE1#8, 1), (0xD2#8, 2), (0xC3#8, 3), (0xB4#8, 4), (0xA5#8, 5),
          (0x96#8, 6), (0x87#8, 7)]
      ∧ (0x87#8, (7 : Channel)) ∈ [(0xF0#8, (0 : Channel)), (0xE1#8, 1), (0xD2#8, 2), (0xC3#8, 3), (0xB4#8, 4), (0xA5#8, 5),
          (0x96#8, 6), (0x87#8, 7)]
      ∧ 0x78#8 ∉ [0xF0#8, 0xE1#8, 0xD2#8, 0xC3#8, 0xB4#8, 0xA5#8, 0x96#8, 0x87#8]
      ∧ (Live (st busy0 []) ∧ (st busy0 []).dev.pending = some (.reset1W 0))
      ∧ (Live (st settling0 []) ∧ (st settling0 []).dev.pending = none ∧ (st settling0 []).dev.settling = true) := by decide

/-- The five 1-Wire commands share their hypotheses. -/
theorem witness_OneWireCommandsStart :
    Live (st dev0 [2]) ∧ Quiet (st dev0 [2]) ∧ (st dev0 [2]).env.script = 2 :: [] := by decide

theorem witness_RdAlwaysAnswers :
    Live (st { busy0 with readPtr := .channel } []) ∧ (st { busy0 with readPtr := .channel } []).dev.readPtr ≠ .status := by
  decide

theorem witness_RdStatusShowsStoredBits :
    Live (st dev0 [1]) ∧ (st dev0 [1]).dev.pending = none ∧ (st dev0 [1]).dev.readPtr = .status
      ∧ (st dev0 [1]).env.script = 1 :: [] := by decide

theorem witness_RdStatusWhileBusy :
    Live (st busy0 [1, 0, 1, 0]) ∧ (st busy0 [1, 0, 1, 0]).dev.readPtr = .status
      ∧ (st busy0 [1, 0, 1, 0]).dev.pending = some (.reset1W 0)
      ∧ (st { dev0 with pending := some (.bit true 7) } [1, 0, 1, 0]).dev.pending = some (.bit true 7)
      ∧ (st { dev0 with pending := some (.triplet false 7) } [1, 0, 1, 0]).dev.pending = some (.triplet false 7)
      ∧ (st busy0 [1, 0, 1, 0]).env.script = 1 :: 0 :: 1 :: 0 :: []
      ∧ (∀ d ch, Op.reset1W 0 ≠ .triplet d ch) ∧ (∀ v ch, Op.reset1W 0 ≠ .bit v ch) ∧ ∀ ch, Op.readByte 0 ≠ .reset1W ch := by
  decide

theorem witness_RdReadDataReturnsByte :
    Live (st { busy0 with readPtr := .readData, readData := some 0x91#8 } [])
      ∧ (st { busy0 with readPtr := .readData, readData := some 0x91#8 } []).dev.readData = some 0x91#8
      ∧ (∀ ch, busy0.pending ≠ some (.readByte ch)) ∧ dev0.readData = none
      ∧ (st { dev0 with pending := some (.readByte 7) } [9]).dev.pending = some (.readByte 7)
      ∧ (st { dev0 with pending := some (.readByte 7) } [9]).env.script = 9 :: [] := by decide

theorem witness_RdChannelReturnsReadback :
    Live (st { dev0 with readPtr := .channel } []) ∧ dev0.settling = false
      ∧ (dev0.channel, 0xB8#8) ∈ [((0 : Channel), 0xB8#8), (1, 0xB1#8), (2, 0xAA#8), (3, 0xA3#8), (4, 0x9C#8), (5, 0x95#8),
          (6, 0x8E#8), (7, 0x87#8)]
      ∧ ((7 : Channel), 0x87#8) ∈ [((0 : Channel), 0xB8#8), (1, 0xB1#8), (2, 0xAA#8), (3, 0xA3#8), (4, 0x9C#8), (5, 0x95#8),
          (6, 0x8E#8), (7, 0x87#8)]
      ∧ settling0.settling = true := by decide

theorem witness_RdConfigReturnsNibble :
    Live (st { dev0 with readPtr := .config, cfg := 0xF#4 } [])
      ∧ (st { dev0 with readPtr := .config, cfg := 0xF#4 } []).dev.readPtr = .config := by decide

/-- The completions: an operation of each kind in flight, and the draws the statements name. -/
theorem witness_Completions :
    (st { dev0 with pending := some (.reset1W 7) } [1, 0]).dev.pending = some (.reset1W 7)
      ∧ (st { dev0 with pending := some (.bit false 7) } []).dev.pending = some (.bit false 7)
      ∧ ((st { dev0 with pending := some (.bit true 0) } [1]).dev.pending = some (.bit true 0)
          ∧ (st { dev0 with pending := some (.bit true 0) } [1]).env.script = 1 :: [])
      ∧ (st { dev0 with pending := some (.writeByte 0xFF#8 0) } []).dev.pending = some (.writeByte 0xFF#8 0)
      ∧ (st { dev0 with pending := some (.readByte 0) } [1, 0, 0, 0, 0, 0, 0, 1]).env.script =
          ([0, 1, 2, 3, 4, 5, 6, 7].map fun i => if (0x81#8).getLsbD i then 1 else 0) ++ []
      ∧ (st { dev0 with pending := some (.triplet true 0) } [0, 1]).dev.pending = some (.triplet true 0)
      ∧ (st { dev0 with pending := some (.triplet true 0) } [0, 1]).env.script = 0 :: 1 :: [] := by decide

/-- The draws each kind of operation takes, before SPU's. -/
theorem witness_CompletionDrawsSpu :
    (st { dev0 with pending := some (.bit false 0), cfg := 0b0100#4 } [0]).dev.pending = some (.bit false 0)
      ∧ (0b0100#4).getLsbD 2 = true ∧ (0b1011#4).getLsbD 2 = false
      ∧ (st dev0 [1, 0, 1]).env.script = [1, 0] ++ 1 :: []
      ∧ (Op.reset1W 0).takes [1, 0] ∧ (Op.bit true 0).takes [1] ∧ (Op.bit false 0).takes []
      ∧ (Op.writeByte 0x00#8 0).takes [] ∧ (Op.writeByte 0x81#8 0).takes [1, 0] ∧ (Op.readByte 0).takes [1, 0, 0, 0, 1, 0, 0, 1]
      ∧ (Op.triplet true 0).takes [0, 1] ∧ (Op.triplet true 0).takes [0, 0, 1] :=
  ⟨rfl, by decide, by decide, rfl, rfl, rfl, rfl, rfl, rfl, rfl,
    ⟨0, 1, [], by decide⟩, ⟨0, 0, [1], by decide⟩⟩

theorem witness_SettleStepEndsSettling : settling0.pending = none ∧ settling0.settling = true := by decide

/-- The host at its status read inside the busyWait of a wireReset that startTemperatureConversion called. -/
abbrev deep0 : State :=
  stSched busy0 .host [⟨.txn .read, [.statusRead, .pollStatus, .wireResetReady, .startReset]⟩, ⟨.call .begin, []⟩]

theorem deep0_inv : Inv deep0 := by
  refine ⟨by rintro op ⟨⟩; exact ⟨rfl, rfl⟩, ?_, by rintro ch x ⟨⟩⟩
  rintro task rest ⟨⟩
  exact ⟨⟨rfl, _, rfl, rfl, _, rfl, rfl, _, rfl, rfl, _, ⟨0#8, rfl⟩, trivial⟩, by simp, by rintro ⟨⟩⟩

theorem witness_EveryStepKeepsInvariant : Inv deep0 ∧ ∃ t, step deep0 = .next t :=
  ⟨deep0_inv, _, rfl⟩

theorem witness_ResetValues :
    dev0.fault = none ∧ HostMoves (stSched busy0 .host [⟨.powerCycle, []⟩])
      ∧ (stSched busy0 .host [⟨.powerCycle, []⟩]).host.prog = ⟨.powerCycle, []⟩ :: []
      ∧ (stProg dev0 [0, 3] [⟨.powerCycle, []⟩]).env.script = 0 :: 3 :: [] := ⟨rfl, .inr rfl, rfl, rfl⟩

theorem witness_PresenceWrittenByResetOnly :
    (∃ t, step (st busy0 [1, 0]) = .next t ∧ t.dev.ppd ≠ (st busy0 [1, 0]).dev.ppd)
      ∧ ∃ t, step (stProg { dev0 with sd := true } [0, 0] [⟨.txn (.write [0xF0#8]), []⟩]) = .next t
          ∧ t.dev.sd ≠ true := ⟨⟨_, rfl, by decide⟩, _, rfl, by decide⟩

theorem witness_ChannelChangesByChslOrReset :
    (∃ t, step (stProg dev0 [0] [⟨.txn (.write [0xC3#8, 0x87#8]), []⟩]) = .next t ∧ t.dev.channel ≠ dev0.channel)
      ∧ ∃ t, step (stProg { dev0 with channel := 7 } [0, 0] [⟨.powerCycle, []⟩]) = .next t ∧ t.dev.channel ≠ 7 :=
  ⟨⟨_, rfl, by decide⟩, _, rfl, by decide⟩

theorem witness_BusyFlagChangesByRule :
    (∃ t, step (st busy0 [1, 0]) = .next t) ∧ busy0.pending = some (.reset1W 0)
      ∧ (∃ t, step (stProg dev0 [0] [⟨.txn (.write [0x78#8, 0x80#8]), []⟩]) = .next t) ∧ dev0.pending = none :=
  ⟨⟨_, rfl⟩, rfl, ⟨_, rfl⟩, rfl⟩

theorem witness_RstChangesByResetOrWcfg :
    (∃ t, step (stProg dev0 [0] [⟨.txn (.write [0xD2#8, 0x0F#8]), []⟩]) = .next t ∧ t.dev.rst ≠ dev0.rst)
      ∧ ∃ t, step (stProg { dev0 with rst := false } [0, 0] [⟨.txn (.write [0xF0#8]), []⟩]) = .next t
          ∧ t.dev.rst ≠ false := ⟨⟨_, rfl, by decide⟩, _, rfl, by decide⟩

/-- A host that is at one position, or at none. -/
theorem inv_of_prog (d : Device) (h : DeviceInv d) (script : List Nat) (op : HostOp) (konts : List Kont)
    (hp : Placed op konts) : Inv (stProg d script [⟨op, konts⟩]) := by
  refine ⟨h, ?_, by rintro ch x ⟨⟩⟩
  rintro task rest ⟨⟩
  exact ⟨hp, by simp, by rintro ⟨⟩⟩

theorem dev0_inv (p : ReadReg) (b : Option Byte) : DeviceInv { dev0 with readPtr := p, readData := b } := by rintro op ⟨⟩

/-- A readback mismatch enters ERROR; an acknowledged convert-T byte starts CONVERTING_TEMPERATURE. -/
theorem witness_OpStateChangesByTransition :
    (∃ s t, Inv s ∧ step s = .next t ∧ t.host.opState = .error ∧ s.host.opState = .idle)
      ∧ ∃ s t, Inv s ∧ step s = .next t ∧ t.host.opState = .convertingTemperature ∧ s.host.opState = .idle :=
  ⟨⟨stProg { dev0 with readPtr := .channel } [] [⟨.txn .read, [.selectRead 3]⟩], _,
      inv_of_prog _ (dev0_inv _ none) _ _ _ ⟨rfl, _, ⟨3#8, rfl⟩, trivial⟩, rfl, rfl, rfl⟩,
    ⟨stProg dev0 [0, 5] [⟨.txn (.write [0xA5#8, 0x44#8]), [.writeByteSent, .startConvert]⟩], _,
      inv_of_prog _ (dev0_inv .status none) _ _ _ ⟨⟨_, rfl⟩, _, ⟨_, rfl⟩, rfl, _, ⟨0#8, rfl⟩, trivial⟩, rfl, rfl, rfl⟩⟩

theorem witness_CurChannelWrittenBySelection :
    ∃ t, step (stProg { dev0 with readPtr := .channel, channel := 7 } [] [⟨.txn .read, [.selectRead 7]⟩]) = .next t
      ∧ t.host.curChannel ≠ host0.curChannel := ⟨_, rfl, by decide⟩

theorem witness_AddressAndEnvironmentFixed : ∃ t, step s0 = .next t := ⟨_, rfl⟩

/-- A fair run that starts with an operation in flight: its completion, then nothing. -/
def fairRun (n : Nat) : State := if n = 0 then st busy0 [1, 0] else engineStep (st busy0 [1, 0])

theorem witness_FairRunEndsPending : IsRun fairRun ∧ FairRun fairRun ∧ (fairRun 0).dev.pending ≠ none := by
  refine ⟨fun n => ?_, fun n h => ?_, by decide⟩
  · cases n with
    | zero => rfl
    | succ n => rfl
  · exact absurd (h (n + 1) (Nat.le_succ n)) (by show ¬ engineEnabled (engineStep (st busy0 [1, 0])) = true; decide)

/-- The eight bytes of a scratchpad read but its last: 25.0625 degrees. -/
abbrev scratch8 : List Byte := [0x91#8, 0x01#8, 0x4B#8, 0x46#8, 0x7F#8, 0xFF#8, 0x0F#8, 0x10#8]
/-- The ninth byte of a scratchpad read is there to be read. -/
abbrev ninth0 (k : Kont) : State :=
  stProg { dev0 with readPtr := .readData, readData := some 0xC3#8 } [] [⟨.txn .read, [.readByteFetched, .scratchByte scratch8, k]⟩]

/-- EX8: the scratchpad of 25.0625 degrees, through readTemperature and through readScratchpad. -/
theorem test_scratchpad_outputs :
    (nextIs (step (ninth0 .temperatureScratch)) (fun t => t.host.tempOut == 0x41C88000#32 && t.host.scratchOut == [])
    && nextIs (step (ninth0 .scratchOut)) (fun t => t.host.scratchOut == scratch8 ++ [0xC3#8] && t.host.tempOut == 0#32)) = true := by
  decide +kernel

theorem witness_OutputsWrittenOnSuccessOnly :
    (∃ s t, Inv s ∧ step s = .next t ∧ t.host.convStart ≠ s.host.convStart)
      ∧ (∃ t, Inv (ninth0 .scratchOut) ∧ step (ninth0 .scratchOut) = .next t
          ∧ t.host.scratchOut ≠ (ninth0 .scratchOut).host.scratchOut)
      ∧ ∃ t, Inv (ninth0 .temperatureScratch) ∧ step (ninth0 .temperatureScratch) = .next t
          ∧ t.host.tempOut ≠ (ninth0 .temperatureScratch).host.tempOut :=
  ⟨⟨stProg dev0 [0, 5] [⟨.txn (.write [0xA5#8, 0x44#8]), [.writeByteSent, .startConvert]⟩], _,
      inv_of_prog _ (dev0_inv .status none) _ _ _ ⟨⟨_, rfl⟩, _, ⟨_, rfl⟩, rfl, _, ⟨0#8, rfl⟩, trivial⟩, rfl, by decide⟩,
    ⟨_, inv_of_prog _ (dev0_inv _ _) _ _ _ ⟨rfl, _, rfl, ⟨rfl, by decide⟩, _, rfl, rfl, _, rfl, trivial⟩, rfl, by decide⟩,
    _, inv_of_prog _ (dev0_inv _ _) _ _ _ ⟨rfl, _, rfl, ⟨rfl, by decide⟩, _, rfl, rfl, _, ⟨0#8, rfl⟩, trivial⟩, rfl, by decide +kernel⟩

/-- A run without a device: the call of busyWait, that of readStatus, the failed SRP and with it the time-out, then nothing. -/
def waitRun (n : Nat) : State :=
  match n with
  | 0 => ⟨dev0, { host0 with prog := [⟨.call .busyWait, []⟩] }, { env0 [1] with devicePresent := false }⟩
  | n + 1 =>
    match step (waitRun n) with
    | .next t => t
    | .fault _ => waitRun n
    | .refused _ => waitRun n

theorem waitRun_ends (n : Nat) : waitRun (n + 3) = waitRun 3 := by
  induction n with
  | zero => rfl
  | succ n ih => unfold waitRun; rw [ih]; rfl

theorem witness_BusyWaitReturns : IsRun waitRun ∧ HostFairRun waitRun ∧ InBusyWait [] [] (waitRun 0) := by
  refine ⟨fun n => ?_, fun ks rest n _ => ⟨n + 3, Nat.le_add_right n 3, ?_⟩, _, [], rfl, by decide⟩
  · match n with
    | 0 => rfl
    | 1 => rfl
    | 2 => rfl
    | n + 3 => rw [waitRun_ends n, waitRun_ends (n + 1)]; rfl
  · rw [waitRun_ends n]
    rintro ⟨op, inner, h, -⟩
    exact absurd h (List.cons_ne_nil _ _).symm

/-! Host procedures -/

theorem witness_SelectRejectsOutOfRange :
    s0.dev.fault = none ∧ HostMoves s0 ∧ HostMoves (stSched busy0 .host [⟨.call (.selectChannel 8#8), []⟩])
      ∧ 7 < (8#8).toNat ∧ 7 < (255#8).toNat
      ∧ (stSched busy0 .host [⟨.call (.selectChannel 8#8), []⟩]).host.prog = ⟨.call (.selectChannel 8#8), []⟩ :: [] :=
  ⟨rfl, .inl rfl, .inr rfl, by decide, by decide, rfl⟩

theorem witness_SelectChannelSucceeds :
    Live s0 ∧ Quiet s0
      ∧ (stProg dev0 [] [⟨.call (.selectChannel (BitVec.ofNat 8 (7 : Channel).val)), []⟩]).host.prog =
          ⟨.call (.selectChannel (BitVec.ofNat 8 (7 : Channel).val)), []⟩ :: [] := by decide

theorem witness_SelectReadbackDecides :
    Live (stProg { dev0 with readPtr := .channel } [] [⟨.txn .read, [.selectRead 0]⟩])
      ∧ Quiet (stProg { dev0 with readPtr := .channel } [] [⟨.txn .read, [.selectRead 0]⟩])
      ∧ dev0.channel = 0 ∧ dev0.channel ≠ 7 := by decide

theorem witness_ResetSequenceSucceeds :
    Live (stProg dev0 [] [⟨.call .wakeUp, []⟩]) ∧ Quiet (stProg dev0 [] [⟨.call .wakeUp, []⟩])
      ∧ Proc.wakeUp ∈ [Proc.reset, .begin, .wakeUp] := by decide

theorem witness_AbsentDeviceFailsBegin :
    (absent0 [⟨.call .begin, []⟩]).dev.fault = none ∧ HostMoves (absent0 [⟨.call .begin, []⟩])
      ∧ (absent0 [⟨.call .begin, []⟩]).env.devicePresent = false ∧ Proc.begin ∈ [Proc.reset, .begin, .wakeUp]
      ∧ (absent0 [⟨.call .readStatus, []⟩]).host.prog = ⟨.call .readStatus, []⟩ :: []
      ∧ ∃ s1, step (absent0 [⟨.call .begin, []⟩]) = .next s1 ∧ HostMoves s1 :=
  ⟨rfl, .inl rfl, rfl, by decide, rfl, _, rfl, .inl rfl⟩

theorem witness_BusyWaitDecidesOnBusyBit :
    Live (stProg settling0 [] [⟨.txn .read, [.statusRead, .pollStatus]⟩])
      ∧ HostMoves (stSched settling0 .host [⟨.txn .read, [.statusRead, .pollStatus]⟩]) ∧ settling0.pending = none
      ∧ (stSched busy0 .host [⟨.txn .read, [.statusRead, .pollStatus]⟩]).dev.pending = some (.reset1W 0)
      ∧ (stSched busy0 .host [⟨.txn .read, [.statusRead, .pollStatus]⟩]).dev.readPtr = .status
      ∧ HostMoves (stSched busy0 .host [⟨.txn .read, [.statusRead, .pollStatus]⟩])
      ∧ [1, 0, 1].length = (Op.reset1W 0).resultDraws + 1 ∧ (st busy0 [1, 0, 1, 1]).env.script = [1, 0, 1] ++ 1 :: [] :=
  ⟨⟨rfl, rfl, rfl⟩, .inr rfl, rfl, rfl, rfl, .inr rfl, rfl, rfl⟩

theorem witness_WireResetReportsPresence :
    Live (stSched dev0 .engine [⟨.call .wireReset, []⟩]) ∧ Quiet (stSched dev0 .engine [⟨.call .wireReset, []⟩])
      ∧ (stSched dev0 .engine [⟨.call .wireReset, []⟩]).env.sched = .engine :: [] := by decide

theorem witness_WireWriteByteLeavesByteInFlight :
    Live (stProg dev0 [] [⟨.call (.wireWriteByte 0xCC#8), []⟩])
      ∧ Quiet (stProg dev0 [] [⟨.call (.wireWriteByte 0xCC#8), []⟩]) := by decide

theorem witness_StartRefusedWithoutTraffic :
    s0.dev.fault = none ∧ HostMoves (stSched busy0 .host [⟨.call (.startTemperatureConversion 8#8), []⟩])
      ∧ ({ host0 with opState := .error } : HostState).opState = .error
      ∧ host0.opState ≠ .error ∧ 7 < (8#8).toNat
      ∧ ∃ s1, step (stProg dev0 [] [⟨.call (.startTemperatureConversion 8#8), []⟩]) = .next s1 ∧ HostMoves s1 :=
  ⟨rfl, .inr rfl, rfl, by decide, by decide, _, rfl, .inl rfl⟩

theorem witness_CheckConversionComparesTime :
    s0.dev.fault = none
      ∧ HostMoves (stSched { dev0 with pending := some (.writeByte 0x44#8 0) } .host [⟨.call .checkConversionStatus, []⟩])
      ∧ host0.opState ≠ .convertingTemperature
      ∧ ({ host0 with opState := .convertingTemperature } : HostState).opState = .convertingTemperature
      ∧ 750 ≤ (BitVec.ofNat 32 750 - 0#32).toNat ∧ (BitVec.ofNat 32 749 - 0#32).toNat < 750 :=
  ⟨rfl, .inr rfl, by decide, rfl, by decide, by decide⟩

theorem witness_SuccessWritesOutputs :
    (Live s0 ∧ Quiet s0)
      ∧ (Live (ninth0 .scratchOut) ∧ HostMoves (ninth0 .scratchOut) ∧ (ninth0 .scratchOut).dev.readPtr = .readData
        ∧ (ninth0 .scratchOut).dev.readData = some 0xC3#8 ∧ (∀ ch, (ninth0 .scratchOut).dev.pending ≠ some (.readByte ch))
        ∧ scratch8.length = 8 ∧ scratch8 = 0x91#8 :: 0x01#8 :: scratch8.drop 2) :=
  ⟨⟨⟨rfl, rfl, rfl⟩, rfl, rfl⟩, ⟨rfl, rfl, rfl⟩, .inl rfl, rfl, rfl, (by rintro ch ⟨⟩), rfl, rfl⟩

end Sys2Proof.Tests
end

namespace Sys2Proof.Machine

/-! ## The choice of the agent -/

/-- Where both agents can move, the one placed first is chosen, and its entry is used up (log 3). -/
theorem chooseAgent_of_sched {s : State} {a : Agent} {more : List Agent} (h : s.env.sched = a :: more) :
    s.chooseAgent = (a, { s with env.sched := more }) := by
  unfold State.chooseAgent; rw [h]

theorem afterChoice_of_disabled {s : State} (he : engineEnabled s = false) : s.afterChoice = s := by
  simp [State.afterChoice, he]

theorem afterChoice_of_sched {s : State} {a : Agent} {more : List Agent} (he : engineEnabled s = true)
    (h : s.env.sched = a :: more) : s.afterChoice = { s with env.sched := more } := by
  simp [State.afterChoice, he, chooseAgent_of_sched h]

theorem hostMoves_of_sched {s : State} {more : List Agent} (h : s.env.sched = .host :: more) : HostMoves s :=
  .inr (by rw [chooseAgent_of_sched h])

/-- Where only the engine can move nobody chooses (R15). -/
theorem step_of_engineOnly {s : State} (hf : s.dev.fault = none) (he : engineEnabled s = true)
    (hh : hostEnabled s = false) : step s = .next (engineStep s) := by
  unfold step runStep; rw [hf, he, hh]

/-- Where both agents can move and the engine is placed first, it moves (R265, log 3). -/
theorem step_of_engineFirst {s : State} {more : List Agent} (hf : s.dev.fault = none) (he : engineEnabled s = true)
    (hh : hostEnabled s = true) (h : s.env.sched = .engine :: more) :
    step s = .next (engineStep { s with env.sched := more }) := by
  unfold step runStep; rw [hf, he, hh, chooseAgent_of_sched h]

/-- The device waits for the next transaction (70_reset_and_hazards.md R281, log 25). -/
theorem step_of_noneEnabled {s : State} (hf : s.dev.fault = none) (he : engineEnabled s = false)
    (hh : hostEnabled s = false) : step s = .next s := by
  unfold step runStep; rw [hf, he, hh]

/-- Settles O7: the three clauses are the rows of the choice in which the host does not move. -/
theorem engineMovesWhereChosen : Obligations.EngineMovesWhereChosen := by
  intro s hf
  exact ⟨step_of_engineOnly hf, fun _ => step_of_engineFirst hf, step_of_noneEnabled hf⟩

/-! ## The transaction the host sends -/

theorem runTxn_of_decode {x : Txn} {i : Instr} (h : decode x = .ok i) (s : State) : runTxn x s = exec i s := by
  unfold runTxn; rw [h]

/-- A host step at a transaction that decodes: the instruction runs, then its answer is delivered (R68, R200). -/
theorem hostStep_of_decode {s : State} {x : Txn} {i : Instr} {konts : List Kont} {rest : List Task}
    (hp : s.host.prog = ⟨.txn x, konts⟩ :: rest) (h : decode x = .ok i) :
    hostStep s = andThen (exec i s) (deliver rest konts x) := by
  unfold hostStep; rw [hp, ← runTxn_of_decode h]

/-- The machine's step at a transaction that decodes, wherever the host moves. -/
theorem step_of_decode {s : State} {x : Txn} {i : Instr} {konts : List Kont} {rest : List Task}
    (hf : s.dev.fault = none) (hm : HostMoves s) (hp : s.host.prog = ⟨.txn x, konts⟩ :: rest)
    (h : decode x = .ok i) : step s = andThen (exec i s.afterChoice) (deliver rest konts x) := by
  rw [step_of_hostMoves hf hm hp (fun hd => HostOp.noConfusion hd)]
  exact hostStep_of_decode (by rw [afterChoice_host, hp]) h

/-- An answer that no position waits for ends its entry of the program and is the entry's result. -/
theorem deliver_nil_of_unfaulted {u : State} {rest : List Task} {x : Txn} (hf : u.dev.fault = none) :
    deliver rest [] x u =
      { u with host := { u.host with prog := rest, result := some (replyRet x u.host.reply) } } := by
  rw [deliver_of_unfaulted hf, unwind]

/-- Settles O4: where the host moves, step is hostStep after the choice; the clauses differ in what the choice leaves. -/
theorem stepRunsDecodedInstruction : Obligations.StepRunsDecodedInstruction := by
  intro s x i konts rest hf hp hd
  have alone : engineEnabled s = false → step s = andThen (exec i s) (deliver rest konts x) := fun he => by
    rw [step_of_decode hf (.inl he) hp hd, afterChoice_of_disabled he]
  refine ⟨alone, fun more he hs => ?_, fun u he hk hu huf => ?_⟩
  · rw [step_of_decode hf (hostMoves_of_sched hs) hp hd, afterChoice_of_sched he hs]
  · rw [alone he, hu, andThen, hk, deliver_nil_of_unfaulted huf]

/-! ## Fair runs -/

theorem engineEnabled_of_pending {s : State} (h : s.dev.pending ≠ none) : engineEnabled s = true := by
  simp [engineEnabled, Option.isSome_iff_ne_none.mpr h]

theorem pending_of_engineMoved {s t : State} (h : engineMoved s t) : t.dev.pending = none := by
  obtain ⟨c, -, -, rfl⟩ := h
  exact engineStep_pending c

/-- Settles O46: an operation that stayed pending for ever would keep the engine enabled, so by fairness the engine would
move, and its step leaves nothing pending. -/
theorem fairRunEndsPending : Obligations.FairRunEndsPending := by
  intro run _ fair n _
  by_contra! stays
  obtain ⟨m, hm, moved⟩ := fair n fun m hm => engineEnabled_of_pending (stays m hm)
  exact stays (m + 1) (Nat.le_succ_of_le hm) (pending_of_engineMoved moved)

end Sys2Proof.Machine

namespace Sys2Proof.Machine

/-! ## The outputs of the host's procedures -/

/-- A local computation that writes no output and answers nothing: the clock can only have moved on. -/
def KeepsOutputs (s t : State) : Prop :=
  t.host.convStart = s.host.convStart ∧ t.host.scratchOut = s.host.scratchOut ∧ t.host.tempOut = s.host.tempOut
    ∧ s.host.clock ≤ t.host.clock ∧ t.host.reply = s.host.reply

theorem keepsOutputs_of_host {s t : State} (h : t.host = s.host) : KeepsOutputs s t := by
  simp [KeepsOutputs, h]

theorem now_keepsOutputs (s : State) : KeepsOutputs s s.now.2 := by
  obtain ⟨c, hc, -, hh⟩ := now_host s
  rw [KeepsOutputs, hh]
  exact ⟨rfl, rfl, rfl, hc, rfl⟩

/-- The three positions from which a procedure writes its output (R241, R243, R244). -/
def Kont.writesOutput (k : Kont) : Prop := k = .startConvert ∨ k = .scratchOut ∨ k = .temperatureScratch

theorem resume_keepsOutputs {k : Kont} (hk : ¬ k.writesOutput) (v : Ret) (s : State) :
    KeepsOutputs s (resume k v s).1 := by
  cases k
  case startConvert | scratchOut | temperatureScratch => simp [Kont.writesOutput] at hk
  case pollStatus =>
    simp only [resume]
    split
    · exact keepsOutputs_of_host rfl
    · split <;> exact keepsOutputs_of_host (by simp)
  all_goals
    simp only [resume, orFail, failWith, nextScratchByte]
    repeat' split
    all_goals exact ⟨rfl, rfl, rfl, Nat.le_refl _, rfl⟩

theorem enter_keepsOutputs (p : Proc) (s : State) : KeepsOutputs s (enter p s).1 := by
  cases p
  case checkConversionStatus =>
    simp only [enter]
    repeat' split
    · exact now_keepsOutputs s
    · exact now_keepsOutputs s
    · exact keepsOutputs_of_host rfl
  all_goals
    simp only [enter, startReset]
    repeat' split
    all_goals exact ⟨rfl, rfl, rfl, Nat.le_refl _, rfl⟩

/-- A procedure that returns at its start is none whose answer the outputs depend on. -/
theorem enter_answers {all : List Kont} {p : Proc} {s t : State} {w : Ret} (r : Reply)
    (h : enter p s = (t, .ret w)) : Answers all (.call p) r w := by
  cases p
  case selectChannel | getCurrentChannel | getState | clearState | startTemperatureConversion
    | checkConversionStatus => trivial
  all_goals cases h

/-- No procedure calls one that writes an output. -/
theorem not_awaits_of_writesOutput {k k' : Kont} {p : Proc} (hk : k.writesOutput) (hw : k.within p) :
    ¬ k'.awaits (.call p) := by
  obtain ⟨ch, rfl⟩ | rfl | ⟨ch, rfl⟩ :
      (∃ ch, p = .startTemperatureConversion ch) ∨ p = .readScratchpad ∨ ∃ ch, p = .readTemperature ch := by
    rcases hk with rfl | rfl | rfl
    exacts [.inl hw, .inr (.inl hw), .inr (.inr hw)]
  all_goals cases k' <;> simp [Kont.awaits, writeCommandOp, setReadPointerOp]

/-- So its end is the end of the program's entry. -/
theorem konts_nil_of_writesOutput {k : Kont} {p : Proc} {ks : List Kont} (hk : k.writesOutput) (hw : k.within p)
    (hp : Placed (.call p) ks) : ks = [] := by
  cases ks with
  | nil => rfl
  | cons k' _ =>
    obtain ⟨ha, -⟩ := hp
    exact absurd ha (not_awaits_of_writesOutput hk hw)

/-- What a host step from h to h' can do to the outputs where `all` are the positions of the head entry: each is as it
was, or its procedure has ended with success. -/
def OutputMoves (all : List Kont) (h h' : HostState) : Prop :=
  (h'.convStart ≠ h.convStart →
    .startConvert ∈ all ∧ h'.reply = .ack ∧ h'.opState = .convertingTemperature
      ∧ h'.convStart = BitVec.ofNat 32 h'.clock ∧ h.clock ≤ h'.clock ∧ h'.result = some (.bool true))
  ∧ (h'.scratchOut ≠ h.scratchOut →
    ∃ got b, .scratchByte got ∈ all ∧ .scratchOut ∈ all ∧ h'.reply = .data b ∧ got.length = 8
      ∧ h'.scratchOut = got ++ [b] ∧ h'.result = some (.bool true))
  ∧ (h'.tempOut ≠ h.tempOut →
    ∃ b0 b1 more b, .scratchByte (b0 :: b1 :: more) ∈ all ∧ .temperatureScratch ∈ all ∧ h'.reply = .data b
      ∧ more.length = 6 ∧ h'.tempOut = decodeTemperature b0 b1 ∧ h'.result = some (.bool true))

theorem outputMoves_of_eq {all : List Kont} {h h' : HostState} (hc : h'.convStart = h.convStart)
    (hs : h'.scratchOut = h.scratchOut) (ht : h'.tempOut = h.tempOut) : OutputMoves all h h' :=
  ⟨fun n => absurd hc n, fun n => absurd hs n, fun n => absurd ht n⟩

theorem outputMoves_of_keeps {all : List Kont} {s t : State} {h' : HostState} (k : KeepsOutputs s t)
    (m : OutputMoves all t.host h') : OutputMoves all s.host h' := by
  obtain ⟨hc, hs, ht, hclock, -⟩ := k
  obtain ⟨mc, ms, mt⟩ := m
  refine ⟨fun n => ?_, fun n => ms (hs ▸ n), fun n => mt (ht ▸ n)⟩
  obtain ⟨a, b, c, d, e, f⟩ := mc (hc ▸ n)
  exact ⟨a, b, c, d, hclock.trans e, f⟩

/-- The last position of a procedure with an output, with nothing above it: the output is written on success only, from
what was answered. -/
theorem unwind_writesOutput {all : List Kont} {k : Kont} {op : HostOp} {v : Ret} (rest : List Task) (s : State)
    (hw : k.writesOutput) (hk : k.awaits op) (hm : k ∈ all) (ha : Answers all op s.host.reply v) :
    OutputMoves all s.host (unwind rest [k] v s).host := by
  rcases hw with rfl | rfl | rfl
  · obtain rfl : op = .call (.wireWriteByte 0x44#8) := hk
    rcases ha with ⟨hr, rfl⟩ | rfl
    · obtain ⟨c, hc, hv, hh⟩ := now_host s
      refine ⟨fun _ => ⟨hm, ?_⟩, fun n => absurd ?_ n, fun n => absurd ?_ n⟩ <;>
        simp [unwind, resume, Ret.ok, hh, hr, hv, hc]
    · exact outputMoves_of_eq rfl rfl rfl
  · obtain rfl : op = .call .scratchpadBytes := hk
    rcases ha with ⟨got, b, hg, hl, hr, rfl⟩ | rfl
    · exact ⟨fun n => absurd rfl n, fun _ => ⟨got, b, hg, hm, hr, hl, rfl, rfl⟩, fun n => absurd rfl n⟩
    · exact outputMoves_of_eq rfl rfl rfl
  · obtain rfl : op = .call .scratchpadBytes := hk
    rcases ha with ⟨got, b, hg, hl, hr, rfl⟩ | rfl
    · match got, hl with
      | b0 :: b1 :: more, hl =>
        exact ⟨fun n => absurd rfl n, fun n => absurd rfl n,
          fun _ => ⟨b0, b1, more, b, hg, hm, hr, by simpa using hl, rfl, rfl⟩⟩
    · exact outputMoves_of_eq rfl rfl rfl

/-- What an answer that goes up the positions of the head entry can do to the outputs. -/
theorem unwind_outputs {all konts : List Kont} {op : HostOp} {v : Ret} (rest : List Task) (s : State)
    (hp : Placed op konts) (hm : ∀ k ∈ konts, k ∈ all) (ha : Answers all op s.host.reply v) :
    OutputMoves all s.host (unwind rest konts v s).host := by
  induction konts generalizing op v s with
  | nil => exact outputMoves_of_eq rfl rfl rfl
  | cons k ks ih =>
    obtain ⟨hk, p, hw, hks⟩ := hp
    have hka := hm k List.mem_cons_self
    by_cases hout : k.writesOutput
    · obtain rfl := konts_nil_of_writesOutput hout hw hks
      exact unwind_writesOutput rest s hout hk hka ha
    · have keeps := resume_keepsOutputs hout v s
      unfold unwind
      rcases hr : resume k v s with ⟨t, op' | w⟩
      · rw [hr] at keeps
        exact outputMoves_of_keeps keeps (outputMoves_of_eq rfl rfl rfl)
      · rw [hr] at keeps
        obtain ⟨-, -, -, -, hreply⟩ := id keeps
        exact outputMoves_of_keeps keeps (ih t hks (fun k' h' => hm k' (List.mem_cons_of_mem _ h'))
          (resume_answers hr hk hw hka (hreply ▸ ha)))

/-- What the start of a procedure at the head entry can do to the outputs. -/
theorem advance_outputs {konts : List Kont} {p : Proc} (rest : List Task) (s : State) (hp : Placed (.call p) konts) :
    OutputMoves konts s.host (advance rest konts (enter p s)).host := by
  have keeps := enter_keepsOutputs p s
  rcases he : enter p s with ⟨t, op | w⟩
  · rw [he] at keeps
    exact outputMoves_of_keeps keeps (outputMoves_of_eq rfl rfl rfl)
  · rw [he] at keeps
    exact outputMoves_of_keeps keeps (unwind_outputs rest t hp (fun _ => id) (enter_answers _ he))

/-! ## What a step can do to the host -/

theorem runTxn_host {x : Txn} {s u : State} (h : runTxn x s = .next u) :
    u.host = { s.host with reply := u.host.reply } := by
  rcases runTxn_cases h with ⟨i, -, he⟩ | ⟨bytes, why, -, -, he⟩
  · obtain ⟨-, hh, -⟩ := exec_cases he
    exact hh
  · obtain ⟨-, hh, -⟩ := execReject_cases he
    exact hh

/-- What a step can do to the host: nothing but the reply, or an answer goes up the positions of the head entry, or the
procedure at the head starts. -/
theorem step_host_cases {s t : State} (h : step s = .next t) :
    t.host = { s.host with reply := t.host.reply }
      ∨ (∃ op konts rest u v, s.host.prog = ⟨op, konts⟩ :: rest ∧ u.host = { s.host with reply := u.host.reply }
          ∧ Answers konts op u.host.reply v ∧ t = unwind rest konts v u)
      ∨ ∃ p konts rest c, s.host.prog = ⟨.call p, konts⟩ :: rest ∧ c.host = s.host
          ∧ t = advance rest konts (enter p c) := by
  obtain ⟨-, ⟨c, ⟨-, hc, -⟩, -, rfl⟩ | ⟨c, ⟨-, hc, -⟩, -, h⟩ | ⟨-, -, rfl⟩⟩ := step_cases h
  · exact .inl (by rw [engineStep_host, hc])
  · rw [← hc]
    rcases hostStep_cases h with ⟨-, rfl⟩ | ⟨x, konts, rest, u, hp, hu, rfl⟩ | ⟨d, konts, rest, hp, rfl⟩
      | ⟨p, konts, rest, hp, rfl⟩ | ⟨konts, rest, hp, rfl⟩
    · exact .inl rfl
    · have hh := runTxn_host hu
      cases hf : u.dev.fault with
      | none =>
        exact .inr (.inl ⟨_, _, _, u, _, hp, hh, runTxn_answers konts hu hf, deliver_of_unfaulted hf⟩)
      | some r =>
        refine .inl ?_
        rw [deliver, hf]
        exact hh
    · exact .inr (.inl ⟨_, _, _, c.record (.delay d), _, hp, rfl, trivial, rfl⟩)
    · exact .inr (.inr ⟨_, _, _, c, hp, rfl, rfl⟩)
    · exact .inr (.inl ⟨_, _, _, _, _, hp, by rw [powerCycle_host], trivial, rfl⟩)
  · exact .inl rfl

theorem hostWaits_of_mem {s : State} {op : HostOp} {konts : List Kont} {rest : List Task} {k : Kont}
    (hp : s.host.prog = ⟨op, konts⟩ :: rest) (hk : k ∈ konts) : hostWaits s k :=
  ⟨op, konts, rest, hp, hk⟩

/-- What a step can do to the outputs, by the positions of the head entry. -/
theorem step_outputs {s t : State} (hi : HostInv s.host) (h : step s = .next t) :
    ∃ konts, (∀ k ∈ konts, hostWaits s k) ∧ OutputMoves konts s.host t.host := by
  rcases step_host_cases h with hh | ⟨op, konts, rest, u, v, hp, hu, ha, rfl⟩ | ⟨p, konts, rest, c, hp, hc, rfl⟩
  · refine ⟨[], by simp, ?_⟩
    rw [hh]
    exact outputMoves_of_eq rfl rfl rfl
  · obtain ⟨placed, -⟩ := hi _ _ hp
    have moves := unwind_outputs rest u placed (fun _ => id) ha
    rw [hu] at moves
    exact ⟨konts, fun _ => hostWaits_of_mem hp, moves⟩
  · obtain ⟨placed, -⟩ := hi _ _ hp
    exact ⟨konts, fun _ => hostWaits_of_mem hp, hc ▸ advance_outputs rest c placed⟩

/-- Settles O47: an output is written at the last position of its procedure, which no other procedure waits for, so the
entry ends there; what was answered, carried up the positions, says which bytes it is made of. -/
theorem outputsWrittenOnSuccessOnly : Obligations.OutputsWrittenOnSuccessOnly := by
  rintro s t ⟨-, hi, -⟩ h
  obtain ⟨konts, waits, conv, scratch, temp⟩ := step_outputs hi h
  refine ⟨fun n => ?_, fun n => ?_, fun n => ?_⟩
  · exact (conv n).imp_left (waits _)
  · obtain ⟨got, b, hg, ho, more⟩ := scratch n
    exact ⟨got, b, waits _ hg, waits _ ho, more⟩
  · obtain ⟨b0, b1, more, b, hg, ho, facts⟩ := temp n
    exact ⟨b0, b1, more, b, waits _ hg, waits _ ho, facts⟩

/-! ## The host's copy of the channel, the address and the environment -/

theorem enter_curChannel (p : Proc) (s : State) : (enter p s).1.host.curChannel = s.host.curChannel := by
  cases p
  case checkConversionStatus =>
    obtain ⟨c, -, -, hh⟩ := now_host s
    simp only [enter]
    repeat' split
    all_goals simp [hh]
  all_goals
    simp only [enter, startReset]
    repeat' split
    all_goals rfl

theorem advance_curChannel (rest : List Task) (konts : List Kont) (p : Proc) (s : State) :
    CurChannelMoves konts s (advance rest konts (enter p s)) := by
  have keeps := enter_curChannel p s
  rcases he : enter p s with ⟨t, op | w⟩
  · rw [he] at keeps
    exact .inl keeps
  · rw [he] at keeps
    exact (unwind_curChannel rest konts w t).imp (fun h => h.trans keeps) id

/-- Settles O44: of all positions only selectChannel's readback writes the copy, and with the channel's number. -/
theorem curChannelWrittenBySelection : Obligations.CurChannelWrittenBySelection := by
  intro s t h changed
  have selected : ∀ {konts : List Kont} {op : HostOp} {rest : List Task} {u : State},
      s.host.prog = ⟨op, konts⟩ :: rest → u.host.curChannel = s.host.curChannel → CurChannelMoves konts u t →
        ∃ n : Channel, t.host.curChannel.toNat = n.val ∧ hostWaits s (.selectRead n) := by
    rintro konts op rest u hp hu (same | ⟨n, hn, hk⟩)
    · exact absurd (same.trans hu) changed
    · exact ⟨n, by rw [hn, BitVec.toNat_ofNat]; omega, hostWaits_of_mem hp hk⟩
  rcases step_host_cases h with hh | ⟨op, konts, rest, u, v, hp, hu, -, rfl⟩ | ⟨p, konts, rest, c, hp, hc, rfl⟩
  · exact absurd (by rw [hh]) changed
  · exact selected hp (by rw [hu]) (unwind_curChannel rest konts v u)
  · exact selected hp (by rw [hc]) (advance_curChannel rest konts p c)

/-- Settles O45, by the inversion of a step on all it does but to the device. -/
theorem addressAndEnvironmentFixed : Obligations.AddressAndEnvironmentFixed := by
  intro s t h
  obtain ⟨haddr, hpresent, herrors, new, hnew, -⟩ := step_env_cases h
  exact ⟨haddr, hpresent, herrors, new, hnew⟩

/-! ## What changes the device's status bits -/

/-- A transaction that decodes is its instruction's own. -/
theorem eq_encode_of_decode {x : Txn} {i : Instr} (h : decode x = .ok i) : x = encode i := by
  cases x with
  | read => cases h; rfl
  | write bytes =>
    rcases decodeWrite_ok h with ⟨c, rfl, hc⟩ | ⟨c, p, f, rfl, hc, rfl⟩
    · rcases commandFormat_cmd1 hc with ⟨rfl, rfl⟩ | ⟨rfl, rfl⟩ | ⟨rfl, rfl⟩ <;> rfl
    · rcases commandFormat_cmd2 hc with ⟨rfl, rfl⟩ | ⟨rfl, rfl⟩ | ⟨rfl, rfl⟩ | ⟨rfl, rfl⟩ | ⟨rfl, rfl⟩ | ⟨rfl, rfl⟩ <;>
        rfl

/-- The host's next operation is this instruction's transaction. -/
def hostIssues (s : State) (i : Instr) : Prop := ∃ konts rest, s.host.prog = ⟨.txn (encode i), konts⟩ :: rest

theorem hostSends_of_hostIssues {s : State} {i : Instr} {bytes : List Byte} (h : hostIssues s i)
    (he : encode i = .write bytes) : hostSends s bytes := by
  rwa [hostIssues, he] at h

/-- Who can change the device in a step: the engine; a device reset; another instruction, a gated one only where
nothing is in flight; nobody, LL and the fault mark aside. -/
theorem step_dev_cause {s t : State} (h : step s = .next t) :
    engineMoved s t
      ∨ t.dev = { s.dev with ll := t.dev.ll, fault := t.dev.fault }
      ∨ (resetComes s ∧ effectOf .drst s.dev t.dev)
      ∨ ∃ i, i ≠ .drst ∧ hostIssues s i ∧ effectOf i s.dev t.dev ∧ (gatedCode i ≠ none → Quiet s) := by
  rcases step_dev_cases h with ⟨c, ⟨hd, hh, -⟩, -, rfl⟩ | hl | ⟨r, hr⟩ | ⟨i, konts, rest, x, hp, hx, he, hq⟩
    | ⟨konts, rest, hp, he⟩
  · exact .inl ⟨c, hd, hh, rfl⟩
  · exact .inr (.inl (by rw [hl]))
  · exact .inr (.inl (by rw [hr]))
  · have issues : hostIssues s i := ⟨konts, rest, eq_encode_of_decode hx ▸ hp⟩
    by_cases hi : i = .drst
    · subst hi
      exact .inr (.inr (.inl ⟨.inl (hostSends_of_hostIssues issues rfl), he⟩))
    · exact .inr (.inr (.inr ⟨i, hi, issues, he, hq⟩))
  · exact .inr (.inr (.inl ⟨.inr ⟨konts, rest, hp⟩, he⟩))

theorem engineMoved_presence {s t : State} (h : engineMoved s t) (hp : ∀ ch, s.dev.pending ≠ some (.reset1W ch)) :
    t.dev.ppd = s.dev.ppd ∧ t.dev.sd = s.dev.sd := by
  obtain ⟨c, hd, -, rfl⟩ := h
  rw [← hd] at hp ⊢
  exact engineStep_presence c hp

theorem engineMoved_rst {s t : State} (h : engineMoved s t) : t.dev.rst = s.dev.rst := by
  obtain ⟨c, hd, -, rfl⟩ := h
  obtain ⟨-, -, hr, -⟩ := engineStep_dev c
  rw [hr, hd]

/-- No instruction but DRST writes PPD or SD (R23, R24). -/
theorem effectOf_presence {i : Instr} {d e : Device} (h : effectOf i d e) (hi : i ≠ .drst) :
    e.ppd = d.ppd ∧ e.sd = d.sd := by
  cases i with
  | drst => exact absurd rfl hi
  | srp _ | wcfg _ | chsl _ => obtain ⟨_, -, h⟩ := h; rw [h]; exact ⟨rfl, rfl⟩
  | w1rs | w1wb _ | w1rb | w1sb _ | w1t _ | rd => rw [h]; exact ⟨rfl, rfl⟩

/-- Settles O39: of the causes of a change only the engine and a device reset write PPD and SD, and the engine only at
the completion of a 1-Wire reset. -/
theorem presenceWrittenByResetOnly : Obligations.PresenceWrittenByResetOnly := by
  intro s t h changed
  have keeps : ¬ (t.dev.ppd = s.dev.ppd ∧ t.dev.sd = s.dev.sd) := fun ⟨hp, hs⟩ =>
    changed.elim (absurd hp) (absurd hs)
  rcases step_dev_cause h with moved | same | ⟨comes, he⟩ | ⟨i, hi, -, he, -⟩
  · by_cases hp : ∃ ch, s.dev.pending = some (.reset1W ch)
    · obtain ⟨ch, hch⟩ := hp
      exact .inl ⟨ch, hch, moved⟩
    · exact absurd (engineMoved_presence moved (not_exists.mp hp)) keeps
  · exact absurd (by rw [same]; exact ⟨rfl, rfl⟩) keeps
  · exact .inr ⟨comes, by rw [he], by rw [he]⟩
  · exact absurd (effectOf_presence he hi) keeps

/-- A legal WCFG parameter passes the complement check (R87). -/
theorem complement_of_configOf {p : Byte} {c : BitVec 4} (h : configOf p = some c) :
    p.extractLsb' 4 4 = ~~~ p.extractLsb' 0 4 := by
  unfold configOf at h
  split at h
  · assumption
  · cases h

/-- Settles O42: of the causes of a change only a device reset sets RST, and of the other instructions only WCFG writes
it, where its parameter passes the complement check. -/
theorem rstChangesByResetOrWcfg : Obligations.RstChangesByResetOrWcfg := by
  intro s t h changed
  rcases step_dev_cause h with moved | same | ⟨comes, he⟩ | ⟨i, hi, issues, he, -⟩
  · exact absurd (engineMoved_rst moved) changed
  · exact absurd (by rw [same]) changed
  · exact .inl ⟨by rw [he], comes⟩
  · cases i with
    | drst => exact absurd rfl hi
    | wcfg p =>
      obtain ⟨c, hc, he⟩ := he
      exact .inr ⟨by rw [he], p, hostSends_of_hostIssues issues rfl, complement_of_configOf hc⟩
    | srp _ | chsl _ => obtain ⟨_, -, he⟩ := he; exact absurd (by rw [he]) changed
    | w1rs | w1wb _ | w1rb | w1sb _ | w1t _ | rd => exact absurd (by rw [he]) changed

/-- Settles O41: the engine and a device reset leave nothing pending, and of the other instructions only the five
1-Wire commands write the operation in flight; these are gated, so none replaces one that is pending. -/
theorem busyFlagChangesByRule : Obligations.BusyFlagChangesByRule := by
  intro s t h
  rcases step_dev_cause h with moved | same | ⟨comes, he⟩ | ⟨i, hi, issues, he, hq⟩
  · have idle := pending_of_engineMoved moved
    exact ⟨fun _ _ => .inr ⟨idle, .inl moved⟩, fun _ => .inl idle⟩
  · have keeps : t.dev.pending = s.dev.pending := by rw [same]
    exact ⟨fun _ hop => .inl (keeps.trans hop), fun hn => .inl (keeps.trans hn)⟩
  · have idle : t.dev.pending = none := by rw [he]
    exact ⟨fun _ _ => .inr ⟨idle, .inr comes⟩, fun _ => .inl idle⟩
  · constructor
    · intro op hop
      have ungated : gatedCode i = none := by
        by_contra hg
        obtain ⟨hn, -⟩ := hq hg
        rw [hn] at hop
        cases hop
      refine .inl ?_
      cases i with
      | drst => exact absurd rfl hi
      | srp _ => obtain ⟨_, -, he⟩ := he; rw [he]; exact hop
      | rd => rw [he]; exact hop
      | wcfg _ | chsl _ | w1rs | w1wb _ | w1rb | w1sb _ | w1t _ => cases ungated
    · intro hn
      have sends {bytes : List Byte} (hb : encode i = .write bytes) : hostSends s bytes :=
        hostSends_of_hostIssues issues hb
      cases i with
      | drst => exact absurd rfl hi
      | srp _ | wcfg _ | chsl _ => obtain ⟨_, -, he⟩ := he; exact .inl (by rw [he]; exact hn)
      | rd => exact .inl (by rw [he]; exact hn)
      | w1rs => exact .inr (.inl ⟨sends rfl, by rw [he]⟩)
      | w1rb => exact .inr (.inr (.inl ⟨sends rfl, by rw [he]⟩))
      | w1sb p => exact .inr (.inr (.inr ⟨p, .inl ⟨sends rfl, by rw [he]; rfl⟩⟩))
      | w1wb p => exact .inr (.inr (.inr ⟨p, .inr (.inl ⟨sends rfl, by rw [he]⟩)⟩))
      | w1t p => exact .inr (.inr (.inr ⟨p, .inr (.inr ⟨sends rfl, by rw [he]; rfl⟩)⟩))

/-! ## Reset -/

/-- A draw of a bit takes the first input placed in advance. -/
theorem drawBool_of_script {s : State} {v : Nat} {vs : List Nat} (h : s.env.script = v :: vs) :
    s.drawBool = (v % 2 == 1, { s with env.script := vs }) := by
  simp [State.drawBool, draw_of_script s v vs h]

/-- The two draws of a power cycle: LL, then the read pointer (R41). -/
theorem powerCycle_of_script {s : State} {l p : Nat} {more : List Nat} (h : s.env.script = l :: p :: more) :
    s.powerCycle.dev.ll = (l % 2 == 1) ∧ s.powerCycle.dev.readPtr = regOfNat p := by
  simp [State.powerCycle, State.draw, State.drawBool, State.deviceReset, h]

/-- Where the host moves, a power cycle that no position waits for ends its entry of the program (log 19). -/
theorem step_of_powerCycle {s : State} {rest : List Task} (hf : s.dev.fault = none) (hm : HostMoves s)
    (hp : s.host.prog = ⟨.powerCycle, []⟩ :: rest) :
    step s = .next
      { s.afterChoice.powerCycle with host := { s.host with prog := rest, result := some (.bool true) } } := by
  rw [step_of_hostMoves hf hm hp (fun hd => HostOp.noConfusion hd), hostStep, afterChoice_host, hp]
  simp [unwind]

/-- Settles O38: a run starts with the device as a reset leaves it, and a power cycle is a device reset and the draw of
the read pointer. -/
theorem resetValues : Obligations.ResetValues := by
  refine ⟨⟨rfl, rfl, rfl⟩, fun s rest hf hm hp => ⟨_, step_of_powerCycle hf hm hp, ?_, rfl, ?_, ?_⟩⟩
  · simp [hf]
  · exact powerCycle_env s.afterChoice
  · intro l p more hs
    exact powerCycle_of_script (by rw [afterChoice_script, hs])

/-! ## The register read -/

/-- A read that goes through answers the byte of the register read decode. -/
theorem exec_rd_of_memRead {s u : State} {b : Byte} (live : Live s) (h : (s.issue .read).memRead = (b, u)) :
    exec .rd s = .next { u with host := { s.host with reply := .data b } } := by
  have rd := execRd_of_live live
  rw [h] at rd
  exact rd

theorem memRead_of_config {s : State} (h : s.dev.readPtr = .config) : s.memRead = (s.dev.cfg.setWidth 8, s) := by
  simp [State.memRead, h, State.readConfig]

theorem memRead_of_status {s : State} (h : s.dev.readPtr = .status) : s.memRead = s.readStatus := by
  simp [State.memRead, h]

/-- Settles O29: the nibble is widened with zeros, which keeps its value. -/
theorem rdConfigReturnsNibble : Obligations.RdConfigReturnsNibble := by
  intro s live hp
  exact ⟨_, s.dev.cfg.setWidth 8, exec_rd_of_memRead live (memRead_of_config (s := s.issue .read) hp), rfl, rfl,
    BitVec.toNat_setWidth_of_le (by decide)⟩

/-- A level question takes one draw, the first input placed in advance (R25). -/
theorem busLevel_of_script {s : State} {v : Nat} {vs : List Nat} (ch : Channel) (h : s.env.script = v :: vs) :
    (s.busLevel ch).1 = (v % 2 == 1) ∧ (s.busLevel ch).2.env.script = vs := by
  simp [State.busLevel, drawBool_of_script h, State.record]

/-- A status read that goes through: u is the machine once LL has been sampled on the selected channel and stored, and
the byte answered is what u shows (R25, R39, R40). -/
theorem exec_rd_of_status {s : State} (live : Live s) (hp : s.dev.readPtr = .status) :
    ∃ t u : State, exec .rd s = .next t ∧ u.dev = { s.dev with ll := u.dev.ll } ∧ t.dev = u.dev
      ∧ t.host = { s.host with reply := .data u.shownStatus.1 }
      ∧ EnvAdds s t [.busLevel s.dev.channel u.dev.ll, sent s .read]
      ∧ ∀ v rest, s.env.script = v :: rest → u.dev.ll = (v % 2 == 1) ∧ u.env.script = rest := by
  refine ⟨_, ((s.issue .read).busLevel s.dev.channel).2.setLevel ((s.issue .read).busLevel s.dev.channel).1,
    exec_rd_of_memRead live (memRead_of_status (s := s.issue .read) hp), by simp, shownStatus_dev _, rfl, ?_,
    fun v rest hs => busLevel_of_script (s := s.issue .read) _ hs⟩
  have issued : EnvAdds s (s.issue .read) [sent s .read] := ⟨rfl, rfl, rfl, rfl⟩
  exact envAdds_trans issued (readStatus_env (s.issue .read))

/-- Settles O25: with nothing pending the stored status byte is shown, LL being the sample. -/
theorem rdStatusShowsStoredBits : Obligations.RdStatusShowsStoredBits := by
  intro s live hn hp
  obtain ⟨t, u, rd, hu, ht, hh, henv, hscript⟩ := exec_rd_of_status live hp
  have bits := statusByte_bits u.dev
  rw [shownStatus_of_idle u (by rw [hu]; exact hn)] at hh
  refine ⟨t, u.dev.statusByte, u.dev.ll, rd, ht.trans hu, hh, henv, ?_⟩
  rw [hu] at bits ⊢
  obtain ⟨h7, h6, h5, h4, h3, h2, h1, h0⟩ := bits
  exact ⟨h7, h6, h5, h4, h3, h2, h1, by rw [h0, hn]; rfl, fun v rest hs => (hscript v rest hs).1⟩

/-! ## The status byte while an operation is pending (R40) -/

theorem shownStatus_of_reset1W {s : State} {ch : Channel} (h : s.dev.pending = some (.reset1W ch)) :
    s.shownStatus.1 = { s.dev with ppd := s.drawBool.1, sd := s.drawBool.2.drawBool.1 }.statusByte := by
  simp [State.shownStatus, h]

theorem shownStatus_of_bit {s : State} {v : Bool} {ch : Channel} (h : s.dev.pending = some (.bit v ch)) :
    s.shownStatus.1 = { s.dev with sbr := s.drawBool.1 }.statusByte := by
  simp [State.shownStatus, h]

theorem shownStatus_of_triplet {s : State} {d : Bool} {ch : Channel} (h : s.dev.pending = some (.triplet d ch)) :
    s.shownStatus.1 =
      { s.dev with
        sbr := s.drawBool.1, tsb := s.drawBool.2.drawBool.1
        dir := s.drawBool.2.drawBool.2.drawBool.1 }.statusByte := by
  simp [State.shownStatus, h]

theorem shownStatus_of_byte {s : State} {op : Op} (h : s.dev.pending = some op) (hd : op.resultDraws = 0) :
    s.shownStatus.1 = s.dev.statusByte := by
  cases op with
  | reset1W _ | bit _ _ | triplet _ _ => cases hd
  | writeByte _ _ | readByte _ => simp [State.shownStatus, h]

/-- Settles O26: the shown device differs from the stored one in the draws of the pending operation's result bits,
which come after the draw of LL. -/
theorem rdStatusWhileBusy : Obligations.RdStatusWhileBusy := by
  intro s op live hop hp
  obtain ⟨t, u, rd, hu, ht, hh, henv, hscript⟩ := exec_rd_of_status live hp
  have hpend : u.dev.pending = some op := by rw [hu]; exact hop
  refine ⟨t, u.shownStatus.1, u.dev.ll, rd, ht.trans hu, hh, henv, ?_⟩
  have stored : u.dev.rst = s.dev.rst ∧ u.dev.ppd = s.dev.ppd ∧ u.dev.sd = s.dev.sd ∧ u.dev.sbr = s.dev.sbr
      ∧ u.dev.tsb = s.dev.tsb ∧ u.dev.dir = s.dev.dir := by
    rw [hu]; exact ⟨rfl, rfl, rfl, rfl, rfl, rfl⟩
  cases op with
  | reset1W ch =>
    rw [shownStatus_of_reset1W hpend]
    refine ⟨by simp [hpend], by simp, by simp [stored], by simp, by simp [stored], by simp [stored], ?_, nofun, nofun⟩
    rintro _ x y z rest ⟨⟩ hs
    obtain ⟨hl, hrest⟩ := hscript x _ hs
    simp [hl, State.drawBool, State.draw, hrest]
  | bit v ch =>
    rw [shownStatus_of_bit hpend]
    refine ⟨by simp [hpend], by simp, by simp [stored], by simp [stored], by simp, by simp [stored], nofun, ?_, nofun⟩
    rintro _ _ x y rest ⟨⟩ hs
    obtain ⟨hl, hrest⟩ := hscript x _ hs
    simp [hl, drawBool_of_script hrest]
  | triplet d ch =>
    rw [shownStatus_of_triplet hpend]
    refine ⟨by simp [hpend], by simp, by simp [stored], by simp [stored], by simp, by simp, nofun, nofun, ?_⟩
    rintro _ _ x y z w rest ⟨⟩ hs
    obtain ⟨hl, hrest⟩ := hscript x _ hs
    simp [hl, State.drawBool, State.draw, hrest]
  | writeByte _ _ | readByte _ =>
    rw [shownStatus_of_byte hpend rfl]
    simp [hpend, stored]

end Sys2Proof.Machine

namespace Sys2Proof.Machine

/-! ## Encoding -/

theorem decodeWrite_of_cmd1 {c : Byte} {i : Instr} (h : commandFormat c = some (.cmd1 i)) : decodeWrite [c] = .ok i := by
  simp [decodeWrite, h]

theorem decodeWrite_of_cmd2 {c : Byte} {f : Byte → Instr} (h : commandFormat c = some (.cmd2 f)) (p : Byte) :
    decodeWrite [c, p] = .ok (f p) := by
  simp [decodeWrite, h]

/-- Each instruction's transaction has its code's format: a CMD1 code alone, or a CMD2 code and the parameter byte,
whatever its value (R80, R82). -/
theorem decode_encode (i : Instr) : decode (encode i) = .ok i := by
  cases i with
  | rd => rfl
  | drst | w1rs | w1rb => rw [encode, decode]; apply decodeWrite_of_cmd1; rfl
  | srp p | wcfg p | chsl p | w1wb p | w1sb p | w1t p => rw [encode, decode]; apply decodeWrite_of_cmd2; rfl

/-- Settles O1: the command map read forwards, and read backwards. -/
theorem decodeEncodeAgree : Obligations.DecodeEncodeAgree :=
  ⟨decode_encode, fun _ _ => eq_encode_of_decode⟩

theorem decodeTableWord_of_encode {nbits w : Nat} {i : Instr} (h : tableTxn nbits w = encode i) :
    decodeTableWord nbits w = some i := by
  rw [decodeTableWord, h, decode_encode]

/-- Settles O3: each word stands for the encoding of its row's instruction. -/
theorem tableWordsDecode : Obligations.TableWordsDecode := by
  refine ⟨?_, ?_, ?_, ?_, ?_, ?_, ?_, ?_, ?_, ?_⟩ <;> exact decodeTableWord_of_encode rfl

/-! ## Rejected writes -/

/-- The command map has no other code than the nine (R82). -/
theorem commandFormat_of_unknown {c : Byte}
    (h : c ∉ [0xF0#8, 0xE1#8, 0xD2#8, 0xC3#8, 0xB4#8, 0xA5#8, 0x96#8, 0x87#8, 0x78#8]) : commandFormat c = none := by
  cases hc : commandFormat c with
  | none => rfl
  | some format =>
    refine absurd ?_ h
    cases format with
    | cmd1 i => rcases commandFormat_cmd1 hc with ⟨rfl, -⟩ | ⟨rfl, -⟩ | ⟨rfl, -⟩ <;> decide
    | cmd2 f =>
      rcases commandFormat_cmd2 hc with ⟨rfl, -⟩ | ⟨rfl, -⟩ | ⟨rfl, -⟩ | ⟨rfl, -⟩ | ⟨rfl, -⟩ | ⟨rfl, -⟩ <;> decide

theorem commandFormat_of_mem_cmd1 {c : Byte} (h : c ∈ [0xF0#8, 0xB4#8, 0x96#8]) :
    ∃ i, commandFormat c = some (.cmd1 i) := by
  simp only [List.mem_cons, List.not_mem_nil, or_false] at h
  rcases h with rfl | rfl | rfl <;> exact ⟨_, rfl⟩

theorem commandFormat_of_mem_cmd2 {c : Byte} (h : c ∈ [0xE1#8, 0xD2#8, 0xC3#8, 0xA5#8, 0x87#8, 0x78#8]) :
    ∃ f, commandFormat c = some (.cmd2 f) := by
  simp only [List.mem_cons, List.not_mem_nil, or_false] at h
  rcases h with rfl | rfl | rfl | rfl | rfl | rfl <;> exact ⟨_, rfl⟩

theorem decodeWrite_of_unknown {c : Byte} (h : commandFormat c = none) (params : List Byte) :
    decodeWrite (c :: params) = .error (.badCommand c) := by
  simp [decodeWrite, h]

theorem decodeWrite_of_cmd1_badLength {c : Byte} {i : Instr} {params : List Byte}
    (h : commandFormat c = some (.cmd1 i)) (hl : params.length ≠ 0) :
    decodeWrite (c :: params) = .error (.badLength c (params.length + 1)) := by
  cases params with
  | nil => exact absurd rfl hl
  | cons _ _ => simp [decodeWrite, h]

theorem decodeWrite_of_cmd2_badLength {c : Byte} {f : Byte → Instr} {params : List Byte}
    (h : commandFormat c = some (.cmd2 f)) (hl : params.length ≠ 1) :
    decodeWrite (c :: params) = .error (.badLength c (params.length + 1)) := by
  match params with
  | [] | _ :: _ :: _ => simp [decodeWrite, h]
  | [_] => exact absurd rfl hl

/-- Settles O2: the decoder looks for the code's format first, and compares the length with that format. -/
theorem otherWritesRejectedByName : Obligations.OtherWritesRejectedByName := by
  refine ⟨rfl, fun cmd params => ⟨fun h => ?_, fun h hl => ?_, fun h hl => ?_⟩⟩
  · exact decodeWrite_of_unknown (commandFormat_of_unknown h) params
  · obtain ⟨i, hi⟩ := commandFormat_of_mem_cmd1 h
    exact decodeWrite_of_cmd1_badLength hi hl
  · obtain ⟨f, hf⟩ := commandFormat_of_mem_cmd2 h
    exact decodeWrite_of_cmd2_badLength hf hl

theorem runTxn_of_reject {bytes : List Byte} {why : Reject} (h : decodeWrite bytes = .error why) (s : State) :
    runTxn (.write bytes) s = execReject s bytes why := by
  unfold runTxn; rw [show decode (.write bytes) = .error why from h]

/-- A rejected write that reaches the device: the rejection has its meaning at once, before any other check (R264). -/
theorem execReject_of_live {s : State} (live : Live s) (bytes : List Byte) (why : Reject) :
    execReject s bytes why = .next (((s.issue (.write bytes)).reject why).answer .ack) := by
  rw [execReject, unlessFaulted_of_unfaulted _ _ live.1, i2cWrite_of_live _ _ _ live]

/-- What a rejection does to the device does not depend on the write's entry in the history. -/
theorem reject_issue_dev (s : State) (t : Txn) (why : Reject) : ((s.issue t).reject why).dev = (s.reject why).dev := by
  cases why <;> rfl

/-- A rejected write leaves the device as its rejection does. -/
theorem runTxn_reject_dev {s : State} {bytes : List Byte} {why : Reject} (live : Live s)
    (h : decodeWrite bytes = .error why) : ∃ t, runTxn (.write bytes) s = .next t ∧ t.dev = (s.reject why).dev :=
  ⟨_, (runTxn_of_reject h s).trans (execReject_of_live live bytes why), by rw [answer_dev, reject_issue_dev]⟩

/-- Settles O11: each of these writes is rejected by name, and the rejection alone says what becomes of the device. -/
theorem rejectedWritesFault : Obligations.RejectedWritesFault := by
  intro s live
  obtain ⟨empty, other⟩ := otherWritesRejectedByName
  refine ⟨runTxn_reject_dev live empty, fun cmd params => ?_⟩
  obtain ⟨unknown, cmd1Length, cmd2Length⟩ := other cmd params
  refine ⟨fun h => runTxn_reject_dev live (unknown h), ?_⟩
  rintro (⟨hc, hl⟩ | ⟨hc, hl⟩)
  · exact runTxn_reject_dev live (cmd1Length hc hl)
  · exact runTxn_reject_dev live (cmd2Length hc hl)

end Sys2Proof.Machine

namespace Sys2Proof.Machine

/-! ## The register read of a live device -/

/-- Settles O24: the read goes through, its answer writes only the reply, and the register read decode changes LL at
most. -/
theorem rdAlwaysAnswers : Obligations.RdAlwaysAnswers := by
  intro s live
  obtain ⟨level, other⟩ := memRead_dev (s.issue .read)
  exact ⟨_, _, execRd_of_live live, level, other, rfl⟩

/-! ## Commands on a device with something in flight -/

/-- The seven instructions with a gated code are gated commands with that code (R291, R293). -/
theorem exec_of_gated {i : Instr} {cmd : Byte} (h : gatedCode i = some cmd) :
    ∃ bytes effect, encode i = .write bytes ∧ ∀ s, exec i s = execCommand s bytes cmd true true effect := by
  cases i with
  | drst | srp _ | rd => cases h
  | wcfg _ | chsl _ | w1rs | w1wb _ | w1rb | w1sb _ | w1t _ => cases h; exact ⟨_, _, rfl, fun _ => rfl⟩

/-- A gated command whose check fails: the mark is set, nothing is answered, and the history has the transaction. -/
theorem exec_of_gated_fault {i : Instr} {s : State} {cmd : Byte} {r : Fault} (live : Live s)
    (hg : gatedCode i = some cmd)
    (check : ∀ (d : State) effect, d.dev = s.dev → d.command cmd true true effect = d.raise r) :
    ∃ t, exec i s = .next t ∧ t.dev = { s.dev with fault := some r } ∧ t.host = s.host
      ∧ EnvAdds s t [sent s (encode i)] := by
  obtain ⟨bytes, effect, hw, he⟩ := exec_of_gated hg
  refine ⟨(s.issue (.write bytes)).raise r, ?_, rfl, rfl, hw ▸ ⟨rfl, rfl, rfl, rfl⟩⟩
  rw [he, execCommand_of_live _ _ _ _ _ _ live, check _ _ (issue_dev s _), answer_of_faulted _ _ r rfl]

/-- Settles O12: the busy check comes before the command's own effect (R264). -/
theorem busyDeviceFaultsCommands : Obligations.BusyDeviceFaultsCommands := by
  intro s i cmd op live hp hg
  exact exec_of_gated_fault live hg fun d effect hd => command_of_busy d cmd true effect op (by rw [hd, hp])

/-- Settles O13: with nothing pending the settle check comes first (R264). -/
theorem settlingDeviceFaultsCommands : Obligations.SettlingDeviceFaultsCommands := by
  intro s i cmd live hp hs hg
  exact exec_of_gated_fault live hg fun d effect hd =>
    command_of_settling d cmd true effect (by rw [hd, hp]) (by rw [hd, hs])

/-! ## What a device does with a write does not depend on the transport (R100, R101) -/

/-- The state in which transactions may fail, or may not (R99). -/
def State.setErrors (s : State) (b : Bool) : State := { s with env.busErrors := b }

@[simp] theorem setErrors_dev (s : State) (b : Bool) : (s.setErrors b).dev = s.dev := rfl
@[simp] theorem setErrors_host (s : State) (b : Bool) : (s.setErrors b).host = s.host := rfl

/-- What the device does with a write does not depend on whether transactions may fail: it commutes with setting that
parameter. -/
def IgnoresErrors (execute : State → State) : Prop :=
  ∀ d b, execute (d.setErrors b) = (execute d).setErrors b

/-- The same of a command's own effect, which may end in a fault. -/
def EffectIgnoresErrors (effect : State → Except Fault State) : Prop :=
  ∀ d b, effect (d.setErrors b) = (effect d).map (·.setErrors b)

theorem draw_setErrors (s : State) (b : Bool) : (s.setErrors b).draw = (s.draw.1, s.draw.2.setErrors b) := by
  rcases s with ⟨dev, host, env⟩
  rcases env with ⟨present, errors, sched, script, count, history⟩
  cases script <;> rfl

theorem drawReadPtr_ignoresErrors : IgnoresErrors State.drawReadPtr := by
  intro d b
  rw [State.drawReadPtr, draw_setErrors]
  rfl

theorem deviceReset_ignoresErrors : IgnoresErrors State.deviceReset := by
  intro d b
  rw [State.deviceReset, State.drawBool, draw_setErrors]
  rfl

theorem reject_ignoresErrors (why : Reject) : IgnoresErrors (·.reject why) := by
  intro d b
  cases why <;> rfl

theorem srpEffect_ignoresErrors (p : Byte) : EffectIgnoresErrors (srpEffect p) := by
  intro d b
  unfold srpEffect
  cases pointerOf p <;> rfl

theorem wcfgEffect_ignoresErrors (p : Byte) : EffectIgnoresErrors (wcfgEffect p) := by
  intro d b
  unfold wcfgEffect
  cases configOf p <;> rfl

theorem chslEffect_ignoresErrors (c : Byte) : EffectIgnoresErrors (chslEffect c) := by
  intro d b
  unfold chslEffect
  cases channelOf c <;> rfl

theorem accept_ignoresErrors (op : Channel → Op) : EffectIgnoresErrors (accept op) := fun _ _ => rfl

theorem drstEffect_ignoresErrors : EffectIgnoresErrors (fun d => .ok d.deviceReset) := fun d b =>
  congrArg Except.ok (deviceReset_ignoresErrors d b)

/-- The busy and the settle check look at the device alone, so a command ignores what its effect ignores. -/
theorem command_ignoresErrors {effect : State → Except Fault State} (h : EffectIgnoresErrors effect) (cmd : Byte)
    (gated redraw : Bool) : IgnoresErrors (·.command cmd gated redraw effect) := by
  intro d b
  change (d.setErrors b).command cmd gated redraw effect = (d.command cmd gated redraw effect).setErrors b
  unfold State.command
  rw [setErrors_dev, h d b]
  split
  · rfl
  · rfl
  · cases effect d with
    | error r => rfl
    | ok t =>
      cases redraw with
      | false => rfl
      | true => exact drawReadPtr_ignoresErrors t b

/-- An instruction that is a write is a command, and its effect does not depend on whether transactions may fail. -/
theorem exec_of_write {i : Instr} {bytes : List Byte} (h : encode i = .write bytes) :
    ∃ cmd gated redraw effect, (∀ s, exec i s = execCommand s bytes cmd gated redraw effect)
      ∧ EffectIgnoresErrors effect := by
  cases i with
  | rd => cases h
  | drst => cases h; exact ⟨_, _, _, _, fun _ => rfl, drstEffect_ignoresErrors⟩
  | srp p => cases h; exact ⟨_, _, _, _, fun _ => rfl, srpEffect_ignoresErrors p⟩
  | wcfg p => cases h; exact ⟨_, _, _, _, fun _ => rfl, wcfgEffect_ignoresErrors p⟩
  | chsl c => cases h; exact ⟨_, _, _, _, fun _ => rfl, chslEffect_ignoresErrors c⟩
  | w1rs | w1rb | w1wb _ | w1sb _ | w1t _ => cases h; exact ⟨_, _, _, _, fun _ => rfl, accept_ignoresErrors _⟩

/-! ## Write transactions of any bytes -/

/-- A write of any bytes, one the decoder rejects too, is one I2C write around what the device does with these bytes,
and that does not depend on whether transactions may fail (R100, R101). -/
theorem runTxn_write_ignoresErrors (bytes : List Byte) :
    ∃ execute, IgnoresErrors execute
      ∧ ∀ s, s.dev.fault = none → runTxn (.write bytes) s = .next (s.i2cWrite bytes execute) := by
  cases h : decodeWrite bytes with
  | error why =>
    exact ⟨_, reject_ignoresErrors why, fun s hf => (runTxn_of_reject h s).trans (unlessFaulted_of_unfaulted s _ hf)⟩
  | ok i =>
    have hd : decode (.write bytes) = .ok i := h
    obtain ⟨cmd, gated, redraw, effect, he, blind⟩ := exec_of_write (eq_encode_of_decode hd).symm
    refine ⟨_, command_ignoresErrors blind cmd gated redraw, fun s hf => ?_⟩
    rw [runTxn_of_decode hd, he, execCommand, unlessFaulted_of_unfaulted s _ hf]

/-! ## Without a device (R99) -/

theorem i2cWrite_of_absent {s : State} (h : s.env.devicePresent = false) (bytes : List Byte)
    (execute : State → State) :
    s.i2cWrite bytes execute = (s.issue (.write bytes)).answer .fail := by
  simp [State.i2cWrite, h]

theorem i2cRead_of_absent {s : State} (h : s.env.devicePresent = false) (memRead : State → Byte × State) :
    s.i2cRead memRead = (s.issue .read).answer .fail := by
  simp [State.i2cRead, h]

theorem runTxn_of_absent {s : State} (hf : s.dev.fault = none) (h : s.env.devicePresent = false) (x : Txn) :
    runTxn x s = .next ((s.issue x).answer .fail) := by
  cases x with
  | read => rw [runTxn_of_decode (i := .rd) rfl, exec, execRd, unlessFaulted_of_unfaulted s _ hf, i2cRead_of_absent h]
  | write bytes =>
    obtain ⟨execute, run⟩ := runTxn_write bytes
    rw [run, unlessFaulted_of_unfaulted s _ hf, i2cWrite_of_absent h]

/-- Settles O8: without a device nothing is asked of the device interface, so only the failure is answered. -/
theorem absentDeviceChangesNothing : Obligations.AbsentDeviceChangesNothing := by
  intro x s hf h
  refine ⟨_, runTxn_of_absent hf h x, ?_⟩
  rw [answer_of_unfaulted (s.issue x) _ hf]
  exact ⟨rfl, rfl, rfl, rfl, rfl, rfl⟩

/-! ## With bus errors (R100, R103) -/

/-- The state with other inputs placed in advance: draws taken from them leave their rest. -/
def State.withScript (s : State) (rest : List Nat) : State := { s with env.script := rest }

@[simp] theorem withScript_withScript (s : State) (a b : List Nat) :
    (s.withScript a).withScript b = s.withScript b := rfl

/-- The transport's draw comes after the transaction's entry in the history, and does not depend on it. -/
theorem issue_drawBool {s : State} {x : Txn} {v : Nat} {vs : List Nat} (h : s.env.script = v :: vs) :
    (s.issue x).drawBool = (v % 2 == 1, (s.withScript vs).issue x) :=
  drawBool_of_script (s := s.issue x) h

section
variable {s : State} (present : s.env.devicePresent = true) (errors : s.env.busErrors = true)
include present errors

theorem i2cWrite_unapplied {rest : List Nat} (hs : s.env.script = 1 :: 0 :: rest) (bytes : List Byte)
    (execute : State → State) :
    s.i2cWrite bytes execute = ((s.withScript rest).issue (.write bytes)).answer .fail := by
  simp [State.i2cWrite, present, errors, issue_drawBool hs, issue_drawBool (s := s.withScript _) rfl]

theorem i2cWrite_applied {rest : List Nat} (hs : s.env.script = 1 :: 1 :: rest) (bytes : List Byte)
    (execute : State → State) :
    s.i2cWrite bytes execute = (execute ((s.withScript rest).issue (.write bytes))).answer .fail := by
  simp [State.i2cWrite, present, errors, issue_drawBool hs, issue_drawBool (s := s.withScript _) rfl]

theorem i2cWrite_goesThrough {rest : List Nat} (hs : s.env.script = 0 :: rest) (bytes : List Byte)
    (execute : State → State) :
    s.i2cWrite bytes execute = (execute ((s.withScript rest).issue (.write bytes))).answer .ack := by
  simp [State.i2cWrite, present, errors, issue_drawBool hs]

theorem i2cRead_failed {rest : List Nat} (hs : s.env.script = 1 :: rest) (memRead : State → Byte × State) :
    s.i2cRead memRead = ((s.withScript rest).issue .read).failedRead.answer .fail := by
  simp [State.i2cRead, present, errors, issue_drawBool hs]

end

/-- Without bus errors the same write executes from the same device and the same draws, and is acknowledged. -/
theorem i2cWrite_of_noErrors {execute : State → State} (blind : IgnoresErrors execute) {s : State}
    (present : s.env.devicePresent = true) (bytes : List Byte) :
    (s.setErrors false).i2cWrite bytes execute
      = ((execute (s.issue (.write bytes))).setErrors false).answer .ack := by
  rw [← blind]
  simp [State.i2cWrite, State.setErrors, State.issue, State.record, present]

theorem setErrors_answer_host (s : State) (b : Bool) (r : Reply) :
    ((s.setErrors b).answer r).host = (s.answer r).host := by
  cases h : s.dev.fault with
  | none => rw [answer_of_unfaulted _ _ h, answer_of_unfaulted (s.setErrors b) _ h, setErrors_host]
  | some f => rw [answer_of_faulted _ _ f h, answer_of_faulted (s.setErrors b) _ f h, setErrors_host]

/-- Settles O9: the draws say whether the write is executed and what is answered; where it is executed, its state differs
from the one without bus errors in that parameter alone. -/
theorem failedWriteAppliedOrNot : Obligations.FailedWriteAppliedOrNot := by
  intro bytes s rest hf present errors
  obtain ⟨execute, blind, run⟩ := runTxn_write_ignoresErrors bytes
  have without : runTxn (.write bytes) { s with env := { s.env with busErrors := false, script := rest } }
      = .next (((execute ((s.withScript rest).issue (.write bytes))).setErrors false).answer .ack) :=
    (run ((s.withScript rest).setErrors false) hf).trans
      (congrArg Host.Outcome.next (i2cWrite_of_noErrors blind (s := s.withScript rest) present bytes))
  refine ⟨fun hs => ?_, fun hs => ?_, fun hs => ?_⟩
  · refine ⟨_, run s hf, ?_⟩
    rw [i2cWrite_unapplied present errors hs, answer_of_unfaulted ((s.withScript rest).issue _) _ hf]
    exact ⟨rfl, rfl⟩
  · refine ⟨_, _, run s hf, without, ?_⟩
    rw [i2cWrite_applied present errors hs]
    refine ⟨by simp, fun hu => ?_⟩
    rw [answer_dev, setErrors_dev] at hu
    rw [setErrors_answer_host, answer_of_unfaulted _ _ hu, answer_of_unfaulted _ _ hu]
  · refine ⟨_, _, run s hf, without, ?_⟩
    rw [i2cWrite_goesThrough present errors hs]
    exact ⟨by simp, by rw [setErrors_answer_host]⟩

/-- Settles O10: after the failure's draw only failedRead touches the device, and its draw is the next one. -/
theorem failedReadChangesOnlyLevel : Obligations.FailedReadChangesOnlyLevel := by
  intro s l rest hf present errors hs
  have failed : exec .rd s = .next (((s.withScript (l :: rest)).issue .read).failedRead.answer .fail) := by
    rw [exec, execRd, unlessFaulted_of_unfaulted s _ hf, i2cRead_failed present errors hs]
  refine ⟨fun hp => ?_, fun hp => ?_⟩
  · have level := failedRead_of_status ((s.withScript (l :: rest)).issue .read) hp
    rw [issue_drawBool rfl] at level
    refine ⟨_, failed, by rw [answer_dev]; exact level, ?_⟩
    rw [answer_of_unfaulted _ _ (by rw [level]; exact hf), failedRead_host]
    rfl
  · rw [failedRead_of_other ((s.withScript (l :: rest)).issue _) hp,
      answer_of_unfaulted ((s.withScript (l :: rest)).issue _) _ hf] at failed
    exact ⟨_, failed, rfl, rfl⟩

end Sys2Proof.Machine

namespace Sys2Proof.Machine

/-! ## Register commands -/

/-- A command other than SRP that goes through and whose effect leaves the host and the environment alone: the read
pointer is drawn after the effect (R101). -/
theorem execCommand_redraws {s u : State} {bytes : List Byte} {cmd : Byte} {gated : Bool}
    {effect : State → Except Fault State} (live : Live s) (quiet : gated = true → Quiet s)
    (accepted : effect (s.issue (.write bytes)) = .ok u) (hf : u.dev.fault = none) (hh : u.host = s.host)
    (he : u.env = (s.issue (.write bytes)).env) :
    ∃ t, execCommand s bytes cmd gated true effect = .next t ∧ t.dev = { u.dev with readPtr := t.dev.readPtr }
      ∧ t.host = { s.host with reply := .ack } ∧ EnvAdds s t [sent s (.write bytes)] ∧ PointerDrawn s t := by
  refine ⟨_, execCommand_ok live quiet accepted hf, by simp, by simp [hh], by simp [EnvAdds, he], fun p rest hs => ?_⟩
  have first : u.draw.1 = p := by rw [draw_of_script u p rest (by rw [he]; exact hs)]
  simp [first]

/-- The two draws of DRST: LL, then the read pointer (R120, R101). -/
theorem deviceReset_drawReadPtr_of_script {s : State} {l p : Nat} {rest : List Nat}
    (h : s.env.script = l :: p :: rest) :
    s.deviceReset.drawReadPtr.dev.ll = (l % 2 == 1) ∧ s.deviceReset.drawReadPtr.dev.readPtr = regOfNat p := by
  have second : s.deviceReset.draw.1 = p := by
    rw [draw_of_script s.deviceReset p rest (by rw [deviceReset_env, draw_of_script s l _ h])]
  simp [drawBool_of_script h, second]

/-- Settles O15: DRST is not gated, and it is a device reset followed by the draw of the read pointer. -/
theorem drstResetsDevice : Obligations.DrstResetsDevice := by
  intro s live
  refine ⟨_, execCommand_ok live nofun rfl (by simp [live.1]), ?_, by simp, by simp [EnvAdds], fun l p rest hs => ?_⟩
  · simp [live.1]
  · exact deviceReset_drawReadPtr_of_script (s := s.issue (.write [0xF0#8])) hs

theorem pointerOf_of_mem {p : Byte} {r : ReadReg}
    (h : (p, r) ∈ [(0xF0#8, ReadReg.status), (0xE1#8, .readData), (0xD2#8, .channel), (0xC3#8, .config)]) :
    pointerOf p = some r := by
  simp only [List.mem_cons, List.not_mem_nil, or_false, Prod.mk.injEq] at h
  rcases h with ⟨rfl, rfl⟩ | ⟨rfl, rfl⟩ | ⟨rfl, rfl⟩ | ⟨rfl, rfl⟩ <;> rfl

theorem pointerOf_of_reserved {p : Byte} (h : p ∉ [0xF0#8, 0xE1#8, 0xD2#8, 0xC3#8]) : pointerOf p = none := by
  simp only [List.mem_cons, List.not_mem_nil, or_false, not_or] at h
  simp [pointerOf, h]

theorem srpEffect_of_some {p : Byte} {r : ReadReg} (h : pointerOf p = some r) (d : State) :
    srpEffect p d = .ok { d with dev.readPtr := r } := by
  simp [srpEffect, h]

theorem srpEffect_of_none {p : Byte} (h : pointerOf p = none) (d : State) :
    srpEffect p d = .error (.badPointer p) := by
  simp [srpEffect, h]

/-- Settles O16: SRP is neither gated nor followed by a draw, so its effect is all that happens. -/
theorem srpSelectsRegister : Obligations.SrpSelectsRegister := by
  intro s p live
  refine ⟨fun r hr => ?_, fun hp => ?_⟩
  · exact execCommand_ok (gated := false) (redraw := false) live nofun (srpEffect_of_some (pointerOf_of_mem hr) _) live.1
  · exact ⟨_, execCommand_error live nofun (srpEffect_of_none (pointerOf_of_reserved hp) _), rfl⟩

/-- The converse of `complement_of_configOf`: what passes the complement check is legal, its lower nibble stored (R87). -/
theorem configOf_of_complement {p : Byte} (h : p.extractLsb' 4 4 = ~~~ p.extractLsb' 0 4) :
    configOf p = some (p.extractLsb' 0 4) :=
  if_pos h

theorem configOf_of_not_complement {p : Byte} (h : p.extractLsb' 4 4 ≠ ~~~ p.extractLsb' 0 4) : configOf p = none :=
  if_neg h

theorem wcfgEffect_of_some {p : Byte} {c : BitVec 4} (h : configOf p = some c) (d : State) :
    wcfgEffect p d = .ok { d with dev := { d.dev with cfg := c, rst := false } } := by
  simp [wcfgEffect, h]

theorem wcfgEffect_of_none {p : Byte} (h : configOf p = none) (d : State) :
    wcfgEffect p d = .error (.badConfig p) := by
  simp [wcfgEffect, h]

/-- Settles O17: on a quiet device the complement check decides, and the busy and the settle check are those of every
gated command. -/
theorem wcfgStoresConfiguration : Obligations.WcfgStoresConfiguration := by
  intro s p live
  refine ⟨fun quiet hp => ?_, fun quiet hp => ?_, fun op hop => ?_, fun hn hs => ?_⟩
  · exact execCommand_redraws live (fun _ => quiet) (wcfgEffect_of_some (configOf_of_complement hp) _) live.1 rfl rfl
  · exact ⟨_, execCommand_error live (fun _ => quiet) (wcfgEffect_of_none (configOf_of_not_complement hp) _), rfl⟩
  · obtain ⟨t, ran, hd, -⟩ := busyDeviceFaultsCommands s (.wcfg p) _ op live hop rfl
    exact ⟨t, ran, hd⟩
  · obtain ⟨t, ran, hd, -⟩ := settlingDeviceFaultsCommands s (.wcfg p) _ live hn hs rfl
    exact ⟨t, ran, hd⟩

end Sys2Proof.Machine

namespace Sys2Proof.Machine

/-! ## The invariant -/

theorem deviceInv_of_idle {d : Device} (h : d.pending = none) : DeviceInv d := by
  intro op hop
  rw [h] at hop
  cases hop

/-- The device's part of the invariant speaks of three fields only. -/
theorem deviceInv_of_eq {d e : Device} (hd : DeviceInv d) (hp : e.pending = d.pending) (hc : e.channel = d.channel)
    (hs : e.settling = d.settling) : DeviceInv e := by
  intro op hop
  rw [hc, hs]
  exact hd op (hp ▸ hop)

/-- CHSL and the 1-Wire commands execute only where nothing is in flight, so an operation starts on the selected channel
with no switch settling, and no switch starts to settle under an operation (R158, R265). -/
theorem effectOf_deviceInv {i : Instr} {d e : Device} (h : effectOf i d e)
    (quiet : gatedCode i ≠ none → d.pending = none ∧ d.settling = false) (hd : DeviceInv d) : DeviceInv e := by
  have started : ∀ {op : Channel → Op} {p : ReadReg}, (op d.channel).channel = d.channel → d.settling = false →
      DeviceInv { d with pending := some (op d.channel), readPtr := p } := by
    rintro op p hc hs _ ⟨⟩
    exact ⟨hc, hs⟩
  cases i with
  | drst => exact deviceInv_of_idle (by rw [h])
  | srp _ | wcfg _ => obtain ⟨_, -, h⟩ := h; rw [h]; exact deviceInv_of_eq hd rfl rfl rfl
  | rd => rw [h]; exact deviceInv_of_eq hd rfl rfl rfl
  | chsl _ =>
    obtain ⟨idle, -⟩ := quiet nofun
    obtain ⟨_, -, h⟩ := h
    exact deviceInv_of_idle (by rw [h]; exact idle)
  | w1rs | w1wb _ | w1rb | w1sb _ | w1t _ =>
    obtain ⟨-, settled⟩ := quiet nofun
    rw [h]
    exact started rfl settled

theorem step_deviceInv {s t : State} (hd : DeviceInv s.dev) (h : step s = .next t) : DeviceInv t.dev := by
  rcases step_dev_cause h with moved | same | ⟨-, he⟩ | ⟨i, -, -, he, hq⟩
  · exact deviceInv_of_idle (pending_of_engineMoved moved)
  · rw [same]; exact deviceInv_of_eq hd rfl rfl rfl
  · exact effectOf_deviceInv he nofun hd
  · exact effectOf_deviceInv he hq hd

/-- The host's part of the invariant does not depend on the reply. -/
theorem hostInv_reply {h : HostState} (hi : HostInv h) (r : Reply) : HostInv { h with reply := r } := hi

theorem step_hostInv {s t : State} (hi : HostInv s.host) (h : step s = .next t) : HostInv t.host := by
  rcases step_host_cases h with hh | ⟨op, konts, rest, u, v, hp, hu, -, rfl⟩ | ⟨p, konts, rest, c, hp, hc, rfl⟩
  · rw [hh]; exact hostInv_reply hi _
  · obtain ⟨placed, unbegun, noStart⟩ := hi _ _ hp
    exact unwind_inv rest konts v u placed unbegun (by rw [hu]; exact noStart)
  · obtain ⟨placed, unbegun, noStart⟩ := hi _ _ hp
    exact advance_inv rest konts c placed unbegun (by rw [hc]; exact noStart)

/-- The law of the 0 slot holds of the old entries of the history by assumption, and of the new ones in every step. -/
theorem step_zeroSlots {s t : State}
    (hz : ∀ ch sample, Event.busSlot ch false sample ∈ s.env.history → sample = false) (h : step s = .next t) :
    ∀ ch sample, Event.busSlot ch false sample ∈ t.env.history → sample = false := by
  obtain ⟨-, -, -, new, hist, hnew⟩ := step_env_cases h
  intro ch sample hm
  rw [hist] at hm
  exact (List.mem_append.mp hm).elim (hnew ch sample) (hz ch sample)

/-- At reset nothing is pending, the program is empty, and so is the history. -/
theorem inv_reset : Inv State.reset :=
  ⟨deviceInv_of_idle rfl, nofun, nofun⟩

/-- Settles O37: a step keeps each of the three parts of the invariant by itself. -/
theorem everyStepKeepsInvariant : Obligations.EveryStepKeepsInvariant := by
  refine ⟨inv_reset, ?_⟩
  rintro s t ⟨device, host, zeroSlots⟩ h
  exact ⟨step_deviceInv device h, step_hostInv host h, step_zeroSlots zeroSlots h⟩

/-! ## The read of READDATA -/

theorem memRead_of_readData {s : State} (h : s.dev.readPtr = .readData) : s.memRead = s.readReadData := by
  simp [State.memRead, h]

theorem readReadData_of_stored {s : State} {b : Byte} (hb : s.dev.readData = some b)
    (hp : ∀ ch, s.dev.pending ≠ some (.readByte ch)) : s.readReadData = (b, s) := by
  cases hop : s.dev.pending with
  | none => simp [State.readReadData, hb, hop]
  | some op =>
    cases op with
    | readByte ch => exact absurd hop (hp ch)
    | reset1W _ | bit _ _ | writeByte _ _ | triplet _ _ => simp [State.readReadData, hb, hop]

theorem readReadData_of_unset {s : State}
    (h : s.dev.readData = none ∨ ∃ ch, s.dev.pending = some (.readByte ch)) : s.readReadData = s.drawByte := by
  unfold State.readReadData
  rcases h with h | ⟨ch, h⟩
  · simp [h]
  · cases hr : s.dev.readData <;> simp [h]

/-- Settles O27: the two clauses are the rows of R152. -/
theorem rdReadDataReturnsByte : Obligations.RdReadDataReturnsByte := by
  intro s live hp
  have read : (s.issue .read).memRead = (s.issue .read).readReadData := memRead_of_readData hp
  refine ⟨fun b hb hn => ?_, fun hu => ?_⟩
  · rw [readReadData_of_stored (s := s.issue .read) hb hn] at read
    exact ⟨_, exec_rd_of_memRead live read, rfl, rfl⟩
  · rw [readReadData_of_unset (s := s.issue .read) hu] at read
    refine ⟨_, _, exec_rd_of_memRead live read, by simp, rfl, fun v rest hs => ?_⟩
    exact congrArg (BitVec.ofNat 8 ·.1) (draw_of_script (s.issue .read) v rest hs)

/-! ## Completions -/

theorem engineStep_of_pending {s : State} {op : Op} (h : s.dev.pending = some op) : engineStep s = s.complete op := by
  simp [engineStep, h]

/-- A completion is what the operation does, and then nothing is pending; SPU aside (R156, R157). -/
theorem engineStep_completes {s : State} {op : Op} {new : List Event} (h : s.dev.pending = some op)
    (ran : EnvAdds s (s.runOp op) new) :
    EnvAdds s (engineStep s) new ∧ (engineStep s).host = s.host
      ∧ (engineStep s).dev = { (s.runOp op).dev with pending := none, cfg := (engineStep s).dev.cfg } := by
  obtain ⟨hdev, -⟩ := complete_dev s op
  rw [engineStep_of_pending h]
  exact ⟨complete_env s op new ran, complete_host s op, hdev⟩

/-- A reset question takes two draws, the first inputs placed in advance (R38). -/
theorem busReset_of_script {s : State} {a b : Nat} {rest : List Nat} (ch : Channel)
    (h : s.env.script = a :: b :: rest) :
    (s.busReset ch).1 = (a % 2 == 1, b % 2 == 1) := by
  simp [State.busReset, State.drawBool, State.draw, h]

/-- The sample of a 1 slot is the first input placed in advance (R38). -/
theorem busSlot_of_script {s : State} {a : Nat} {rest : List Nat} (ch : Channel) (h : s.env.script = a :: rest) :
    (s.busSlot ch true).1 = (a % 2 == 1) ∧ (s.busSlot ch true).2.env.script = rest := by
  simp [State.busSlot, drawBool_of_script h, State.record]

/-- Settles O30: the one reset question's answers go to PPD and SD. -/
theorem resetCompletionWritesPresence : Obligations.ResetCompletionWritesPresence := by
  intro s ch hop
  obtain ⟨henv, hhost, hdev⟩ := engineStep_completes hop (busReset_env s ch)
  refine ⟨(s.busReset ch).1.1, (s.busReset ch).1.2, henv, hhost, ?_, fun a b rest hs => ?_⟩
  · rw [hdev]
    simp [State.runOp, State.completeReset]
  · simp [busReset_of_script ch hs]

/-- Settles O31: the one slot's sample goes to SBR. -/
theorem bitCompletionWritesSample : Obligations.BitCompletionWritesSample := by
  intro s v ch hop
  obtain ⟨henv, hhost, hdev⟩ := engineStep_completes hop (busSlot_env s ch v)
  refine ⟨(s.busSlot ch v).1, henv, hhost, ?_, ?_, ?_⟩
  · rw [hdev]
    simp [State.runOp, State.completeBit]
  · rintro rfl
    exact busSlot_zero s ch
  · rintro a rest rfl hs
    obtain ⟨sample, -⟩ := busSlot_of_script ch hs
    exact sample

/-- Pairs with different first components are the graph of a function on these. -/
theorem exists_fun_of_nodup_fst {samples : List (Nat × Bool)} (h : (samples.map Prod.fst).Nodup) :
    ∃ x : Nat → Bool, ∀ p ∈ samples, x p.1 = p.2 := by
  refine ⟨fun i => decide ((i, true) ∈ samples), ?_⟩
  rintro ⟨i, sample⟩ hp
  cases sample with
  | true => simpa using hp
  | false =>
    have other : (i, true) ∉ samples := fun ht => by simpa using List.inj_on_of_nodup_map h hp ht rfl
    simpa using other

/-- The slots that send a byte's bits, by the number of the bit. -/
theorem sendBits_env_of_nodup (ch : Channel) (b : Byte) {order : List Nat} (hn : order.Nodup) (s : State) :
    ∃ x : Nat → Bool,
      EnvAdds s (sendBits ch b order s) (order.reverse.map fun i => .busSlot ch (b.getLsbD i) (x i)) := by
  obtain ⟨samples, rfl, -, henv⟩ := sendBits_env ch b order s
  obtain ⟨x, hx⟩ := exists_fun_of_nodup_fst hn
  refine ⟨x, ?_⟩
  have events : (samples.map Prod.fst).reverse.map (fun i => Event.busSlot ch (b.getLsbD i) (x i))
      = samples.reverse.map fun p => .busSlot ch (b.getLsbD p.1) p.2 := by
    rw [← List.map_reverse, List.map_map]
    exact List.map_congr_left fun p hp => by simp [hx p (List.mem_reverse.mp hp)]
  rw [events]
  exact henv

/-- Settles O32: the slots are those of the bits from bit 0, and their samples go nowhere. -/
theorem writeByteSendsLsbFirst : Obligations.WriteByteSendsLsbFirst := by
  intro s b ch hop
  obtain ⟨x, slots⟩ := sendBits_env_of_nodup ch b (order := lsbFirst) (by decide) s
  obtain ⟨henv, hhost, hdev⟩ := engineStep_completes hop slots
  refine ⟨x, henv, hhost, ?_⟩
  rw [hdev]
  simp [State.runOp, State.completeWriteByte]

/-- A bit placed in advance as a number is drawn as it was placed. -/
theorem drawn_bit (b : Bool) : ((if b then 1 else 0) % 2 == 1) = b := by cases b <;> rfl

/-- Where the inputs placed in advance are bits of v, the read slots put these bits of v into the byte received. -/
theorem receiveBits_of_script (ch : Channel) (v : Byte) {order : List Nat} {rest : List Nat} {r : Byte} {s : State}
    (h : s.env.script = (order.map fun i => if v.getLsbD i then 1 else 0) ++ rest) {j : Nat} (hj : j < 8) :
    (receiveBits ch order r s).1.getLsbD j = (r.getLsbD j || (decide (j ∈ order) && v.getLsbD j)) := by
  induction order generalizing r s with
  | nil => simp [receiveBits]
  | cons i order ih =>
    obtain ⟨sample, script⟩ := busSlot_of_script ch h
    rw [receiveBits, ih script, BitVec.getLsbD_or, getLsbD_bitByte_shift, sample, drawn_bit]
    by_cases hji : j = i
    · subst hji
      cases v.getLsbD j <;> simp [hj]
    · simp [hji]

/-- Settles O33: each read slot's sample is the bit of its number of the byte stored. -/
theorem readByteCollectsLsbFirst : Obligations.ReadByteCollectsLsbFirst := by
  intro s ch hop
  obtain ⟨slots, -⟩ := receiveBits_env ch lsbFirst 0#8 s (by decide) (by decide) (by simp)
  obtain ⟨henv, hhost, hdev⟩ := engineStep_completes hop slots
  refine ⟨(receiveBits ch lsbFirst 0#8 s).1, henv, hhost, ?_, fun v rest hs => ?_⟩
  · rw [hdev]
    simp [State.runOp, State.completeReadByte]
  · refine BitVec.eq_of_getLsbD_eq fun j hj => ?_
    have everyBit : j ∈ lsbFirst := by simp only [lsbFirst, List.mem_cons]; omega
    simp [receiveBits_of_script ch v (order := lsbFirst) hs hj, everyBit]

/-- What a triplet's two read slots and its direction slot leave in the device (R153). -/
theorem completeTriplet_dev (s : State) (d : Bool) (ch : Channel) :
    (s.completeTriplet d ch).dev =
      { s.dev with
        sbr := (s.busSlot ch true).1, tsb := ((s.busSlot ch true).2.busSlot ch true).1
        dir := tripletDirection (s.busSlot ch true).1 ((s.busSlot ch true).2.busSlot ch true).1 d } := by
  simp [State.completeTriplet]

/-- The same three slots in the history. -/
theorem completeTriplet_env (s : State) (d : Bool) (ch : Channel) :
    ∃ x, EnvAdds s (s.completeTriplet d ch)
      [.busSlot ch (tripletDirection (s.busSlot ch true).1 ((s.busSlot ch true).2.busSlot ch true).1 d) x,
        .busSlot ch true ((s.busSlot ch true).2.busSlot ch true).1, .busSlot ch true (s.busSlot ch true).1] :=
  ⟨_, envAdds_trans (envAdds_trans (busSlot_env s ch true) (busSlot_env _ ch true)) (busSlot_env _ ch _)⟩

/-- The direction table of R153. -/
theorem tripletDirection_table (id cmp d : Bool) :
    (id = true → cmp = false → tripletDirection id cmp d = true)
      ∧ (id = false → cmp = true → tripletDirection id cmp d = false)
      ∧ (id = false → cmp = false → tripletDirection id cmp d = d)
      ∧ (id = true → cmp = true → tripletDirection id cmp d = true) := by
  refine ⟨?_, ?_, ?_, ?_⟩ <;> rintro rfl rfl <;> rfl

/-- Settles O34: the direction slot follows the two read slots, and its value is that of the direction table. -/
theorem tripletCompletionTakesDirection : Obligations.TripletCompletionTakesDirection := by
  intro s d ch hop
  obtain ⟨x, slots⟩ := completeTriplet_env s d ch
  obtain ⟨henv, hhost, hdev⟩ := engineStep_completes hop slots
  obtain ⟨one, zero, both, neither⟩ :=
    tripletDirection_table (s.busSlot ch true).1 ((s.busSlot ch true).2.busSlot ch true).1 d
  refine ⟨_, _, _, x, henv, hhost, ?_, one, zero, both, neither, fun a b rest hs => ?_⟩
  · rw [hdev, State.runOp, completeTriplet_dev]
  · obtain ⟨first, script⟩ := busSlot_of_script ch hs
    obtain ⟨second, -⟩ := busSlot_of_script ch script
    exact ⟨first, second⟩

/-! ## The draws of a completion -/

theorem draw_script (s : State) : s.draw.2.env.script = s.env.script.drop 1 := by
  cases hs : s.env.script <;> simp [State.draw, hs]

theorem busReset_script (s : State) (ch : Channel) : (s.busReset ch).2.env.script = s.env.script.drop 2 := by
  simp [State.busReset, draw_script]

/-- Only a slot that sends a 1 takes a draw (R38). -/
theorem busSlot_script (s : State) (ch : Channel) (v : Bool) :
    (s.busSlot ch v).2.env.script = s.env.script.drop (if v then 1 else 0) := by
  cases v <;> simp [State.busSlot, draw_script]

theorem sendBits_script (ch : Channel) (b : Byte) (order : List Nat) (s : State) :
    (sendBits ch b order s).env.script = s.env.script.drop (order.filter fun i => b.getLsbD i).length := by
  induction order generalizing s with
  | nil => rfl
  | cons i order ih =>
    rw [sendBits, ih, busSlot_script, List.drop_drop]
    cases hb : b.getLsbD i <;> simp [hb, Nat.add_comm]

theorem receiveBits_script (ch : Channel) (order : List Nat) (r : Byte) (s : State) :
    (receiveBits ch order r s).2.env.script = s.env.script.drop order.length := by
  induction order generalizing r s with
  | nil => rfl
  | cons i order ih =>
    rw [receiveBits, ih, busSlot_script, List.drop_drop]
    simp [Nat.add_comm]

/-- An operation uses up the inputs that `Op.takes` gives it. -/
theorem runOp_script {s : State} {op : Op} {draws rest : List Nat} (ht : op.takes draws)
    (hs : s.env.script = draws ++ rest) : (s.runOp op).env.script = rest := by
  cases op with
  | reset1W ch => exact (busReset_script s ch).trans (by rw [hs, List.drop_left' ht])
  | bit v ch => exact (busSlot_script s ch v).trans (by rw [hs, List.drop_left' ht])
  | writeByte b ch => exact (sendBits_script ch b lsbFirst s).trans (by rw [hs, List.drop_left' ht])
  | readByte ch => exact (receiveBits_script ch lsbFirst 0#8 s).trans (by rw [hs]; exact List.drop_left' ht)
  | triplet d ch =>
    obtain ⟨x, y, more, rfl, hl⟩ := ht
    obtain ⟨first, script₁⟩ := busSlot_of_script ch hs
    obtain ⟨second, script₂⟩ := busSlot_of_script ch script₁
    refine (busSlot_script _ ch _).trans ?_
    rw [script₂, first, second]
    exact List.drop_left' hl

/-- A set SPU becomes the first input placed in advance (R157). -/
theorem drawSpu_of_script {s : State} {k : Nat} {rest : List Nat} (h : s.dev.cfg.getLsbD 2 = true)
    (hs : s.env.script = k :: rest) : s.drawSpu.dev.cfg.getLsbD 2 = (k % 2 == 1) := by
  rw [State.drawSpu, if_pos h, drawBool_of_script hs]
  cases k % 2 == 1 <;> simp [h]

/-- The configuration's bits under the mask of SPU's draw stay. -/
theorem complete_cfg_of_masked (s : State) (op : Op) {i : Nat} (hi : (0b1011#4).getLsbD i = true) :
    (s.complete op).dev.cfg.getLsbD i = s.dev.cfg.getLsbD i := by
  obtain ⟨-, same | ⟨-, cleared⟩⟩ := complete_dev s op
  · rw [same]
  · rw [cleared, BitVec.getLsbD_and, hi, Bool.and_true]

/-- A clear SPU takes no draw (R157). -/
theorem complete_cfg_of_clear {s : State} (op : Op) (h : s.dev.cfg.getLsbD 2 = false) :
    (s.complete op).dev.cfg = s.dev.cfg := by
  obtain ⟨-, same | ⟨set, -⟩⟩ := complete_dev s op
  · exact same
  · rw [h] at set; cases set

/-- Settles O35: SPU's draw comes after those of the operation, which leave the configuration alone. -/
theorem completionDrawsSpu : Obligations.CompletionDrawsSpu := by
  intro s op hop
  rw [engineStep_of_pending hop]
  refine ⟨complete_cfg_of_masked s op rfl, complete_cfg_of_masked s op rfl, complete_cfg_of_masked s op rfl,
    complete_cfg_of_clear op, fun draws k rest ht hs set => ?_⟩
  have kept : (s.runOp op).dev.cfg = s.dev.cfg := by rw [runOp_dev]
  exact drawSpu_of_script (s := { s.runOp op with dev.pending := none }) (kept ▸ set) (runOp_script ht hs)

/-! ## Acceptance of the 1-Wire commands -/

/-- On a quiet device a 1-Wire command puts its operation of the selected channel in flight. -/
theorem execCommand_accept {s : State} (bytes : List Byte) (cmd : Byte) (op : Channel → Op) (live : Live s)
    (quiet : Quiet s) :
    ∃ t, execCommand s bytes cmd true true (accept op) = .next t
      ∧ t.dev = { s.dev with pending := some (op s.dev.channel), readPtr := t.dev.readPtr }
      ∧ t.host = { s.host with reply := .ack } ∧ EnvAdds s t [sent s (.write bytes)] ∧ PointerDrawn s t :=
  execCommand_redraws (effect := accept op) live (fun _ => quiet) rfl live.1 rfl rfl

/-- Bit 7 is the sign bit of the parameter (R85, R89). -/
theorem slotBit_eq (p : Byte) : slotBit p = decide (128 ≤ p.toNat) :=
  BitVec.msb_eq_decide p

/-- Settles O19: the operation put in flight is Reset1W. -/
theorem w1rsStartsReset : Obligations.W1rsStartsReset :=
  fun _ live quiet => execCommand_accept [0xB4#8] 0xB4#8 .reset1W live quiet

/-- Settles O20: the slot's value is bit 7, whatever the bits below it. -/
theorem w1sbStartsSlot : Obligations.W1sbStartsSlot := by
  intro s p live quiet
  rw [← slotBit_eq]
  exact execCommand_accept [0x87#8, p] 0x87#8 (.bit (slotBit p)) live quiet

/-- Settles O21: the operation put in flight is WriteByte of the parameter. -/
theorem w1wbStartsWrite : Obligations.W1wbStartsWrite :=
  fun _ b live quiet => execCommand_accept [0xA5#8, b] 0xA5#8 (.writeByte b) live quiet

/-- Settles O22: the operation put in flight is ReadByte. -/
theorem w1rbStartsRead : Obligations.W1rbStartsRead :=
  fun _ live quiet => execCommand_accept [0x96#8] 0x96#8 .readByte live quiet

/-- Settles O23: the direction is bit 7, whatever the bits below it. -/
theorem w1tStartsTriplet : Obligations.W1tStartsTriplet := by
  intro s p live quiet
  rw [← slotBit_eq]
  exact execCommand_accept [0x78#8, p] 0x78#8 (.triplet (slotBit p)) live quiet

end Sys2Proof.Machine

namespace Sys2Proof.Machine

/-! ## What changes the channel -/

theorem engineMoved_channel {s t : State} (h : engineMoved s t) : t.dev.channel = s.dev.channel := by
  obtain ⟨c, hd, -, rfl⟩ := h
  obtain ⟨-, hc, -⟩ := engineStep_dev c
  rw [hc, hd]

/-- Settles O40: of the causes of a change the engine leaves the channel alone, and of the instructions other than DRST
only CHSL writes it, with the channel its code selects. -/
theorem channelChangesByChslOrReset : Obligations.ChannelChangesByChslOrReset := by
  intro s t h changed
  rcases step_dev_cause h with moved | same | ⟨comes, he⟩ | ⟨i, hi, issues, he, -⟩
  · exact absurd (engineMoved_channel moved) changed
  · exact absurd (by rw [same]) changed
  · exact .inl ⟨comes, by rw [he]⟩
  · cases i with
    | drst => exact absurd rfl hi
    | chsl c =>
      obtain ⟨n, hn, he⟩ := he
      exact .inr ⟨c, hostSends_of_hostIssues issues rfl, by rw [he]; exact chselCode_of_channelOf hn⟩
    | srp _ | wcfg _ => obtain ⟨_, -, he⟩ := he; exact absurd (by rw [he]) changed
    | w1rs | w1wb _ | w1rb | w1sb _ | w1t _ | rd => exact absurd (by rw [he]) changed

/-! ## The read of CHANNEL -/

theorem memRead_of_channel {s : State} (h : s.dev.readPtr = .channel) : s.memRead = s.readChannel := by
  simp [State.memRead, h]

theorem readChannel_of_settled {s : State} (h : s.dev.settling = false) :
    s.readChannel = (chselReadback s.dev.channel, s) := by
  simp [State.readChannel, h]

theorem readChannel_of_settling {s : State} (h : s.dev.settling = true) : s.readChannel = s.drawByte := by
  simp [State.readChannel, h]

/-- The readback column of the table, channel by channel (R170). -/
theorem chselReadback_of_mem {n : Channel} {v : Byte}
    (h : (n, v) ∈ [((0 : Channel), 0xB8#8), (1, 0xB1#8), (2, 0xAA#8), (3, 0xA3#8), (4, 0x9C#8), (5, 0x95#8),
      (6, 0x8E#8), (7, 0x87#8)]) :
    chselReadback n = v := by
  obtain ⟨m, -, hm⟩ := List.mem_map.mp (show (n, v) ∈ (List.finRange 8).map fun m => (m, chselReadback m) from h)
  cases hm
  rfl

/-- Settles O28: the two clauses are the two branches of R174. -/
theorem rdChannelReturnsReadback : Obligations.RdChannelReturnsReadback := by
  intro s live hp
  have read : (s.issue .read).memRead = (s.issue .read).readChannel := memRead_of_channel hp
  refine ⟨fun v hs hv => ?_, fun hs => ?_⟩
  · rw [readChannel_of_settled (s := s.issue .read) hs] at read
    rw [← chselReadback_of_mem hv]
    exact ⟨_, exec_rd_of_memRead live read, rfl, rfl⟩
  · rw [readChannel_of_settling (s := s.issue .read) hs] at read
    refine ⟨_, _, exec_rd_of_memRead live read, by simp, rfl, fun v rest hv => ?_⟩
    exact congrArg (BitVec.ofNat 8 ·.1) (draw_of_script (s.issue .read) v rest hv)

/-! ## CHSL -/

/-- The code column of the table selects its channels (R170, R171). -/
theorem channelOf_of_mem {c : Byte} {n : Channel}
    (h : (c, n) ∈ [(0xF0#8, (0 : Channel)), (0xE1#8, 1), (0xD2#8, 2), (0xC3#8, 3), (0xB4#8, 4), (0xA5#8, 5),
      (0x96#8, 6), (0x87#8, 7)]) :
    channelOf c = some n := by
  obtain ⟨m, -, hm⟩ := List.mem_map.mp (show (c, n) ∈ (List.finRange 8).map fun m => (chselCode m, m) from h)
  cases hm
  exact channelOf_chselCode n

/-- What is outside the code column selects nothing (R92): a code that selects a channel is that channel's. -/
theorem channelOf_of_not_mem {c : Byte}
    (h : c ∉ [0xF0#8, 0xE1#8, 0xD2#8, 0xC3#8, 0xB4#8, 0xA5#8, 0x96#8, 0x87#8]) : channelOf c = none := by
  by_contra hc
  obtain ⟨n, hn⟩ := Option.ne_none_iff_exists'.mp hc
  rw [← chselCode_of_channelOf hn] at h
  exact h (List.mem_map_of_mem (f := chselCode) (List.mem_finRange n))

theorem chslEffect_of_some {c : Byte} {n : Channel} (h : channelOf c = some n) (d : State) :
    chslEffect c d = .ok { d with dev := { d.dev with channel := n, settling := true } } := by
  simp [chslEffect, h]

theorem chslEffect_of_none {c : Byte} (h : channelOf c = none) (d : State) :
    chslEffect c d = .error (.badChannelCode c) := by
  simp [chslEffect, h]

/-- Settles O18: on a quiet device the code decides, whichever channel was selected, and the busy and the settle check
are those of every gated command. -/
theorem chslSelectsChannel : Obligations.ChslSelectsChannel := by
  intro s c live
  refine ⟨fun n quiet hc => ?_, fun quiet hc => ?_, fun op hop => ?_, fun hn hs => ?_⟩
  · exact execCommand_redraws live (fun _ => quiet) (chslEffect_of_some (channelOf_of_mem hc) _) live.1 rfl rfl
  · exact ⟨_, execCommand_error live (fun _ => quiet) (chslEffect_of_none (channelOf_of_not_mem hc) _), rfl⟩
  · obtain ⟨t, ran, hd, -⟩ := busyDeviceFaultsCommands s (.chsl c) _ op live hop rfl
    exact ⟨t, ran, hd⟩
  · obtain ⟨t, ran, hd, -⟩ := settlingDeviceFaultsCommands s (.chsl c) _ live hn hs rfl
    exact ⟨t, ran, hd⟩

/-! ## The settle step -/

/-- With nothing pending the engine's step is the settle step (R175). -/
theorem engineStep_of_idle {s : State} (h : s.dev.pending = none) : engineStep s = s.settle := by
  simp [engineStep, h]

theorem engineEnabled_of_idle {s : State} (h : s.dev.pending = none) : engineEnabled s = s.dev.settling := by
  simp [engineEnabled, h]

/-- Settles O36: with nothing pending only the settle step is left to the engine. -/
theorem settleStepEndsSettling : Obligations.SettleStepEndsSettling :=
  fun _ idle => ⟨engineEnabled_of_idle idle, fun _ => engineStep_of_idle idle⟩

end Sys2Proof.Machine

namespace Sys2Proof.Machine

/-! ## An answer goes up the positions that wait for it -/

/-- The machine with another program to run. -/
def State.withProg (s : State) (prog : List Task) : State := { s with host.prog := prog }

@[simp] theorem withProg_dev (s : State) (prog : List Task) : (s.withProg prog).dev = s.dev := rfl
@[simp] theorem withProg_host (s : State) (prog : List Task) :
    (s.withProg prog).host = { s.host with prog := prog } := rfl
@[simp] theorem withProg_env (s : State) (prog : List Task) : (s.withProg prog).env = s.env := rfl

@[simp] theorem unwind_nil_dev (rest : List Task) (v : Ret) (s : State) : (unwind rest [] v s).dev = s.dev := rfl
@[simp] theorem unwind_nil_host (rest : List Task) (v : Ret) (s : State) :
    (unwind rest [] v s).host = { s.host with prog := rest, result := some v } := rfl

theorem unwind_of_run {k : Kont} {v : Ret} {s t : State} {op : HostOp} {more : List Kont}
    (h : resume k v s = (t, .run op more)) (rest : List Task) (ks : List Kont) :
    unwind rest (k :: ks) v s = t.withProg (⟨op, more ++ ks⟩ :: rest) := by
  rw [unwind, h]; rfl

theorem unwind_of_ret {k : Kont} {v w : Ret} {s t : State} (h : resume k v s = (t, .ret w)) (rest : List Task)
    (ks : List Kont) : unwind rest (k :: ks) v s = unwind rest ks w t := by
  rw [unwind, h]

/-! ## A poll of busyWait (R203) -/

theorem resume_pollStatus_of_ready {ok : Bool} {b : Byte} (hb : b.getLsbD 0 = false) (s : State) :
    resume .pollStatus (.pair ok b) s = (s, .ret (.pair true b)) := by
  rw [resume, Ret.value, if_pos hb]

theorem resume_pollStatus_of_timeout {ok : Bool} {b : Byte} {s : State} (hb : b.getLsbD 0 = true)
    (hd : s.drawBool.1 = true) : resume .pollStatus (.pair ok b) s = (s.draw.2, .ret (.pair false b)) := by
  simp only [resume, Ret.value, hb, hd, Bool.true_eq_false, if_false, if_true, drawBool_snd]

theorem resume_pollStatus_of_again {ok : Bool} {b : Byte} {s : State} (hb : b.getLsbD 0 = true)
    (hd : s.drawBool.1 = false) :
    resume .pollStatus (.pair ok b) s = (s.draw.2, .run (.delay .poll) [.pollDelay]) := by
  simp only [resume, Ret.value, hb, hd, Bool.true_eq_false, Bool.false_eq_true, if_false, drawBool_snd]

/-! ## The host's step at each kind of operation -/

theorem hostStep_of_txn {s : State} {x : Txn} {konts : List Kont} {rest : List Task}
    (hp : s.host.prog = ⟨.txn x, konts⟩ :: rest) : hostStep s = andThen (runTxn x s) (deliver rest konts x) := by
  unfold hostStep; rw [hp]

theorem hostStep_of_call {s : State} {p : Proc} {konts : List Kont} {rest : List Task}
    (hp : s.host.prog = ⟨.call p, konts⟩ :: rest) : hostStep s = .next (advance rest konts (enter p s)) := by
  unfold hostStep; rw [hp]

theorem hostStep_of_delay {s : State} {d : Delay} {konts : List Kont} {rest : List Task}
    (hp : s.host.prog = ⟨.delay d, konts⟩ :: rest) :
    hostStep s = .next (unwind rest konts (.bool true) (s.record (.delay d))) := by
  unfold hostStep; rw [hp]

theorem deliver_of_faulted {u : State} {r : Fault} {rest : List Task} {konts : List Kont} {x : Txn}
    (hf : u.dev.fault = some r) : deliver rest konts x u = u := by
  unfold deliver; rw [hf]

/-- The start of a procedure, wherever the host moves. -/
theorem step_of_call_of_hostMoves {s : State} {p : Proc} {konts : List Kont} {rest : List Task}
    (hf : s.dev.fault = none) (hm : HostMoves s) (hp : s.host.prog = ⟨.call p, konts⟩ :: rest) :
    step s = .next (advance rest konts (enter p s.afterChoice)) := by
  rw [step_of_hostMoves hf hm hp (fun hd => HostOp.noConfusion hd)]
  exact hostStep_of_call (by rw [afterChoice_host, hp])

/-- A transaction that raises no fault, wherever the host moves: its answer goes up. -/
theorem step_of_exec_of_hostMoves {s u : State} {x : Txn} {i : Instr} {konts : List Kont} {rest : List Task} {r : Reply}
    (hf : s.dev.fault = none) (hm : HostMoves s) (hp : s.host.prog = ⟨.txn x, konts⟩ :: rest)
    (hd : decode x = .ok i) (ran : exec i s.afterChoice = .next u) (huf : u.dev.fault = none)
    (hr : u.host.reply = r) : step s = .next (unwind rest konts (replyRet x r) u) := by
  rw [step_of_decode hf hm hp hd, ran, andThen, deliver_of_unfaulted huf, hr]

/-! ## selectChannel of a number above 7 -/

theorem channelOfByte_of_large {n : Byte} (h : 7 < n.toNat) : channelOfByte n = none :=
  dif_neg (by omega)

/-- Settles O49: no channel has that number, so the procedure returns where it starts. -/
theorem selectRejectsOutOfRange : Obligations.SelectRejectsOutOfRange := by
  intro s n rest hf hm hn hp
  have start : enter (.selectChannel n) s.afterChoice = (s.afterChoice, .ret (.bool false)) := by
    rw [enter, channelOfByte_of_large hn]
  refine ⟨?_, afterChoice_dev s, afterChoice_history s⟩
  rw [step_of_call_of_hostMoves hf hm hp, start, advance, unwind, afterChoice_host]

/-! ## Without a device -/

@[simp] theorem afterChoice_present (s : State) : s.afterChoice.env.devicePresent = s.env.devicePresent := by
  unfold State.afterChoice; split
  · exact (chooseAgent_env s).1
  · rfl

@[simp] theorem afterChoice_errors (s : State) : s.afterChoice.env.busErrors = s.env.busErrors := by
  unfold State.afterChoice; split
  · exact (chooseAgent_env s).2.1
  · rfl

/-- Without a device the failure of the transaction goes up, and nothing but the reply was written (R99). -/
theorem step_of_absent {s : State} {x : Txn} {konts : List Kont} {rest : List Task} (hf : s.dev.fault = none)
    (hm : HostMoves s) (absent : s.env.devicePresent = false) (hp : s.host.prog = ⟨.txn x, konts⟩ :: rest) :
    ∃ u, step s = .next (unwind rest konts (replyRet x .fail) u) ∧ u.dev = s.dev
      ∧ u.host = { s.host with reply := .fail } := by
  have hf' : (s.afterChoice.issue x).dev.fault = none := by simp [hf]
  refine ⟨{ s.afterChoice.issue x with host.reply := .fail }, ?_, by simp, by simp⟩
  rw [step_of_hostMoves hf hm hp (fun hd => HostOp.noConfusion hd), hostStep_of_txn (by rw [afterChoice_host, hp]),
    runTxn_of_absent (by simp [hf]) (by simp [absent]), answer_of_unfaulted _ _ hf', andThen,
    deliver_of_unfaulted (by exact hf')]

/-- A procedure that starts with a transaction, without a device: its first position gets the failure. -/
theorem absent_start {s : State} {p : Proc} {rest : List Task} {x : Txn} {k : Kont} (hf : s.dev.fault = none)
    (hm : HostMoves s) (absent : s.env.devicePresent = false) (hp : s.host.prog = ⟨.call p, []⟩ :: rest)
    (start : ∀ c, enter p c = (c, .run (.txn x) [k])) :
    ∃ s1, step s = .next s1 ∧ s1.dev = s.dev
      ∧ (HostMoves s1 → ∃ u, step s1 = .next (unwind rest [k] (replyRet x .fail) u) ∧ u.dev = s.dev
          ∧ u.host = { s.host with reply := .fail, prog := ⟨.txn x, [k]⟩ :: rest }) := by
  have call : step s = .next (s.afterChoice.withProg (⟨.txn x, [k]⟩ :: rest)) := by
    rw [step_of_call_of_hostMoves hf hm hp, start]; rfl
  refine ⟨_, call, by simp, fun hm1 => ?_⟩
  obtain ⟨u, failed, hd, hh⟩ := step_of_absent (by simp [hf]) hm1 (by simp [absent]) rfl
  exact ⟨u, failed, by simpa using hd, by simpa using hh⟩

/-- Settles O53: the first position of a reset sequence sets ERROR on the failed DRST, that of readStatus answers the
sentinel to the failed SRP. -/
theorem absentDeviceFailsBegin : Obligations.AbsentDeviceFailsBegin := by
  intro s p rest hf hm absent hp
  refine ⟨fun hmem => ?_, fun hread => ?_⟩
  · have start : ∀ c, enter p c = (c, .run (writeCommandOp 0xF0#8) [.resetSent]) := by
      simp only [List.mem_cons, List.not_mem_nil, or_false] at hmem
      rcases hmem with rfl | rfl | rfl <;> exact fun _ => rfl
    obtain ⟨s1, called, hd1, next⟩ := absent_start hf hm absent hp start
    refine ⟨s1, called, hd1, fun hm1 => ?_⟩
    obtain ⟨u, failed, hd, hh⟩ := next hm1
    rw [unwind_of_ret (t := u.enterError) (w := .bool false) rfl] at failed
    exact ⟨_, failed, by simp [hd], by simp [hh]⟩
  · subst hread
    obtain ⟨s1, called, hd1, next⟩ := absent_start (x := .write [0xE1#8, 0xF0#8]) hf hm absent hp fun _ => rfl
    refine ⟨s1, called, hd1, fun hm1 => ?_⟩
    obtain ⟨u, failed, hd, hh⟩ := next hm1
    rw [unwind_of_ret (t := u) (w := .pair false 0xFF#8) rfl] at failed
    exact ⟨_, failed, by simp [hd], by simp [hh]⟩

/-! ## The status read of a poll -/

theorem live_afterChoice {s : State} (live : Live s) : Live s.afterChoice := by
  simpa [Live] using live

theorem shownStatus_script {s : State} {op : Op} (h : s.dev.pending = some op) :
    s.shownStatus.2.env.script = s.env.script.drop op.resultDraws := by
  cases op <;> simp [State.shownStatus, h, draw_script, Op.resultDraws]

/-- The draws of a status read while an operation is pending: LL, then the result bits (R25, R40). -/
theorem exec_rd_script {s t : State} {op : Op} (live : Live s) (hp : s.dev.readPtr = .status)
    (hop : s.dev.pending = some op) (ran : exec .rd s = .next t) :
    t.env.script = s.env.script.drop (op.resultDraws + 1) := by
  have ran' := exec_rd_of_memRead (b := (s.issue .read).readStatus.1) live (memRead_of_status (s := s.issue .read) hp)
  rw [ran] at ran'
  cases ran'
  show (s.issue .read).readStatus.2.env.script = _
  rw [State.readStatus, shownStatus_script (op := op) (by simpa using hop)]
  simp [State.busLevel, draw_script, Nat.add_comm]

/-- Settles O54: the byte read reaches the poll's position through that of readStatus; its 1WB is set exactly where an
operation is pending, and then the draw that is left after the read decides. -/
theorem busyWaitDecidesOnBusyBit : Obligations.BusyWaitDecidesOnBusyBit := by
  intro s rest live hm hptr hp
  have liveC := live_afterChoice live
  have read : ∀ {t : State} {b : Byte} {l : Bool}, exec .rd s.afterChoice = .next t →
      t.dev = { s.afterChoice.dev with ll := l } → t.host = { s.afterChoice.host with reply := .data b } →
      step s = .next (unwind rest [.pollStatus] (.pair true b) t) := by
    intro t b l ran hd hh
    exact step_of_exec_of_hostMoves live.1 hm hp rfl ran (by rw [hd]; exact liveC.1) (by rw [hh])
  refine ⟨fun idle => ?_, fun op hop => ?_⟩
  · obtain ⟨t, b, l, ran, hd, hh, -, -, -, -, -, -, -, -, hb, -⟩ :=
      rdStatusShowsStoredBits s.afterChoice liveC (by simpa using idle) (by simpa using hptr)
    refine ⟨_, b, read ran hd hh, hb, ?_⟩
    rw [unwind_of_ret (resume_pollStatus_of_ready hb t)]
    simp [hh]
  · have hopC : s.afterChoice.dev.pending = some op := by simpa using hop
    have hptrC : s.afterChoice.dev.readPtr = .status := by simpa using hptr
    obtain ⟨t, b, l, ran, hd, hh, -, hb, -⟩ := rdStatusWhileBusy s.afterChoice op liveC hopC hptrC
    refine ⟨_, b, t.drawBool.1, read ran hd hh, hb, fun timeout => ?_, fun again => ?_, fun draws x more hl hs => ?_⟩
    · rw [unwind_of_ret (resume_pollStatus_of_timeout hb timeout)]
      simp [hh]
    · rw [unwind_of_run (resume_pollStatus_of_again hb again)]
      simp [hh]
    · have left : t.env.script = x :: more := by
        rw [exec_rd_script liveC hptrC hopC ran, afterChoice_script, hs, List.drop_left' hl]
      rw [drawBool_of_script left]

/-! ## busyWait returns -/

/-- A busyWait whose caller waits at ks has ended: ready with the byte last read, whose 1WB is 0, or not ready with
that byte, or with the sentinel of a failed poll, whose 1WB is 1 (R203). -/
def BusyWaitEnded (ks : List Kont) (rest : List Task) (t : State) : Prop :=
  ∃ u ready, ∃ b : Byte, t = unwind rest ks (.pair ready b) u
    ∧ (u.host.reply = .data b ∨ u.host.reply = .fail ∧ b = 0xFF#8) ∧ b.getLsbD 0 = !ready

theorem inBusyWait_of_prog {s t : State} {ks : List Kont} {rest : List Task} (h : InBusyWait ks rest s)
    (hp : t.host.prog = s.host.prog) : InBusyWait ks rest t := by
  obtain ⟨op, inner, prog, hm⟩ := h
  exact ⟨op, inner, hp.trans prog, hm⟩

/-- The poll's position ends the busyWait or goes on to the poll delay. -/
theorem unwind_pollStatus {ok : Bool} {b : Byte} {u : State} (ks : List Kont) (rest : List Task)
    (hr : u.host.reply = .data b ∨ u.host.reply = .fail ∧ b = 0xFF#8) :
    InBusyWait ks rest (unwind rest (.pollStatus :: ks) (.pair ok b) u)
      ∨ BusyWaitEnded ks rest (unwind rest (.pollStatus :: ks) (.pair ok b) u) := by
  cases hb : b.getLsbD 0 with
  | false =>
    rw [unwind_of_ret (resume_pollStatus_of_ready hb u)]
    exact .inr ⟨u, true, b, rfl, hr, hb⟩
  | true =>
    cases hd : u.drawBool.1 with
    | true =>
      rw [unwind_of_ret (resume_pollStatus_of_timeout hb hd)]
      exact .inr ⟨_, false, b, rfl, by simpa using hr, hb⟩
    | false =>
      rw [unwind_of_run (resume_pollStatus_of_again hb hd)]
      exact .inl ⟨_, _, rfl, by simp⟩

/-- The positions of readStatus pass what the transaction answered to the poll, or go on to the read. -/
theorem unwind_statusPointer {bytes : List Byte} {v : Ret} {u : State} (ks : List Kont) (rest : List Task)
    (ha : Answers ks (.txn (.write bytes)) u.host.reply v) :
    InBusyWait ks rest (unwind rest (.statusPointer :: .pollStatus :: ks) v u)
      ∨ BusyWaitEnded ks rest (unwind rest (.statusPointer :: .pollStatus :: ks) v u) := by
  rcases ha with ⟨-, rfl⟩ | ⟨hr, rfl⟩
  · exact .inl ⟨_, [.statusRead, .pollStatus], rfl, by simp⟩
  · exact unwind_pollStatus (ok := false) ks rest (.inr ⟨hr, rfl⟩)

theorem unwind_statusRead {v : Ret} {u : State} (ks : List Kont) (rest : List Task)
    (ha : Answers ks (.txn .read) u.host.reply v) :
    InBusyWait ks rest (unwind rest (.statusRead :: .pollStatus :: ks) v u)
      ∨ BusyWaitEnded ks rest (unwind rest (.statusRead :: .pollStatus :: ks) v u) := by
  rcases ha with ⟨b, hr, rfl⟩ | ⟨hr, rfl⟩
  · exact unwind_pollStatus (ok := true) ks rest (.inl hr)
  · exact unwind_pollStatus (ok := false) ks rest (.inr ⟨hr, rfl⟩)

/-- A transaction of a program entry faults and leaves the program, or its answer goes up. -/
theorem hostStep_txn_cases {s t : State} {x : Txn} {konts : List Kont} {rest : List Task} (all : List Kont)
    (hp : s.host.prog = ⟨.txn x, konts⟩ :: rest) (h : hostStep s = .next t) :
    t.host.prog = s.host.prog ∨ ∃ u v, Answers all (.txn x) u.host.reply v ∧ t = unwind rest konts v u := by
  rw [hostStep_of_txn hp] at h
  obtain ⟨u, ran, rfl⟩ := andThen_next h
  cases hf : u.dev.fault with
  | none => exact .inr ⟨u, _, runTxn_answers all ran hf, deliver_of_unfaulted hf⟩
  | some r => exact .inl (by rw [deliver_of_faulted hf, runTxn_host ran])

/-- The host's step inside a busyWait stays inside it or ends it, by the operation it stands at. -/
theorem hostStep_inBusyWait {s t : State} {ks : List Kont} {rest : List Task} (h : hostStep s = .next t)
    (hin : InBusyWait ks rest s) : InBusyWait ks rest t ∨ BusyWaitEnded ks rest t := by
  obtain ⟨op, inner, hp, hm⟩ := id hin
  simp only [List.mem_cons, List.not_mem_nil, or_false, Prod.mk.injEq] at hm
  rcases hm with ⟨rfl, rfl⟩ | ⟨rfl, rfl⟩ | ⟨rfl, rfl⟩ | ⟨rfl, rfl⟩ | ⟨rfl, rfl⟩
  · cases (hostStep_of_call hp).symm.trans h
    exact .inl ⟨_, [.pollStatus], rfl, by simp⟩
  · cases (hostStep_of_call hp).symm.trans h
    exact .inl ⟨_, [.statusPointer, .pollStatus], rfl, by simp⟩
  · rcases hostStep_txn_cases ks hp h with same | ⟨u, v, ha, rfl⟩
    · exact .inl (inBusyWait_of_prog hin same)
    · exact unwind_statusPointer ks rest ha
  · rcases hostStep_txn_cases ks hp h with same | ⟨u, v, ha, rfl⟩
    · exact .inl (inBusyWait_of_prog hin same)
    · exact unwind_statusRead ks rest ha
  · cases (hostStep_of_delay hp).symm.trans h
    exact .inl ⟨_, [.pollStatus], rfl, by simp⟩

/-- No step of the engine moves the host (R15). -/
theorem step_inBusyWait {s t : State} {ks : List Kont} {rest : List Task} (h : step s = .next t)
    (hin : InBusyWait ks rest s) : InBusyWait ks rest t ∨ BusyWaitEnded ks rest t := by
  obtain ⟨-, ⟨c, ⟨-, hc, -⟩, -, rfl⟩ | ⟨c, ⟨-, hc, -⟩, -, hstep⟩ | ⟨-, -, rfl⟩⟩ := step_cases h
  · exact .inl (inBusyWait_of_prog hin (by rw [engineStep_host, hc]))
  · exact hostStep_inBusyWait hstep (inBusyWait_of_prog hin (by rw [hc]))
  · exact .inl hin

/-- Settles O48: a busyWait that no step ended would never be left, against host fairness. -/
theorem busyWaitReturns : Obligations.BusyWaitReturns := by
  intro run isRun fair n ks rest hn
  have ends : ∃ m, n ≤ m ∧ InBusyWait ks rest (run m) ∧ BusyWaitEnded ks rest (run (m + 1)) := by
    by_contra never
    have stays : ∀ m, n ≤ m → InBusyWait ks rest (run m) := fun m hm => by
      induction m, hm using Nat.le_induction with
      | base => exact hn
      | succ m hm ih => exact (step_inBusyWait (isRun m) ih).resolve_right fun e => never ⟨m, hm, ih, e⟩
    obtain ⟨m, hm, out⟩ := fair ks rest n hn
    exact out (stays m hm)
  obtain ⟨m, hm, inside, u, ready, b, ended⟩ := ends
  exact ⟨m, u, ready, b, hm, inside, ended⟩

end Sys2Proof.Machine

namespace Sys2Proof.Machine

/-! ## What the positions of the procedures do with a success -/

theorem unwind_statusPointer_of_ack (rest : List Task) (ks : List Kont) (s : State) :
    unwind rest (.statusPointer :: ks) (.bool true) s = s.withProg (⟨.txn .read, .statusRead :: ks⟩ :: rest) := rfl

theorem unwind_statusRead_of_data (rest : List Task) (ks : List Kont) (b : Byte) (s : State) :
    unwind rest (.statusRead :: ks) (.pair true b) s = unwind rest ks (.pair true b) s := rfl

theorem unwind_selectSent_of_ack (rest : List Task) (ks : List Kont) (n : Channel) (s : State) :
    unwind rest (.selectSent n :: ks) (.bool true) s =
      s.withProg (⟨.delay .settle, .selectSettled n :: ks⟩ :: rest) := rfl

theorem unwind_selectSettled (rest : List Task) (ks : List Kont) (n : Channel) (s : State) :
    unwind rest (.selectSettled n :: ks) (.bool true) s =
      s.withProg (⟨setReadPointerOp 0xD2#8, .selectPointer n :: ks⟩ :: rest) := rfl

theorem unwind_selectPointer_of_ack (rest : List Task) (ks : List Kont) (n : Channel) (s : State) :
    unwind rest (.selectPointer n :: ks) (.bool true) s =
      s.withProg (⟨.txn .read, .selectRead n :: ks⟩ :: rest) := rfl

theorem unwind_resetSent_of_ack (rest : List Task) (ks : List Kont) (s : State) :
    unwind rest (.resetSent :: ks) (.bool true) s = s.withProg (⟨.txn .read, .resetProbe :: ks⟩ :: rest) := rfl

theorem unwind_resetProbe_of_data (rest : List Task) (ks : List Kont) (b : Byte) (s : State) :
    unwind rest (.resetProbe :: ks) (.pair true b) s =
      s.withProg (⟨.call .readStatus, .resetStatus :: ks⟩ :: rest) := rfl

theorem unwind_wireResetReady_of_ready (rest : List Task) (ks : List Kont) (b : Byte) (s : State) :
    unwind rest (.wireResetReady :: ks) (.pair true b) s =
      s.withProg (⟨writeCommandOp 0xB4#8, .wireResetSent :: ks⟩ :: rest) := rfl

theorem unwind_wireResetSent_of_ack (rest : List Task) (ks : List Kont) (s : State) :
    unwind rest (.wireResetSent :: ks) (.bool true) s =
      s.withProg (⟨.call .busyWait, .wireResetDone :: ks⟩ :: rest) := rfl

theorem unwind_writeByteReady_of_ready (rest : List Task) (ks : List Kont) (v b : Byte) (s : State) :
    unwind rest (.writeByteReady v :: ks) (.pair true b) s =
      s.withProg (⟨.txn (.write [0xA5#8, v]), .writeByteSent :: ks⟩ :: rest) := rfl

theorem unwind_writeByteSent_of_ack (rest : List Task) (ks : List Kont) (s : State) :
    unwind rest (.writeByteSent :: ks) (.bool true) s = unwind rest ks (.bool true) s := rfl

/-! ## Runs of the host on an idle device -/

/-- What the statements ask of the device where a procedure starts: it is live, and nothing is in flight. -/
def Idle (s : State) : Prop := Live s ∧ Quiet s

theorem idle_withProg {s : State} (idle : Idle s) (prog : List Task) : Idle (s.withProg prog) := idle

/-- The environment is as before, but for draws made and what is new in the history. -/
def EnvGrows (s t : State) : Prop := ∃ new, EnvAdds s t new

theorem envGrows_trans {s t u : State} (h : EnvGrows s t) (k : EnvGrows t u) : EnvGrows s u := by
  obtain ⟨new, h⟩ := h
  obtain ⟨more, k⟩ := k
  exact ⟨_, envAdds_trans h k⟩

theorem envGrows_unwind (rest : List Task) (ks : List Kont) (v : Ret) (s : State) :
    EnvGrows s (unwind rest ks v s) := by
  obtain ⟨-, -, new, h, -⟩ := unwind_local rest ks v s
  exact ⟨new, h⟩

theorem mem_history_of_envGrows {s t : State} {e : Event} (h : EnvGrows s t) (he : e ∈ s.env.history) :
    e ∈ t.env.history := by
  obtain ⟨new, -, -, -, hist⟩ := h
  rw [hist]
  exact List.mem_append_right new he

theorem live_of_envGrows {s t : State} (live : Live s) (grows : EnvGrows s t) (hf : t.dev.fault = none) : Live t := by
  obtain ⟨-, present, errors⟩ := live
  obtain ⟨new, h1, h2, -⟩ := grows
  exact ⟨hf, h1.trans present, h2.trans errors⟩

/-- The device stays idle where no fault is marked and nothing is put in flight. -/
theorem idle_of_envGrows {s t : State} (idle : Idle s) (grows : EnvGrows s t) (hf : t.dev.fault = s.dev.fault)
    (hp : t.dev.pending = s.dev.pending) (hs : t.dev.settling = s.dev.settling) : Idle t :=
  ⟨live_of_envGrows idle.1 grows (hf.trans idle.1.1), hp.trans idle.2.1, hs.trans idle.2.2⟩

/-- In k steps s goes to t, and no agent placed in advance is used up (log 3). -/
def Goes (k : Nat) (s t : State) : Prop := Host.Core.run Sys2Proof.core k s = .next t ∧ EnvGrows s t

/-- Runs compose. -/
theorem run_add {s t : State} {k m : Nat} (h : Host.Core.run Sys2Proof.core k s = .next t) :
    Host.Core.run Sys2Proof.core (k + m) s = Host.Core.run Sys2Proof.core m t := by
  induction k generalizing s with
  | zero => cases h; rw [Nat.zero_add]
  | succ k ih =>
    have unfolded := Host.Core.run.eq_2 Sys2Proof.core s k
    rw [h] at unfolded
    cases hs : Sys2Proof.core.step s with
    | next u =>
      rw [hs] at unfolded
      rw [Nat.succ_add, run_succ hs]
      exact ih unfolded.symm
    | fault r | refused r => rw [hs] at unfolded; cases unfolded

theorem goes_trans {s t u : State} {k m : Nat} (h : Goes k s t) (h' : Goes m t u) : Goes (k + m) s u :=
  ⟨(run_add h.1).trans h'.1, envGrows_trans h.2 h'.2⟩

theorem goes_of_step {s t : State} (h : step s = .next t) (grows : EnvGrows s t) : Goes 1 s t :=
  ⟨run_succ (k := 0) h, grows⟩

/-- The start of a procedure that goes on to a first operation and computes nothing. -/
theorem goes_start {s : State} {p : Proc} {op : HostOp} {ks more : List Kont} {rest : List Task} (idle : Idle s)
    (hp : s.host.prog = ⟨.call p, ks⟩ :: rest) (start : enter p s = (s, .run op more)) :
    Goes 1 s (s.withProg (⟨op, more ++ ks⟩ :: rest)) := by
  refine goes_of_step ?_ ⟨[], rfl, rfl, rfl, rfl⟩
  rw [step_of_call idle.1.1 idle.2 hp, start]
  rfl

/-- A transaction that raises no fault: its answer goes up. -/
theorem step_of_exec {s u : State} {x : Txn} {i : Instr} {r : Reply} {ks : List Kont} {rest : List Task} (idle : Idle s)
    (hp : s.host.prog = ⟨.txn x, ks⟩ :: rest) (hd : decode x = .ok i) (ran : exec i s = .next u)
    (hf : u.dev.fault = none) (hh : u.host = { s.host with reply := r }) :
    step s = .next (unwind rest ks (replyRet x r) u) := by
  have alone : engineEnabled s = false := by simp [engineEnabled, idle.2.1, idle.2.2]
  exact step_of_exec_of_hostMoves idle.1.1 (.inl alone) hp hd (by rw [afterChoice_of_disabled alone, ran]) hf
    (by rw [hh])

/-- A write that is acknowledged without a fault: success goes up (R106). -/
theorem goes_write {s u : State} {bytes : List Byte} {i : Instr} {ks : List Kont} {rest : List Task} (idle : Idle s)
    (hp : s.host.prog = ⟨.txn (.write bytes), ks⟩ :: rest) (hd : decode (.write bytes) = .ok i)
    (ran : exec i s = .next u) (hf : u.dev.fault = none) (hh : u.host = { s.host with reply := .ack })
    (grows : EnvGrows s u) : Goes 1 s (unwind rest ks (.bool true) u) :=
  goes_of_step (step_of_exec idle hp hd ran hf hh) (envGrows_trans grows (envGrows_unwind ..))

/-- A read: the byte goes up (R106). -/
theorem goes_read {s u : State} {b : Byte} {ks : List Kont} {rest : List Task} (idle : Idle s)
    (hp : s.host.prog = ⟨.txn .read, ks⟩ :: rest) (ran : exec .rd s = .next u) (hf : u.dev.fault = none)
    (hh : u.host = { s.host with reply := .data b }) (grows : EnvGrows s u) :
    Goes 1 s (unwind rest ks (.pair true b) u) :=
  goes_of_step (step_of_exec idle hp (i := .rd) rfl ran hf hh) (envGrows_trans grows (envGrows_unwind ..))

/-- SRP of a legal code (R121). -/
theorem goes_srp {s : State} {p : Byte} {r : ReadReg} {ks : List Kont} {rest : List Task} (idle : Idle s)
    (hp : s.host.prog = ⟨setReadPointerOp p, ks⟩ :: rest) (hr : pointerOf p = some r) :
    ∃ u, Goes 1 s (unwind rest ks (.bool true) u) ∧ u.dev = { s.dev with readPtr := r }
      ∧ u.host = { s.host with reply := .ack } ∧ EnvGrows s u := by
  have ran := execCommand_ok (bytes := [0xE1#8, p]) (cmd := 0xE1#8) (gated := false) (redraw := false) idle.1 nofun
    (srpEffect_of_some hr _) idle.1.1
  have grows : EnvGrows s (s.issue (.write [0xE1#8, p])) := ⟨[sent s _], rfl, rfl, rfl, rfl⟩
  exact ⟨_, goes_write (i := .srp p) idle hp rfl ran idle.1.1 rfl grows, rfl, rfl, grows⟩

/-! ## readStatus and busyWait (R202, R203) -/

/-- An idle device shows its stored status byte, LL being the sample (R25, R39). -/
theorem exec_rd_of_idle_status {s : State} (idle : Idle s) (hp : s.dev.readPtr = .status) :
    ∃ t, exec .rd s = .next t ∧ t.dev = { s.dev with ll := t.dev.ll }
      ∧ t.host = { s.host with reply := .data t.dev.statusByte } ∧ EnvGrows s t := by
  obtain ⟨t, u, ran, hu, ht, hh, henv, -⟩ := exec_rd_of_status idle.1 hp
  rw [shownStatus_of_idle u (by rw [hu]; exact idle.2.1), ← ht] at hh
  exact ⟨t, ran, by rw [ht]; exact hu, hh, _, henv⟩

/-- What a status read leaves: LL and the read pointer aside the device is as it was, and the host has the status
byte. -/
def StatusRead (s u : State) : Prop :=
  ∃ l prog, u.dev = { s.dev with ll := l, readPtr := .status }
    ∧ u.host = { s.host with reply := .data u.dev.statusByte, prog := prog }

/-- After a status read the host goes on with an idle device. -/
theorem idle_of_statusRead {s u : State} {k : Nat} {prog : List Task} (idle : Idle s) (read : StatusRead s u)
    (went : Goes k s (u.withProg prog)) : Idle (u.withProg prog) := by
  obtain ⟨_, _, hd, -⟩ := read
  exact idle_of_envGrows idle went.2 (by rw [withProg_dev, hd]) (by rw [withProg_dev, hd]) (by rw [withProg_dev, hd])

/-- readStatus on an idle device: the call, SRP and the read. -/
theorem goes_readStatus {s : State} {ks : List Kont} {rest : List Task} (idle : Idle s)
    (hp : s.host.prog = ⟨.call .readStatus, ks⟩ :: rest) :
    ∃ u, Goes 3 s (unwind rest ks (.pair true u.dev.statusByte) u) ∧ StatusRead s u := by
  have call := goes_start idle hp rfl
  obtain ⟨v, srp, hvd, hvh, grows⟩ :=
    goes_srp (idle_withProg idle (⟨setReadPointerOp 0xF0#8, .statusPointer :: ks⟩ :: rest)) rfl rfl
  rw [unwind_statusPointer_of_ack] at srp
  have idle' : Idle v := idle_of_envGrows idle grows (by rw [hvd]; rfl) (by rw [hvd]; rfl) (by rw [hvd]; rfl)
  obtain ⟨u, ran, hud, huh, grows'⟩ :=
    exec_rd_of_idle_status (idle_withProg idle' (⟨.txn .read, .statusRead :: ks⟩ :: rest)) (by simp [hvd])
  have read := goes_read (idle_withProg idle' _) rfl ran (by rw [hud]; exact idle'.1.1) huh grows'
  rw [unwind_statusRead_of_data] at read
  refine ⟨u, goes_trans (goes_trans call srp) read, u.dev.ll, u.host.prog, ?_, ?_⟩
  · rw [hud]; simp [hvd]
  · rw [huh]; simp [hvh]

/-- busyWait on an idle device: the first poll ends it. -/
theorem goes_busyWait {s : State} {ks : List Kont} {rest : List Task} (idle : Idle s)
    (hp : s.host.prog = ⟨.call .busyWait, ks⟩ :: rest) :
    ∃ u, Goes 4 s (unwind rest ks (.pair true u.dev.statusByte) u) ∧ StatusRead s u := by
  have call := goes_start idle hp rfl
  obtain ⟨u, poll, read⟩ :=
    goes_readStatus (idle_withProg idle (⟨.call .readStatus, .pollStatus :: ks⟩ :: rest)) rfl
  have ready : u.dev.statusByte.getLsbD 0 = false := by
    obtain ⟨_, _, hd, -⟩ := read
    obtain ⟨-, -, -, -, -, -, -, busy⟩ := statusByte_bits u.dev
    rw [busy, hd, withProg_dev, idle.2.1]
    rfl
  rw [unwind_of_ret (resume_pollStatus_of_ready ready u)] at poll
  exact ⟨u, goes_trans call poll, read⟩

/-! ## wireWriteByte (R207) -/

/-- Settles O56: busyWait ends ready, and the acknowledged 1WWB leaves its byte in flight. -/
theorem wireWriteByteLeavesByteInFlight : Obligations.WireWriteByteLeavesByteInFlight := by
  intro s b rest live quiet hp
  have call := goes_start ⟨live, quiet⟩ hp rfl
  have idle1 : Idle (s.withProg (⟨.call .busyWait, [.writeByteReady b]⟩ :: rest)) := ⟨live, quiet⟩
  obtain ⟨u, wait, read⟩ := goes_busyWait idle1 rfl
  rw [unwind_writeByteReady_of_ready] at wait
  have idle2 := idle_of_statusRead idle1 read wait
  obtain ⟨_, _, hud, huh⟩ := read
  obtain ⟨t, ran, htd, hth, grows, -⟩ := w1wbStartsWrite _ b idle2.1 idle2.2
  have write := goes_write (bytes := [0xA5#8, b]) idle2 rfl rfl ran (by rw [htd]; exact idle2.1.1) hth ⟨_, grows⟩
  rw [unwind_writeByteSent_of_ack] at write
  refine ⟨_, (goes_trans (goes_trans call wait) write).1, ?_, ?_⟩
  · rw [unwind_nil_dev, htd]
    simp [hud]
  · simp [hth, huh]

/-! ## wireReset (R204) -/

theorem unwind_wireResetDone_of_presence {b : Byte} (hb : b.getLsbD 1 = true) (rest : List Task) (ks : List Kont)
    (s : State) : unwind rest (.wireResetDone :: ks) (.pair true b) s = unwind rest ks (.bool true) s := by
  refine unwind_of_ret ?_ rest ks
  simp only [resume, orFail, Ret.ok, Ret.value, hb, Bool.and_true, if_true]

theorem unwind_wireResetDone_of_absence {b : Byte} (hb : b.getLsbD 1 = false) (rest : List Task) (ks : List Kont)
    (s : State) :
    unwind rest (.wireResetDone :: ks) (.pair true b) s = unwind rest ks (.bool false) s.enterError := by
  refine unwind_of_ret ?_ rest ks
  simp only [resume, orFail, failWith, Ret.ok, Ret.value, hb, Bool.and_false, Bool.false_eq_true, if_false]

/-- The first half of wireReset on an idle device: busyWait ends ready and 1WRS is accepted. -/
theorem goes_wireReset_sent {s : State} {ks : List Kont} {rest : List Task} (idle : Idle s)
    (hp : s.host.prog = ⟨.call .wireReset, ks⟩ :: rest) :
    ∃ u : State, Goes 6 s (u.withProg (⟨.call .busyWait, .wireResetDone :: ks⟩ :: rest)) ∧ u.dev.fault = none
      ∧ u.dev.pending = some (.reset1W s.dev.channel) ∧ u.dev.settling = false ∧ u.host.opState = s.host.opState := by
  have call := goes_start idle hp rfl
  have idle1 := idle_withProg idle (⟨.call .busyWait, .wireResetReady :: ks⟩ :: rest)
  obtain ⟨v, wait, read⟩ := goes_busyWait idle1 rfl
  rw [unwind_wireResetReady_of_ready] at wait
  have idle2 := idle_of_statusRead idle1 read wait
  obtain ⟨_, _, hvd, hvh⟩ := read
  obtain ⟨u, ran, hud, huh, grows, -⟩ := w1rsStartsReset _ idle2.1 idle2.2
  have unfaulted : u.dev.fault = none := by rw [hud]; exact idle2.1.1
  have send := goes_write (bytes := [0xB4#8]) idle2 rfl rfl ran unfaulted huh ⟨_, grows⟩
  rw [unwind_wireResetSent_of_ack] at send
  refine ⟨u, goes_trans (goes_trans call wait) send, unfaulted, ?_, ?_, ?_⟩
  · rw [hud]; simp [hvd]
  · rw [hud]; exact idle2.2.2
  · rw [huh]; simp [hvh]

/-- The second half, once the operation has completed: busyWait ends ready, and PPD of its byte is the result. -/
theorem goes_wireReset_done {s : State} {rest : List Task} (idle : Idle s)
    (hp : s.host.prog = ⟨.call .busyWait, [.wireResetDone]⟩ :: rest) :
    ∃ t, Goes 4 s t ∧ t.dev.pending = none ∧ t.dev.ppd = s.dev.ppd ∧ t.dev.sd = s.dev.sd ∧ t.host.prog = rest
      ∧ t.host.result = some (.bool s.dev.ppd)
      ∧ t.host.opState = if s.dev.ppd then s.host.opState else .error := by
  obtain ⟨u, wait, _, _, hud, huh⟩ := goes_busyWait idle hp
  have shown : u.dev.statusByte.getLsbD 1 = s.dev.ppd := by
    obtain ⟨-, -, -, -, -, -, ppd, -⟩ := statusByte_bits u.dev
    rw [ppd, hud]
  refine ⟨_, wait, ?_⟩
  cases presence : s.dev.ppd with
  | true =>
    rw [unwind_wireResetDone_of_presence (shown.trans presence)]
    simp [hud, huh, idle.2.1, presence]
  | false =>
    rw [unwind_wireResetDone_of_absence (shown.trans presence)]
    simp [hud, huh, idle.2.1, presence]

/-- Between the halves: the placed engine completes the 1-Wire reset with what the bus answers. -/
theorem step_completesReset {s : State} {ch : Channel} {more : List Agent} (live : Live s)
    (hp : s.dev.pending = some (.reset1W ch)) (settled : s.dev.settling = false) (enabled : hostEnabled s = true)
    (hs : s.env.sched = .engine :: more) :
    ∃ t, step s = .next t ∧ Idle t ∧ t.host = s.host ∧ .busReset ch t.dev.ppd t.dev.sd ∈ t.env.history := by
  obtain ⟨p, q, henv, hh, hd, -⟩ := resetCompletionWritesPresence { s with env.sched := more } ch hp
  have busy : engineEnabled s = true := engineEnabled_of_pending (by simp [hp])
  refine ⟨_, step_of_engineFirst live.1 busy enabled hs, ⟨?_, ?_⟩, hh, ?_⟩
  · exact live_of_envGrows (s := { s with env.sched := more }) live ⟨_, henv⟩ (by rw [hd]; exact live.1)
  · rw [Quiet, hd]; exact ⟨rfl, settled⟩
  · obtain ⟨-, -, -, hist⟩ := henv
    rw [hd, hist]
    exact List.mem_cons_self

/-- Settles O55: PPD, which the second half returns, is the presence the bus answered between the halves. -/
theorem wireResetReportsPresence : Obligations.WireResetReportsPresence := by
  intro s more rest live quiet hs hp
  obtain ⟨u, ⟨run6, grows⟩, hf, hpend, settled, hop⟩ := goes_wireReset_sent ⟨live, quiet⟩ hp
  have sched : u.env.sched = .engine :: more := by
    obtain ⟨-, -, -, same, -⟩ := grows
    exact same.trans hs
  obtain ⟨v, completes, idle, hvh, answered⟩ :=
    step_completesReset (s := u.withProg _) (live_of_envGrows live grows hf) hpend settled rfl sched
  obtain ⟨t, ⟨run4, grows'⟩, hn, hppd, hsd, hprog, hres, hstate⟩ := goes_wireReset_done idle (by rw [hvh]; rfl)
  refine ⟨t, v.dev.ppd, v.dev.sd, (run_add run6).trans ((run_succ completes).trans run4),
    mem_history_of_envGrows grows' answered, hn, hppd, hsd, hprog, hres, ?_⟩
  rw [hstate, hvh, withProg_host, hop]

/-! ## reset, begin and wakeUp (R221, R222) -/

/-- The device as a device reset leaves it, where LL and the read pointer have been drawn (R120). -/
def resetDevice (ll : Bool) (ptr : ReadReg) : Device :=
  { pending := none, ppd := false, sd := false, ll := ll, rst := true, sbr := false, tsb := false, dir := false
    cfg := 0#4, channel := 0, readPtr := ptr, readData := none, settling := false, fault := none }

/-- Its status byte is the post-reset one, whatever the line level. -/
theorem statusByte_resetDevice (ll : Bool) (ptr : ReadReg) :
    (resetDevice ll ptr).statusByte &&& postResetMask = postResetValue := by
  cases ll <;> cases ptr <;> decide

theorem unwind_resetStatus_of_passed {b : Byte} (hb : b &&& postResetMask = postResetValue) (rest : List Task)
    (ks : List Kont) (s : State) :
    unwind rest (.resetStatus :: ks) (.pair true b) s = unwind rest ks (.bool true) s.enterIdle := by
  refine unwind_of_ret ?_ rest ks
  simp only [resume, orFail, Ret.value, hb, beq_self_eq_true, if_true]

/-- A read on an idle device, whatever the read pointer. -/
theorem goes_rd {s : State} {ks : List Kont} {rest : List Task} (idle : Idle s)
    (hp : s.host.prog = ⟨.txn .read, ks⟩ :: rest) :
    ∃ u b l, Goes 1 s (unwind rest ks (.pair true b) u) ∧ u.dev = { s.dev with ll := l }
      ∧ u.host = { s.host with reply := .data b } := by
  obtain ⟨u, b, ran, hd, -, hh⟩ := rdAlwaysAnswers s idle.1
  obtain ⟨-, -, ⟨new, grows, -⟩, -⟩ := exec_cases ran
  exact ⟨u, b, _, goes_read idle hp ran (by rw [hd]; exact idle.1.1) hh ⟨new, grows⟩, hd, hh⟩

/-- Settles O52: DRST leaves a device whose status byte is the post-reset one, and neither the probe nor readStatus
changes more than LL and the read pointer. -/
theorem resetSequenceSucceeds : Obligations.ResetSequenceSucceeds := by
  intro s p rest live quiet hmem hp
  have start : enter p s = startReset s := by
    simp only [List.mem_cons, List.not_mem_nil, or_false] at hmem
    rcases hmem with rfl | rfl | rfl <;> rfl
  have call := goes_start ⟨live, quiet⟩ hp start
  have idle1 : Idle (s.withProg (⟨writeCommandOp 0xF0#8, [.resetSent]⟩ :: rest)) := ⟨live, quiet⟩
  obtain ⟨u, ran, hud, huh, grows, -⟩ := drstResetsDevice _ idle1.1
  change u.dev = resetDevice u.dev.ll u.dev.readPtr at hud
  have drst := goes_write (bytes := [0xF0#8]) idle1 rfl rfl ran (by rw [hud]; rfl) huh ⟨_, grows⟩
  rw [unwind_resetSent_of_ack] at drst
  have idle2 : Idle (u.withProg (⟨.txn .read, [.resetProbe]⟩ :: rest)) :=
    ⟨live_of_envGrows live drst.2 (by rw [withProg_dev, hud]; rfl), by rw [Quiet, withProg_dev, hud]; exact ⟨rfl, rfl⟩⟩
  obtain ⟨v, b, l, probe, hvd, hvh⟩ := goes_rd idle2 rfl
  rw [unwind_resetProbe_of_data] at probe
  have idle3 : Idle (v.withProg (⟨.call .readStatus, [.resetStatus]⟩ :: rest)) :=
    idle_of_envGrows idle2 probe.2 (by rw [withProg_dev, hvd]) (by rw [withProg_dev, hvd]) (by rw [withProg_dev, hvd])
  obtain ⟨w, status, m, prog, hwd, hwh⟩ := goes_readStatus idle3 rfl
  have reset : w.dev = resetDevice m .status := by
    rw [hwd, withProg_dev, hvd, withProg_dev, hud]
    rfl
  have passed : w.dev.statusByte &&& postResetMask = postResetValue := by
    rw [reset]
    exact statusByte_resetDevice m .status
  rw [unwind_resetStatus_of_passed passed] at status
  refine ⟨_, w.dev.statusByte, (goes_trans (goes_trans (goes_trans call drst) probe) status).1, ?_, ?_⟩
  · rw [unwind_nil_dev, enterIdle_dev, reset]
    rfl
  · simp [hwh, hvh, huh]

/-! ## selectChannel (R211) -/

theorem channelOfByte_ofNat (n : Channel) : channelOfByte (BitVec.ofNat 8 n.val) = some n := by
  revert n; decide

/-- The readback table tells the channels apart (R170). -/
theorem chselReadback_injective : ∀ m n : Channel, chselReadback m = chselReadback n → m = n := by decide

theorem unwind_selectRead_of_match (rest : List Task) (ks : List Kont) (n : Channel) (s : State) :
    unwind rest (.selectRead n :: ks) (.pair true (chselReadback n)) s =
      unwind rest ks (.bool true) { s with host.curChannel := BitVec.ofNat 8 n.val } := by
  refine unwind_of_ret ?_ rest ks
  simp only [resume, orFail, Ret.ok, Ret.value, beq_self_eq_true, Bool.and_self, if_true]

theorem unwind_selectRead_of_mismatch {m n : Channel} (h : m ≠ n) (rest : List Task) (ks : List Kont) (s : State) :
    unwind rest (.selectRead n :: ks) (.pair true (chselReadback m)) s =
      unwind rest ks (.bool false) s.enterError := by
  refine unwind_of_ret ?_ rest ks
  have differ : (chselReadback m == chselReadback n) = false :=
    beq_false_of_ne fun e => h (chselReadback_injective m n e)
  simp only [resume, orFail, failWith, Ret.ok, Ret.value, differ, Bool.and_false, Bool.false_eq_true, if_false]

/-- An idle device answers the readback of the selected channel (R174). -/
theorem exec_rd_of_idle_channel {s : State} (idle : Idle s) (hp : s.dev.readPtr = .channel) :
    exec .rd s = .next
      { s.issue .read with host := { s.host with reply := .data (chselReadback s.dev.channel) } } := by
  have read : (s.issue .read).memRead = (chselReadback s.dev.channel, s.issue .read) :=
    (memRead_of_channel (s := s.issue .read) hp).trans (readChannel_of_settled (s := s.issue .read) idle.2.2)
  exact exec_rd_of_memRead idle.1 read

/-- Settles O51: the byte answered is the readback of the selected channel, which is that of n for n alone. -/
theorem selectReadbackDecides : Obligations.SelectReadbackDecides := by
  intro s n rest live quiet hptr hp
  have idle : Idle s := ⟨live, quiet⟩
  have read := step_of_exec idle hp (i := .rd) rfl (exec_rd_of_idle_channel idle hptr) live.1 rfl
  change step s = .next (unwind rest [.selectRead n] (.pair true (chselReadback s.dev.channel)) _) at read
  by_cases h : s.dev.channel = n
  · rw [h, unwind_selectRead_of_match] at read
    exact ⟨_, read, rfl, by simp [h], fun _ => ⟨rfl, rfl⟩, fun hn => absurd h hn⟩
  · rw [unwind_selectRead_of_mismatch h] at read
    exact ⟨_, read, rfl, by simp [h], fun hn => absurd hn h, fun _ => ⟨rfl, rfl⟩⟩

/-- CHSL of a channel's code on an idle device, and the settle step for which DELAY settle waits (R175, R211). -/
theorem goes_chsl_settled {s : State} {n : Channel} {ks : List Kont} {rest : List Task} (idle : Idle s)
    (hp : s.host.prog = ⟨.txn (.write [0xC3#8, chselCode n]), .selectSent n :: ks⟩ :: rest) :
    ∃ (t : State) (ptr : ReadReg), Goes 2 s t ∧ Idle t
      ∧ t.dev = { s.dev with channel := n, settling := false, readPtr := ptr }
      ∧ t.host = { s.host with reply := .ack, prog := ⟨.delay .settle, .selectSettled n :: ks⟩ :: rest } := by
  have decoded : decode (.write [0xC3#8, chselCode n]) = .ok (.chsl (chselCode n)) := rfl
  obtain ⟨u, ran, hud, huh, grows, -⟩ := execCommand_redraws (cmd := 0xC3#8) (bytes := [0xC3#8, chselCode n]) idle.1
    (fun _ => idle.2) (chslEffect_of_some (channelOf_chselCode n) _) idle.1.1 rfl rfl
  have unfaulted : u.dev.fault = none := by rw [hud]; exact idle.1.1
  have chsl := goes_write idle hp decoded ran unfaulted huh ⟨_, grows⟩
  rw [unwind_selectSent_of_ack] at chsl
  have pending : u.dev.pending = none := by rw [hud]; exact idle.2.1
  have settling : u.dev.settling = true := by rw [hud]
  have waits := step_of_engineOnly (s := u.withProg (⟨.delay .settle, .selectSettled n :: ks⟩ :: rest))
    unfaulted (by simp [engineEnabled, settling]) (by simp [hostEnabled, settling])
  rw [engineStep_of_idle (by exact pending)] at waits
  have settle := goes_of_step waits ⟨[], rfl, rfl, rfl, rfl⟩
  refine ⟨_, u.dev.readPtr, goes_trans chsl settle, ⟨?_, pending, rfl⟩, ?_, ?_⟩
  · exact live_of_envGrows idle.1 (goes_trans chsl settle).2 unfaulted
  · rw [settle_dev, withProg_dev, hud]; rfl
  · rw [settle_host, withProg_host, huh]

/-- The second half of selectChannel: the delay, SRP and the readback of n. -/
theorem goes_select_readback {s : State} {n : Channel} {rest : List Task} (idle : Idle s) (hn : s.dev.channel = n)
    (hp : s.host.prog = ⟨.delay .settle, [.selectSettled n]⟩ :: rest) :
    ∃ t, Goes 3 s t ∧ t.dev = { s.dev with readPtr := .channel }
      ∧ t.host =
        { s.host with
          curChannel := BitVec.ofNat 8 n.val
          reply := .data (chselReadback n)
          result := some (.bool true)
          prog := rest } := by
  have delay := goes_of_step (step_of_delay idle.1.1 idle.2 hp) ⟨[.delay .settle], rfl, rfl, rfl, rfl⟩
  rw [unwind_selectSettled] at delay
  have idle1 : Idle ((s.record (.delay .settle)).withProg (⟨setReadPointerOp 0xD2#8, [.selectPointer n]⟩ :: rest)) := idle
  obtain ⟨u, srp, hud, huh, grows⟩ := goes_srp idle1 rfl (r := .channel) rfl
  rw [unwind_selectPointer_of_ack] at srp
  have idle2 : Idle (u.withProg (⟨.txn .read, [.selectRead n]⟩ :: rest)) :=
    idle_of_envGrows idle1 srp.2 (by rw [withProg_dev, hud]) (by rw [withProg_dev, hud]) (by rw [withProg_dev, hud])
  have selected : u.dev.channel = n := by rw [hud]; exact hn
  have read := goes_read idle2 rfl (exec_rd_of_idle_channel idle2 (by rw [withProg_dev, hud])) idle2.1.1 rfl
    ⟨[sent u .read], rfl, rfl, rfl, rfl⟩
  rw [withProg_dev, selected, unwind_selectRead_of_match] at read
  refine ⟨_, goes_trans (goes_trans delay srp) read, ?_, ?_⟩
  · simp [hud]
  · simp [huh]

/-- Settles O50: CHSL selects n, the settle step ends the switch, and the readback is that of n. -/
theorem selectChannelSucceeds : Obligations.SelectChannelSucceeds := by
  intro s n rest live quiet hp
  have start : enter (.selectChannel (BitVec.ofNat 8 n.val)) s =
      (s, .run (.txn (.write [0xC3#8, chselCode n])) [.selectSent n]) := by
    rw [enter, channelOfByte_ofNat]
  have call := goes_start ⟨live, quiet⟩ hp start
  have idle1 : Idle (s.withProg (⟨.txn (.write [0xC3#8, chselCode n]), [.selectSent n]⟩ :: rest)) := ⟨live, quiet⟩
  obtain ⟨u, ptr, chsl, idle2, hud, huh⟩ := goes_chsl_settled idle1 rfl
  obtain ⟨t, readback, htd, hth⟩ := goes_select_readback (n := n) idle2 (by rw [hud]) (by rw [huh])
  refine ⟨t, (goes_trans (goes_trans call chsl) readback).1, ?_, ?_⟩
  · rw [htd, hud]; rfl
  · rw [hth, huh]; rfl

end Sys2Proof.Machine

namespace Sys2Proof.Machine

/-! ## startTemperatureConversion where it refuses (R241) -/

theorem enter_startTemperatureConversion_of_error {s : State} (ch : Byte) (h : s.host.opState = .error) :
    enter (.startTemperatureConversion ch) s = (s, .ret (.bool false)) := by
  rw [enter, if_pos h]

theorem enter_startTemperatureConversion_of_not_error {s : State} (ch : Byte) (h : s.host.opState ≠ .error) :
    enter (.startTemperatureConversion ch) s = (s, .run (.call (.selectChannel ch)) [.startSelected]) := by
  rw [enter, if_neg h]

theorem enter_selectChannel_of_large {n : Byte} (h : 7 < n.toNat) (s : State) :
    enter (.selectChannel n) s = (s, .ret (.bool false)) := by
  rw [enter, channelOfByte_of_large h]

theorem unwind_startSelected_of_failure (rest : List Task) (ks : List Kont) (s : State) :
    unwind rest (.startSelected :: ks) (.bool false) s = unwind rest ks (.bool false) s := rfl

/-- Settles O57: from ERROR the procedure returns where it starts; for a channel above 7 the selectChannel it calls does,
and its failure goes up. -/
theorem startRefusedWithoutTraffic : Obligations.StartRefusedWithoutTraffic := by
  intro s ch rest hf hm hp
  have call := step_of_call_of_hostMoves hf hm hp
  refine ⟨fun he => ?_, fun he hch => ?_, afterChoice_dev s, afterChoice_history s⟩
  · rw [call, enter_startTemperatureConversion_of_error ch (by rw [afterChoice_host, he]), advance, unwind,
      afterChoice_host]
  · rw [enter_startTemperatureConversion_of_not_error ch (by rwa [afterChoice_host])] at call
    change step s = .next (s.afterChoice.withProg (⟨.call (.selectChannel ch), [.startSelected]⟩ :: rest)) at call
    refine ⟨_, call, by simp, rfl, fun hm1 => ?_⟩
    rw [step_of_call_of_hostMoves (by simp [hf]) hm1 rfl, enter_selectChannel_of_large hch, advance,
      unwind_startSelected_of_failure, unwind]
    simp

/-! ## checkConversionStatus (R242) -/

/-- A reading of the clock: the clock moves on, the reading is its low 32 bits, and it stands in the history (R46). -/
theorem now_reads (s : State) :
    ∃ c, s.host.clock ≤ c ∧ s.now.1 = BitVec.ofNat 32 c ∧ s.now.2.host = { s.host with clock := c }
      ∧ EnvAdds s s.now.2 [.clock c] :=
  ⟨s.host.clock + s.draw.1, Nat.le_add_right _ _, rfl, by simp [State.now], by simp [State.now, EnvAdds]⟩

theorem enter_checkConversionStatus_of_elapsed {s : State} (h : s.host.opState = .convertingTemperature)
    (elapsed : 750 ≤ (s.now.1 - s.host.convStart).toNat) :
    enter .checkConversionStatus s = (s.now.2.enterIdle, .ret (.bool true)) := by
  simp only [enter, if_pos h, conversionMs, ge_iff_le, if_pos elapsed]

theorem enter_checkConversionStatus_of_early {s : State} (h : s.host.opState = .convertingTemperature)
    (early : (s.now.1 - s.host.convStart).toNat < 750) :
    enter .checkConversionStatus s = (s.now.2, .ret (.bool false)) := by
  simp only [enter, if_pos h, conversionMs, ge_iff_le, if_neg (Nat.not_le_of_lt early)]

theorem enter_checkConversionStatus_of_not_converting {s : State} (h : s.host.opState ≠ .convertingTemperature) :
    enter .checkConversionStatus s = (s, .ret (.bool false)) := by
  rw [enter, if_neg h]

/-- Settles O58: the procedure returns where it starts, and the one reading of the clock decides what. -/
theorem checkConversionComparesTime : Obligations.CheckConversionComparesTime := by
  intro s rest hf hm hp
  have call := step_of_call_of_hostMoves hf hm hp
  refine ⟨fun hn => ?_, fun hc => ?_, afterChoice_dev s, afterChoice_history s⟩
  · rw [call, enter_checkConversionStatus_of_not_converting (by rwa [afterChoice_host]), advance, unwind,
      afterChoice_host]
  · have converting : s.afterChoice.host.opState = .convertingTemperature := by rw [afterChoice_host, hc]
    obtain ⟨c, le, reading, hh, henv⟩ := now_reads s.afterChoice
    rw [afterChoice_host] at le hh
    have difference : (s.afterChoice.now.1 - s.afterChoice.host.convStart).toNat =
        (BitVec.ofNat 32 c - s.host.convStart).toNat := by
      rw [reading, afterChoice_host]
    rcases Nat.lt_or_ge (BitVec.ofNat 32 c - s.host.convStart).toNat 750 with early | elapsed
    · rw [enter_checkConversionStatus_of_early converting (difference ▸ early), advance] at call
      refine ⟨_, c, call, le, by simp, henv, fun elapsed => absurd elapsed (Nat.not_le_of_lt early), fun _ => ?_⟩
      simp [hh]
    · rw [enter_checkConversionStatus_of_elapsed converting (difference ▸ elapsed), advance] at call
      refine ⟨_, c, call, le, by simp, henv, fun _ => ?_, fun early => absurd elapsed (Nat.not_le_of_lt early)⟩
      simp [hh]

/-! ## The last host step of a conversion start, a scratchpad read and a temperature read (R241, R243, R244) -/

/-- The accepted convert-T byte: the clock is read, and the conversion runs. -/
theorem unwind_startConvert_host (rest : List Task) (s : State) :
    ∃ c, s.host.clock ≤ c
      ∧ (unwind rest [.startConvert] (.bool true) s).host =
        { s.host with
          clock := c
          convStart := BitVec.ofNat 32 c
          opState := .convertingTemperature
          result := some (.bool true)
          prog := rest } := by
  obtain ⟨c, le, reading, hh, -⟩ := now_reads s
  refine ⟨c, le, ?_⟩
  simp [unwind, resume, Ret.ok, reading, hh]

theorem unwind_readByteFetched_of_data (rest : List Task) (ks : List Kont) (b : Byte) (s : State) :
    unwind rest (.readByteFetched :: ks) (.pair true b) s = unwind rest ks (.pair true b) s := rfl

/-- The ninth byte ends a scratchpad read. -/
theorem unwind_scratchByte_of_ninth {got : List Byte} (h : got.length = 8) (rest : List Task) (ks : List Kont) (b : Byte)
    (s : State) :
    unwind rest (.scratchByte got :: ks) (.pair true b) s = unwind rest ks (.bytes (got ++ [b])) s := by
  refine unwind_of_ret ?_ rest ks
  simp [resume, nextScratchByte, Ret.ok, Ret.value, h]

theorem unwind_scratchOut_host (rest : List Task) (bs : List Byte) (s : State) :
    (unwind rest [.scratchOut] (.bytes bs) s).host =
      { s.host with scratchOut := bs, result := some (.bool true), prog := rest } := rfl

theorem unwind_temperatureScratch_host (rest : List Task) (b0 b1 : Byte) (more : List Byte) (s : State) :
    (unwind rest [.temperatureScratch] (.bytes (b0 :: b1 :: more)) s).host =
      { s.host with tempOut := decodeTemperature b0 b1, result := some (.bool true), prog := rest } := rfl

/-- The step that fetches the ninth byte of a scratchpad read: the nine bytes go up. -/
theorem step_of_ninthByte {s : State} {got : List Byte} {b : Byte} {ks : List Kont} {rest : List Task} (live : Live s)
    (hm : HostMoves s) (hptr : s.dev.readPtr = .readData) (hb : s.dev.readData = some b)
    (hn : ∀ ch, s.dev.pending ≠ some (.readByte ch)) (hl : got.length = 8)
    (hp : s.host.prog = ⟨.txn .read, .readByteFetched :: .scratchByte got :: ks⟩ :: rest) :
    ∃ u, step s = .next (unwind rest ks (.bytes (got ++ [b])) u) ∧ u.host = { s.host with reply := .data b } := by
  obtain ⟨stored, -⟩ := rdReadDataReturnsByte s.afterChoice (live_afterChoice live) (by rwa [afterChoice_dev])
  obtain ⟨u, ran, hd, hh⟩ := stored b (by rwa [afterChoice_dev]) (by rwa [afterChoice_dev])
  rw [afterChoice_host] at hh
  have read := step_of_exec_of_hostMoves live.1 hm hp (i := .rd) rfl ran (by rw [hd, afterChoice_dev]; exact live.1)
    (r := .data b) (by rw [hh])
  rw [replyRet, unwind_readByteFetched_of_data, unwind_scratchByte_of_ninth hl] at read
  exact ⟨u, read, hh⟩

/-- Settles O59: the acknowledgement, or the ninth byte, goes up to the procedure's last position, which writes its
output. -/
theorem successWritesOutputs : Obligations.SuccessWritesOutputs := by
  intro s rest live
  refine ⟨fun quiet hp => ?_, fun got b hm hptr hb hn hl => ⟨fun hp => ?_, ?_⟩⟩
  · obtain ⟨u, ran, hd, hh, -⟩ := w1wbStartsWrite s 0x44#8 live quiet
    have sent := step_of_exec ⟨live, quiet⟩ hp (i := .w1wb 0x44#8) rfl ran (by rw [hd]; exact live.1) hh
    rw [replyRet, unwind_writeByteSent_of_ack] at sent
    obtain ⟨c, le, hout⟩ := unwind_startConvert_host rest u
    rw [hh] at le hout
    exact ⟨_, c, sent, le, hout⟩
  · obtain ⟨u, read, hh⟩ := step_of_ninthByte live hm hptr hb hn hl hp
    exact ⟨_, read, by rw [unwind_scratchOut_host, hh]⟩
  · rintro b0 b1 more rfl hp
    obtain ⟨u, read, hh⟩ := step_of_ninthByte live hm hptr hb hn hl hp
    exact ⟨_, read, by rw [List.cons_append, List.cons_append, unwind_temperatureScratch_host, hh]⟩

/-! ## The temperature decode (R245, R246) -/

/-- The two bytes are a two's-complement number, byte 0 the low one. -/
theorem rawTemperature_eq (b0 b1 : Byte) :
    rawTemperature b0 b1 = ((b1.toNat * 256 + b0.toNat : ℕ) : ℤ) - (if 128 ≤ b1.toNat then 65536 else 0) := by
  have h0 := b0.isLt
  have word : (b1 ++ b0).toNat = b1.toNat * 256 + b0.toNat := by
    rw [BitVec.toNat_append, ← Nat.shiftLeft_add_eq_or_of_lt h0, Nat.shiftLeft_eq]
  rw [rawTemperature, BitVec.toInt_eq_toNat_cond, word]
  split_ifs <;> omega

/-- The value of a pattern with a sign, a biased exponent that is not 0 and a fraction. -/
theorem binary32Value_ofNat {p : Prop} [Decidable p] {x f : ℕ} (hx : 0 < x) (hx8 : x < 256) (hf : f < 2 ^ 23) :
    binary32Value (BitVec.ofNat 32 ((if p then 2 ^ 31 else 0) + x * 2 ^ 23 + f)) =
      (if p then -1 else 1) * ((2 ^ 23 + f : ℕ) : ℚ) * 2 ^ ((x : ℤ) - 150) := by
  set w := BitVec.ofNat 32 ((if p then 2 ^ 31 else 0) + x * 2 ^ 23 + f) with hw
  have value : w.toNat = (if p then 2 ^ 31 else 0) + x * 2 ^ 23 + f := by
    rw [hw, BitVec.toNat_ofNat, Nat.mod_eq_of_lt]
    split_ifs <;> omega
  have nonzero : w ≠ 0#32 := fun h => by
    rw [h, BitVec.toNat_ofNat] at value
    omega
  have sign : w.getLsbD 31 = decide p := by
    rw [BitVec.getLsbD, Nat.testBit_eq_decide_div_mod_eq, value]
    split_ifs with h
    · simp [h]; omega
    · simp [h]; omega
  have exponent : (w.extractLsb' 23 8).toNat = x := by
    rw [BitVec.extractLsb'_toNat, Nat.shiftRight_eq_div_pow, value]
    split_ifs <;> omega
  have fraction : (w.extractLsb' 0 23).toNat = f := by
    rw [BitVec.extractLsb'_toNat, Nat.shiftRight_zero, value]
    split_ifs <;> omega
  rw [binary32Value, if_neg nonzero, sign, exponent, fraction]
  simp

theorem leadingBit_scaled {e : ℕ} (he : e ≤ 23) : 2 ^ e * 2 ^ (23 - e) = 2 ^ 23 := by
  rw [← pow_add, Nat.add_sub_cancel' he]

/-- A number whose leading bit is 2^e, shifted up to a 24-bit significand: its leading bit is the implicit one (R246). -/
theorem significand_eq {m e : ℕ} (he : e ≤ 23) (lower : 2 ^ e ≤ m) :
    2 ^ 23 + (m - 2 ^ e) * 2 ^ (23 - e) = m * 2 ^ (23 - e) := by
  rw [← leadingBit_scaled he, ← Nat.add_mul, Nat.add_sub_cancel' lower]

/-- The bits below the leading one fit in the fraction. -/
theorem fraction_lt {m e : ℕ} (he : e ≤ 23) (upper : m < 2 ^ (e + 1)) : (m - 2 ^ e) * 2 ^ (23 - e) < 2 ^ 23 := by
  have below : m - 2 ^ e < 2 ^ e := by have := Nat.two_pow_pos e; rw [pow_succ] at upper; omega
  rw [← leadingBit_scaled he]
  exact Nat.mul_lt_mul_of_pos_right below (Nat.two_pow_pos _)

/-- The exponent of that significand: its units are sixteenths. -/
theorem significand_scale {e : ℕ} (he : e ≤ 23) : (2 : ℚ) ^ (23 - e) * 2 ^ (((e + 123 : ℕ) : ℤ) - 150) = 1 / 16 := by
  have exponent : ((23 - e : ℕ) : ℤ) + (((e + 123 : ℕ) : ℤ) - 150) = -4 := by omega
  rw [← zpow_natCast, ← zpow_add₀ two_ne_zero, exponent]
  norm_num

theorem sign_mul_natAbs (n : ℤ) : (if n < 0 then (-1 : ℚ) else 1) * (n.natAbs : ℚ) = n := by
  rw [Nat.cast_natAbs]
  split_ifs with neg
  · rw [abs_of_neg neg, Int.cast_neg, neg_one_mul, neg_neg]
  · rw [abs_of_nonneg (not_lt.mp neg), one_mul]

/-- Nothing is rounded (R246). -/
theorem binary32Value_ofSixteenths {n : ℤ} (hn : n.natAbs < 2 ^ 16) :
    binary32Value (binary32OfSixteenths n) = (n : ℚ) / 16 := by
  by_cases h0 : n = 0
  · simp [h0, binary32OfSixteenths, binary32Value]
  · have hm : n.natAbs ≠ 0 := Int.natAbs_ne_zero.mpr h0
    rw [binary32OfSixteenths, if_neg h0]
    dsimp only
    have lower : 2 ^ n.natAbs.log2 ≤ n.natAbs := Nat.log2_self_le hm
    have upper : n.natAbs < 2 ^ (n.natAbs.log2 + 1) := Nat.lt_log2_self
    have he : n.natAbs.log2 < 16 := (Nat.log2_lt hm).mpr hn
    generalize n.natAbs.log2 = e at lower upper he
    have he23 : e ≤ 23 := by omega
    rw [binary32Value_ofNat (by omega) (by omega) (fraction_lt he23 upper), significand_eq he23 lower, Nat.cast_mul,
      Nat.cast_pow, Nat.cast_ofNat, ← mul_assoc, sign_mul_natAbs, mul_assoc, significand_scale he23, mul_one_div]

/-- Settles O60: the raw number fits in 16 bits, so its binary32 pattern is exact. -/
theorem decodeTemperatureExact : Obligations.DecodeTemperatureExact := by
  intro b0 b1
  have h0 := b0.isLt
  have h1 := b1.isLt
  have raw := rawTemperature_eq b0 b1
  have bound : (rawTemperature b0 b1).natAbs < 2 ^ 16 := by
    rw [raw]
    split_ifs <;> omega
  rw [decodeTemperature, binary32Value_ofSixteenths bound, raw]
  push_cast
  rfl

/-! ## The host's operation state (R240) -/

theorem resume_reply (k : Kont) (v : Ret) (s : State) : (resume k v s).1.host.reply = s.host.reply := by
  by_cases hk : k.writesOutput
  · rcases hk with rfl | rfl | rfl
    · obtain ⟨c, -, -, hh⟩ := now_host s
      simp only [resume]
      split <;> simp [hh]
    · simp only [resume]
      split <;> rfl
    · simp only [resume]
      split <;> rfl
  · obtain ⟨-, -, -, -, same⟩ := resume_keepsOutputs hk v s
    exact same

theorem unwind_reply (rest : List Task) (konts : List Kont) (v : Ret) (s : State) :
    (unwind rest konts v s).host.reply = s.host.reply :=
  unwind_rel (fun s t => t.host.reply = s.host.reply) (fun h k => k.trans h) (fun _ _ _ => rfl) (fun _ _ => rfl) rest
    konts (fun k _ => resume_reply k) v s

/-- What an answer that goes up to positions of `all` can make of the operation state `a`, where `r` is the last reply:
as in OpStateMoves, and ERROR only by a position that fails on r. -/
def OpStateTurns (all : List Kont) (r : Reply) (a b : OpState) : Prop :=
  b = a ∨ (b = .error ∧ ∃ k ∈ all, k.failsOn r = true) ∨ (b = .idle ∧ .resetStatus ∈ all)
    ∨ (b = .convertingTemperature ∧ .startConvert ∈ all)

theorem opStateTurns_trans {all : List Kont} {r : Reply} {a b c : OpState} (h : OpStateTurns all r a b)
    (k : OpStateTurns all r b c) : OpStateTurns all r a c := by
  rcases k with rfl | changed
  · exact h
  · exact .inr changed

theorem resume_opStateTurns {all : List Kont} {k : Kont} {op : HostOp} {r : Reply} {v : Ret} (s : State) (hm : k ∈ all)
    (hk : k.awaits op) (ha : Answers all op r v) :
    OpStateTurns all r s.host.opState (resume k v s).1.host.opState := by
  rcases resume_opState all k hm v s with same | error | idle | converting
  · exact .inl same
  · by_cases before : s.host.opState = .error
    · exact .inl (error.trans before.symm)
    · exact .inr (.inl ⟨error, k, hm, resume_failsOn hk ha error before⟩)
  · exact .inr (.inr (.inl idle))
  · exact .inr (.inr (.inr converting))

theorem unwind_opStateTurns {konts : List Kont} {op : HostOp} {r : Reply} {v : Ret} (rest : List Task) (s : State)
    (hp : Placed op konts) (ha : Answers konts op r v) :
    OpStateTurns konts r s.host.opState (unwind rest konts v s).host.opState :=
  unwind_rel_answers (fun s t => OpStateTurns konts r s.host.opState t.host.opState) opStateTurns_trans
    (fun _ _ _ => .inl rfl) (fun _ _ => .inl rfl) (fun _ hm _ _ s hk ha => resume_opStateTurns s hm hk ha) rest konts s
    hp (fun _ => id) ha

/-- The start of a procedure leaves the operation state, but for clearState and the end of a conversion (R216, R242). -/
theorem enter_opState (p : Proc) (s : State) :
    (enter p s).1.host.opState = s.host.opState
      ∨ (enter p s).1.host.opState = .idle
          ∧ (p = .clearState ∨ p = .checkConversionStatus ∧ s.host.opState = .convertingTemperature) := by
  cases p
  case clearState => exact .inr ⟨rfl, .inl rfl⟩
  case checkConversionStatus =>
    by_cases converting : s.host.opState = .convertingTemperature
    · rcases Nat.lt_or_ge (s.now.1 - s.host.convStart).toNat 750 with early | elapsed
      · obtain ⟨c, -, -, hh⟩ := now_host s
        rw [enter_checkConversionStatus_of_early converting early]
        exact .inl (by rw [hh])
      · rw [enter_checkConversionStatus_of_elapsed converting elapsed]
        exact .inr ⟨rfl, .inr ⟨rfl, converting⟩⟩
    · rw [enter_checkConversionStatus_of_not_converting converting]
      exact .inl rfl
  case selectChannel | startTemperatureConversion =>
    refine .inl ?_
    simp only [enter]
    split <;> rfl
  all_goals exact .inl rfl

/-- The start of a procedure at the head entry: the operation state after it, and what its answer makes of that. -/
theorem advance_opStateTurns {konts : List Kont} {p : Proc} (rest : List Task) (s : State)
    (hp : Placed (.call p) konts) :
    OpStateTurns konts (advance rest konts (enter p s)).host.reply (enter p s).1.host.opState
      (advance rest konts (enter p s)).host.opState := by
  rcases he : enter p s with ⟨t, op | w⟩
  · exact .inl rfl
  · rw [advance, unwind_reply]
    exact unwind_opStateTurns rest t hp (enter_answers _ he)

/-- What a step can do to the operation state, by the positions of the head entry and the procedure that starts. -/
theorem step_opStateTurns {s t : State} (hi : HostInv s.host) (h : step s = .next t) :
    ∃ konts, (∀ k ∈ konts, hostWaits s k) ∧ (s.host.opState = .error → .startConvert ∉ konts)
      ∧ (OpStateTurns konts t.host.reply s.host.opState t.host.opState
        ∨ t.host.opState = .idle
            ∧ (hostCalls s .clearState
              ∨ hostCalls s .checkConversionStatus ∧ s.host.opState = .convertingTemperature)) := by
  rcases step_host_cases h with hh | ⟨op, konts, rest, u, v, hp, hu, ha, rfl⟩ | ⟨p, konts, rest, c, hp, hc, rfl⟩
  · exact ⟨[], by simp, by simp, .inl (.inl (by rw [hh]))⟩
  · obtain ⟨placed, -, noStart⟩ := hi _ _ hp
    refine ⟨konts, fun _ => hostWaits_of_mem hp, fun he hm => noStart he _ hm ⟨0#8, 0#8, rfl⟩, .inl ?_⟩
    have turns := unwind_opStateTurns rest u placed ha
    rw [unwind_reply]
    rwa [show u.host.opState = s.host.opState by rw [hu]] at turns
  · obtain ⟨placed, -, noStart⟩ := hi _ _ hp
    refine ⟨konts, fun _ => hostWaits_of_mem hp, fun he hm => noStart he _ hm ⟨0#8, 0#8, rfl⟩, ?_⟩
    have turns := advance_opStateTurns rest c placed
    have start := enter_opState p c
    rw [hc] at start
    rcases start with same | ⟨idle, cause⟩
    · exact .inl (same ▸ turns)
    · rcases turns with stays | changed
      · refine .inr ⟨stays.trans idle, ?_⟩
        rcases cause with rfl | ⟨rfl, converting⟩
        · exact .inl ⟨konts, rest, hp⟩
        · exact .inr ⟨⟨konts, rest, hp⟩, converting⟩
      · exact .inl (.inr changed)

/-- Settles O43: the reply is what failed where a position sets ERROR, and by the invariant no startTemperatureConversion
is on its way in ERROR. -/
theorem opStateChangesByTransition : Obligations.OpStateChangesByTransition := by
  rintro s t ⟨-, hi, -⟩ h
  obtain ⟨konts, waits, noStart, (same | ⟨error, k, hk, fails⟩ | ⟨idle, hk⟩ | ⟨converting, hk⟩) | ⟨idle, cause⟩⟩ :=
    step_opStateTurns hi h
  · exact .inl same
  · exact .inr (.inl ⟨error, k, waits k hk, fails⟩)
  · exact .inr (.inr (.inl ⟨idle, .inl (waits _ hk)⟩))
  · exact .inr (.inr (.inr ⟨converting, waits _ hk, fun he => noStart he hk⟩))
  · exact .inr (.inr (.inl ⟨idle, .inr cause⟩))

end Sys2Proof.Machine

namespace Sys2Proof.Machine

/-! ## The fault mark is what stops the machine, and all that stops it (R260, R263) -/

theorem unlessFaulted_of_faulted {s : State} {r : Fault} (h : s.dev.fault = some r) (body : State → State) :
    unlessFaulted s body = .fault r := by
  unfold unlessFaulted; rw [h]

/-- A transaction of any bytes, a read too, is one step of the device command interface. -/
theorem runTxn_unlessFaulted (x : Txn) : ∃ body, ∀ s, runTxn x s = unlessFaulted s body := by
  cases x with
  | read => exact ⟨_, fun _ => rfl⟩
  | write bytes =>
    obtain ⟨execute, run⟩ := runTxn_write bytes
    exact ⟨_, run⟩

/-- So is an instruction: it is what its own transaction runs. -/
theorem exec_of_faulted {s : State} {r : Fault} (h : s.dev.fault = some r) (i : Instr) : exec i s = .fault r := by
  obtain ⟨body, run⟩ := runTxn_unlessFaulted (encode i)
  rw [← runTxn_of_decode (decode_encode i), run, unlessFaulted_of_faulted h]

theorem step_of_faulted {s : State} {r : Fault} (h : s.dev.fault = some r) : step s = .fault r := by
  unfold step runStep; rw [h]

/-- Settles O5: the mark is looked at before anything else, in the step and in every instruction. -/
theorem nothingRunsAfterFault : Obligations.NothingRunsAfterFault :=
  fun _ _ h => ⟨step_of_faulted h, exec_of_faulted h⟩

theorem runTxn_of_unfaulted {s : State} (h : s.dev.fault = none) (x : Txn) : ∃ u, runTxn x s = .next u := by
  obtain ⟨body, run⟩ := runTxn_unlessFaulted x
  exact ⟨_, (run s).trans (unlessFaulted_of_unfaulted s body h)⟩

/-- Of what the host can do next only a transaction could stop, and without a mark none does. -/
theorem hostStep_of_unfaulted {s : State} (h : s.dev.fault = none) : ∃ t, hostStep s = .next t := by
  unfold hostStep
  split
  case h_2 x konts rest _ =>
    obtain ⟨u, hu⟩ := runTxn_of_unfaulted h x
    exact ⟨deliver rest konts x u, by rw [hu, andThen]⟩
  all_goals exact ⟨_, rfl⟩

/-- Settles O6: the engine's step and the idle step always answer a next state, so it is left to the host's, before
which the choice of the agent leaves the device alone. -/
theorem unfaultedStepAnswersNext : Obligations.UnfaultedStepAnswersNext := by
  intro s hf
  unfold step runStep
  rw [hf]
  cases engineEnabled s <;> cases hostEnabled s
  case true.true =>
    dsimp only
    split
    · exact ⟨_, rfl⟩
    · exact hostStep_of_unfaulted (by rw [chooseAgent_dev, hf])
  case false.true => exact hostStep_of_unfaulted hf
  all_goals exact ⟨_, rfl⟩

/-! ## Well-formed instructions -/

section
variable {s : State} {bytes : List Byte} {cmd : Byte} {gated redraw : Bool} {effect : State → Except Fault State}

/-- A command whose checks and whose effect pass marks no fault and is not answered Fail. -/
theorem execCommand_unfaulted {u : State} (live : Live s) (quiet : gated = true → Quiet s)
    (accepted : effect (s.issue (.write bytes)) = .ok u) (hf : u.dev.fault = none) :
    ∃ t, execCommand s bytes cmd gated redraw effect = .next t ∧ t.dev.fault = none ∧ t.host.reply ≠ .fail :=
  ⟨_, execCommand_ok live quiet accepted hf, by cases redraw <;> simp [hf], nofun⟩

/-- A command whose parameter is illegal marks its fault and changes nothing else of device and host (R262). -/
theorem execCommand_faulted {r : Fault} (live : Live s) (quiet : gated = true → Quiet s)
    (illegal : effect (s.issue (.write bytes)) = .error r) :
    ∃ t, execCommand s bytes cmd gated redraw effect = .next t ∧ t.dev = { s.dev with fault := some r }
      ∧ t.host = s.host :=
  ⟨_, execCommand_error live quiet illegal, rfl, rfl⟩

end

theorem exec_rd_unfaulted {s : State} (live : Live s) :
    ∃ t, exec .rd s = .next t ∧ t.dev.fault = none ∧ t.host.reply ≠ .fail := by
  obtain ⟨level, -⟩ := memRead_dev (s.issue .read)
  exact ⟨_, execRd_of_live live, by rw [level]; exact live.1, nofun⟩

/-- A well-formed parameter is one the effect accepts; the other effects accept every parameter. -/
theorem exec_of_wellFormed {i : Instr} {s : State} (live : Live s) (quiet : Quiet s) (wf : i.wellFormed = true) :
    ∃ t, exec i s = .next t ∧ t.dev.fault = none ∧ t.host.reply ≠ .fail := by
  cases i with
  | rd => exact exec_rd_unfaulted live
  | drst => exact execCommand_unfaulted live nofun rfl (by simp [live.1])
  | srp p =>
    obtain ⟨r, hr⟩ := Option.isSome_iff_exists.mp wf
    exact execCommand_unfaulted live nofun (srpEffect_of_some hr _) live.1
  | wcfg p =>
    obtain ⟨c, hc⟩ := Option.isSome_iff_exists.mp wf
    exact execCommand_unfaulted live (fun _ => quiet) (wcfgEffect_of_some hc _) live.1
  | chsl c =>
    obtain ⟨n, hn⟩ := Option.isSome_iff_exists.mp wf
    exact execCommand_unfaulted live (fun _ => quiet) (chslEffect_of_some hn _) live.1
  | w1rs | w1wb _ | w1rb | w1sb _ | w1t _ =>
    exact execCommand_unfaulted (effect := accept _) live (fun _ => quiet) rfl live.1

/-- SRP is not gated, so a reserved code is looked at on a busy and on a settling device too (R90, R264). -/
theorem exec_srp_of_reserved {p : Byte} {s : State} (live : Live s) (hp : (Instr.srp p).wellFormed = false) :
    ∃ t, exec (.srp p) s = .next t ∧ t.dev = { s.dev with fault := some (.badPointer p) } ∧ t.host = s.host :=
  execCommand_faulted live nofun
    (srpEffect_of_none (Option.isNone_iff_eq_none.mp (Option.isSome_eq_false_iff.mp hp)) _)

/-- Only SRP, WCFG and CHSL can be ill-formed, and each has a fault for it (R87, R90, R92). -/
theorem exec_of_illFormed {i : Instr} {s : State} (live : Live s) (quiet : Quiet s) (ill : i.wellFormed = false) :
    ∃ t r, exec i s = .next t ∧ t.dev = { s.dev with fault := some r } ∧ t.host = s.host := by
  cases i with
  | srp p => exact (exec_srp_of_reserved live ill).imp fun _ faults => ⟨_, faults⟩
  | wcfg p =>
    have illegal := Option.isNone_iff_eq_none.mp (Option.isSome_eq_false_iff.mp ill)
    exact (execCommand_faulted live (fun _ => quiet) (wcfgEffect_of_none illegal _)).imp fun _ faults => ⟨_, faults⟩
  | chsl c =>
    have illegal := Option.isNone_iff_eq_none.mp (Option.isSome_eq_false_iff.mp ill)
    exact (execCommand_faulted live (fun _ => quiet) (chslEffect_of_none illegal _)).imp fun _ faults => ⟨_, faults⟩
  | drst | w1rs | w1wb _ | w1rb | w1sb _ | w1t _ | rd => cases ill

/-- Settles O14: on an idle device the parameter alone decides, and for SRP on every device. -/
theorem wellFormedRunsWithoutFault : Obligations.WellFormedRunsWithoutFault := by
  intro i s live
  refine ⟨exec_of_wellFormed live, exec_of_illFormed live, ?_⟩
  rintro p rfl
  exact exec_srp_of_reserved live

end Sys2Proof.Machine
